-- ==== Sys2Proof/Word.lean ====
section
/-! DEFINITION. The word types of CCM-CORE: bytes, 32-bit registers, 64-bit memory addresses and
the 16-byte Block (spec 00_scope.md R9, R11, R12, R13). -/

namespace Sys2Proof

/-- A byte is 8 bits (R11). -/
abbrev Byte := BitVec 8

/-- Every host-visible register is 32 bits wide (R9, 10_state.md R22). -/
abbrev Word := BitVec 32

/-- A memory port address, 64 bits with arithmetic modulo 2^64 (R9, 20_memory.md R67). -/
abbrev Addr := BitVec 64

/-- A Block is `Bytes(16)`; `b[0]` is its first byte (R13, 30_encoding.md R84). -/
abbrev Block := Vector Byte 16

/-- `ZERO`, the all-zero Block (R13). -/
def Block.zero : Block := Vector.replicate 16 0

end Sys2Proof
end

