-- ==== Sys2Proof/Config.lean ====
section
/-! DEFINITION. The parameters of CCM-CORE that the spec leaves OPEN, and the free values.
None of them has a body: a claim holds whatever they are. -/

namespace Sys2Proof

/-- The keyed block cipher E behind the cipher port (00_scope.md R10, 92_eei_decisions.md D2, D42):
`cipher k` is the function Block → Block that stands there when the platform has loaded key number
`k`. A pure total function of its argument. DESIGN CHOICE (log 1): keys are numbered by `Nat`. -/
opaque Config.cipher : Nat → Block → Block

/-- FREE VALUE (log 4): which bytes of a memory write that got an error response, or that a reset
cut, have landed (20_memory.md R69, 70_reset_and_hazards.md R261). Bit `k` of draw `d` says whether
byte `k` of the request holds its new value. -/
opaque Config.freeSubset : Nat → BitVec 16

/-- FREE VALUE (log 10): which of the racing values a host load returns (20_memory.md R72, R74). -/
opaque Config.freePick : Nat → Nat

/-- FREE VALUE (log 23): whether a store that races with the engine's write lands now (20_memory.md R74). -/
opaque Config.freeBit : Nat → Bool

/-- REG_BASE, the base address of the register window (00_scope.md R9). Its width is not stated, so
it is a natural number (log 19). -/
opaque Config.regBase : Nat

end Sys2Proof
end

