-- ==== Sys2Proof/Syntax.lean ====
section
/-! DEFINITION. The host access, the register names, the instructions (one constructor per row of
spec/opcode_table.json) and the host-sequence notation (spec 30_encoding.md R80 to R93). -/

namespace Sys2Proof

/-- The two kinds of access: of the host to a register (R80) and of the engine to memory
(20_memory.md R69, "with kind read or write"). -/
inductive AccessKind
  | rd
  | wr
  deriving DecidableEq, Repr

/-- One host access as it reaches the register port: the triple (kind, offset, data) of R80, and the
number of bytes it moves, because R80 speaks of sub-word accesses (log 22). The data of a read is
ignored. -/
structure HostAccess where
  kind : AccessKind
  offset : BitVec 8
  bytes : Nat
  data : Word
  deriving DecidableEq, Repr

/-- The 18 data registers at offsets 0x10 to 0x54 (10_state.md R22). -/
inductive DataReg
  | nonce0
  | nonce1
  | nonce2
  | nonce3
  | tag0
  | tag1
  | tag2
  | tag3
  | aadAddrLo
  | aadAddrHi
  | aadLenLo
  | aadLenHi
  | inAddrLo
  | inAddrHi
  | outAddrLo
  | outAddrHi
  | msgLenLo
  | msgLenHi
  deriving DecidableEq, Repr

/-- Every register name of 10_state.md R22. -/
inductive Reg
  | ctrl
  | cmd
  | status
  | data (d : DataReg)
  deriving DecidableEq, Repr

/-- The instructions: the four host accesses, the four commands and the nine phases
(spec/opcode_table.json, R93). -/
inductive Instr
  /-- RD: host register read (40_commands.md R100). -/
  | rd (off : BitVec 8)
  /-- WR: host register write while BUSY = 0 (R101). -/
  | wr (off : BitVec 8) (v : Word)
  /-- WR_BUSY: host write while BUSY = 1, to any offset except STATUS (R102). -/
  | wrBusy (off : BitVec 8) (v : Word)
  /-- WR_STATUS: host write to STATUS, at any time (R103). -/
  | wrStatus (v : Word)
  /-- NOP: CMD written with 0 (R105). -/
  | nop
  /-- ENCRYPT: CMD written with 1 (R106). -/
  | encrypt
  /-- DECRYPT: CMD written with 2 (R107). -/
  | decrypt
  /-- ILLEGAL: CMD written with any other value (R108). -/
  | illegal (code : Word)
  /-- CHECK, phase 1 (41_nonce_formatter.md R131). -/
  | check
  /-- B0, phase 2 (41_nonce_formatter.md R135). -/
  | b0
  /-- AAD, phase 3 (42_mac_aad.md R155). -/
  | aad
  /-- ENC, phase 4 (43_payload_encrypt.md R171). -/
  | enc
  /-- DEC1, phase 5 (45_decrypt.md R201). -/
  | dec1
  /-- FINAL, phase 6 (44_tag_finalizer.md R190). -/
  | final
  /-- VERIFY, phase 7 (45_decrypt.md R203). -/
  | verify
  /-- DEC2, phase 8 (45_decrypt.md R206). -/
  | dec2
  /-- WIPE, phase 9 (60_exceptions.md R233). -/
  | wipe
  deriving DecidableEq, Repr

/-- An instruction as it is encoded: a host access (R80; a command is a write of CMD, R81) or a 4-bit
phase code, the one STATUS.PHASE shows while that step is next (R83, R93). -/
inductive Encoded
  | access (a : HostAccess)
  | phase (code : BitVec 4)
  deriving DecidableEq, Repr

/-- Why an encoded instruction is rejected. -/
inductive DecodeError
  /-- A host access that does not move 4 bytes (R80). -/
  | subWord
  /-- A host access whose offset has offset[1:0] != 0 (R80). -/
  | misaligned
  /-- Phase code 0: IDLE, in which the engine takes no step (R83). -/
  | idlePhase
  /-- Phase codes 10 to 15: reserved, never entered (R83, R92). -/
  | reservedPhase
  deriving DecidableEq, Repr

/-- What the decoder answers. -/
inductive Decoded
  | instr (i : Instr)
  | reject (e : DecodeError)
  deriving DecidableEq, Repr

/-- One line of a host program (R90). A comment line is no access. -/
inductive HostLine
  /-- `wr REG, v`. -/
  | wr (r : Reg) (v : Word)
  /-- `rd REG -> x`. -/
  | rd (r : Reg)
  /-- `poll REG.FIELD == v`, with FIELD the bits [hi:lo]. -/
  | poll (r : Reg) (hi lo : Nat) (v : Word)
  deriving DecidableEq, Repr

/-- The 64-bit register pairs that `wr64` names (R91). -/
inductive Pair
  | aadAddr
  | aadLen
  | inAddr
  | outAddr
  | msgLen
  deriving DecidableEq, Repr

/-- The pseudo-instructions (R91). -/
inductive Pseudo
  | wr64 (x : Pair) (v : BitVec 64)
  | wrnonce (bs : List Byte)
  | wrtag (bs : List Byte)
  | rdtag
  | encrypt
  | decrypt
  | wait
  | ack
  deriving DecidableEq, Repr

end Sys2Proof
end

