-- ==== Sys2Proof/WellFormed.lean ====
section
/-! DEFINITION. Which instructions, accesses and host lines are well formed (spec 30_encoding.md R80,
R81, R91, R93). -/

namespace Sys2Proof

/-- offset[1:0] = 0 (R80). -/
def aligned (off : BitVec 8) : Bool := off.toNat % 4 == 0

/-- A host access inside the interface: a whole, aligned 32-bit access (R80). -/
def HostAccess.wf (a : HostAccess) : Bool := a.bytes == 4 && aligned a.offset

/-- An instruction whose row is the one the decoder picks for its encoding: an aligned offset; a
write to CMD is one of the four commands and a write to STATUS is WR_STATUS, so WR names neither,
and WR_BUSY does not name STATUS (R93); ILLEGAL carries no code that another command has (R81). -/
def Instr.wf : Instr → Bool
  | .rd off => aligned off
  | .wr off _ => aligned off && off != 0x04 && off != 0x08
  | .wrBusy off _ => aligned off && off != 0x08
  | .wrStatus _ => true
  | .nop => true
  | .encrypt => true
  | .decrypt => true
  | .illegal code => code != 0 && code != 1 && code != 2
  | .check => true
  | .b0 => true
  | .aad => true
  | .enc => true
  | .dec1 => true
  | .final => true
  | .verify => true
  | .dec2 => true
  | .wipe => true

/-- `wrnonce` and `wrtag` name at most 16 bytes (R91). -/
def Pseudo.wf : Pseudo → Bool
  | .wr64 _ _ => true
  | .wrnonce bs => bs.length ≤ 16
  | .wrtag bs => bs.length ≤ 16
  | .rdtag => true
  | .encrypt => true
  | .decrypt => true
  | .wait => true
  | .ack => true

/-- A polled field is a bit slice of a 32-bit register (R11, R90). -/
def HostLine.wf : HostLine → Bool
  | .wr _ _ => true
  | .rd _ => true
  | .poll _ hi lo _ => lo ≤ hi && hi < 32

end Sys2Proof
end

