-- ==== Sys2Proof/Decode.lean ====
section
/-! DEFINITION. Decoding of host accesses, CMD writes and phase codes, the encoder, the register
offsets and the expansion of the host notation (spec 30_encoding.md R80 to R93, 10_state.md R22). -/

namespace Sys2Proof

/-! ## Decoding -/

/-- CMD write decode: the whole 32-bit value is matched, and ILLEGAL is tried last (R81, R93,
40_commands.md R104). -/
def decodeCmd (code : Word) : Instr :=
  if code = 0x00000000 then .nop
  else if code = 0x00000001 then .encrypt
  else if code = 0x00000002 then .decrypt
  else .illegal code

/-- A phase code, as STATUS.PHASE shows it, to the step of that phase (R83). -/
def decodePhase (code : BitVec 4) : Decoded :=
  match code.toNat with
  | 0 => .reject .idlePhase
  | 1 => .instr .check
  | 2 => .instr .b0
  | 3 => .instr .aad
  | 4 => .instr .enc
  | 5 => .instr .dec1
  | 6 => .instr .final
  | 7 => .instr .verify
  | 8 => .instr .dec2
  | 9 => .instr .wipe
  | _ => .reject .reservedPhase

/-- A host access to the row of the table it matches, which depends on BUSY (R93): RD; WR_STATUS for
a write of offset 0x08; WR_BUSY for any other write while BUSY = 1; the command for a write of CMD
(R104); WR otherwise. Anything but a whole aligned 32-bit access is rejected (R80). -/
def decodeAccess (busy : Bool) (a : HostAccess) : Decoded :=
  if a.bytes ≠ 4 then .reject .subWord
  else if !aligned a.offset then .reject .misaligned
  else match a.kind with
    | .rd => .instr (.rd a.offset)
    | .wr =>
      if a.offset = 0x08 then .instr (.wrStatus a.data)
      else if busy then .instr (.wrBusy a.offset a.data)
      else if a.offset = 0x04 then .instr (decodeCmd a.data)
      else .instr (.wr a.offset a.data)

/-- The decoder. `busy` is STATUS.BUSY at the access. -/
def decode (busy : Bool) : Encoded → Decoded
  | .access a => decodeAccess busy a
  | .phase code => decodePhase code

/-! ## Encoding -/

/-- The encoding of an instruction (R80, R81, R83; the Encoding lines of 40_commands.md R100 to
R108). -/
def encode : Instr → Encoded
  | .rd off => .access ⟨.rd, off, 4, 0⟩
  | .wr off v => .access ⟨.wr, off, 4, v⟩
  | .wrBusy off v => .access ⟨.wr, off, 4, v⟩
  | .wrStatus v => .access ⟨.wr, 0x08, 4, v⟩
  | .nop => .access ⟨.wr, 0x04, 4, 0x00000000⟩
  | .encrypt => .access ⟨.wr, 0x04, 4, 0x00000001⟩
  | .decrypt => .access ⟨.wr, 0x04, 4, 0x00000002⟩
  | .illegal code => .access ⟨.wr, 0x04, 4, code⟩
  | .check => .phase 1
  | .b0 => .phase 2
  | .aad => .phase 3
  | .enc => .phase 4
  | .dec1 => .phase 5
  | .final => .phase 6
  | .verify => .phase 7
  | .dec2 => .phase 8
  | .wipe => .phase 9

/-- Whether the row of an instruction matches at this value of BUSY (the mask fields of the access
rows, R93): WR and the commands need BUSY = 0, WR_BUSY needs BUSY = 1. -/
def Instr.admitsBusy (busy : Bool) : Instr → Bool
  | .wr _ _ => !busy
  | .wrBusy _ _ => busy
  | .nop => !busy
  | .encrypt => !busy
  | .decrypt => !busy
  | .illegal _ => !busy
  | .rd _ => true
  | .wrStatus _ => true
  | .check => true
  | .b0 => true
  | .aad => true
  | .enc => true
  | .dec1 => true
  | .final => true
  | .verify => true
  | .dec2 => true
  | .wipe => true

/-! ## Words numbered as the opcode table numbers them -/

/-- The instruction the decoder reads from a table word. A 32-bit word is the value of CMD (R93, format
"cmd"). An 8-bit word is a phase code in its low four bits (format "phase"); failing that it is the
offset field of WR_BUSY, whose data bits then lie above the word and are 0 (log 8). The rows RD, WR and
WR_STATUS have no bits in the table. -/
def decodeTableWord (nbits w : Nat) : Option Instr :=
  if nbits = 32 ∧ w < 2 ^ 32 then some (decodeCmd (BitVec.ofNat 32 w))
  else if nbits = 8 ∧ w < 2 ^ 8 then
    match (if w < 16 then decodePhase (BitVec.ofNat 4 w) else .reject .reservedPhase) with
    | .instr i => some i
    | .reject _ =>
      match decodeAccess true ⟨.wr, BitVec.ofNat 8 w, 4, 0⟩ with
      | .instr (.wrBusy off v) => some (.wrBusy off v)
      | _ => none
  else none

/-! ## Register names and offsets (10_state.md R22) -/

/-- The offset of a data register from REG_BASE. -/
def DataReg.offset : DataReg → BitVec 8
  | .nonce0 => 0x10
  | .nonce1 => 0x14
  | .nonce2 => 0x18
  | .nonce3 => 0x1C
  | .tag0 => 0x20
  | .tag1 => 0x24
  | .tag2 => 0x28
  | .tag3 => 0x2C
  | .aadAddrLo => 0x30
  | .aadAddrHi => 0x34
  | .aadLenLo => 0x38
  | .aadLenHi => 0x3C
  | .inAddrLo => 0x40
  | .inAddrHi => 0x44
  | .outAddrLo => 0x48
  | .outAddrHi => 0x4C
  | .msgLenLo => 0x50
  | .msgLenHi => 0x54

/-- The offset of a register from REG_BASE. -/
def Reg.offset : Reg → BitVec 8
  | .ctrl => 0x00
  | .cmd => 0x04
  | .status => 0x08
  | .data d => d.offset

/-- The register at an offset; `none` at a reserved offset (10_state.md R35) and at an offset that is
not a multiple of 4. -/
def Reg.ofOffset (off : BitVec 8) : Option Reg :=
  match off.toNat with
  | 0x00 => some .ctrl
  | 0x04 => some .cmd
  | 0x08 => some .status
  | 0x10 => some (.data .nonce0)
  | 0x14 => some (.data .nonce1)
  | 0x18 => some (.data .nonce2)
  | 0x1C => some (.data .nonce3)
  | 0x20 => some (.data .tag0)
  | 0x24 => some (.data .tag1)
  | 0x28 => some (.data .tag2)
  | 0x2C => some (.data .tag3)
  | 0x30 => some (.data .aadAddrLo)
  | 0x34 => some (.data .aadAddrHi)
  | 0x38 => some (.data .aadLenLo)
  | 0x3C => some (.data .aadLenHi)
  | 0x40 => some (.data .inAddrLo)
  | 0x44 => some (.data .inAddrHi)
  | 0x48 => some (.data .outAddrLo)
  | 0x4C => some (.data .outAddrHi)
  | 0x50 => some (.data .msgLenLo)
  | 0x54 => some (.data .msgLenHi)
  | _ => none

/-- The host access that a bus access at address `addr` makes, when it lies in the 256-byte window at
REG_BASE (10_state.md R20, R22; log 19). -/
def ofBusAddress (kind : AccessKind) (addr bytes : Nat) (data : Word) : Option HostAccess :=
  if Config.regBase ≤ addr ∧ addr < Config.regBase + 256 then
    some ⟨kind, BitVec.ofNat 8 (addr - Config.regBase), bytes, data⟩
  else none

/-! ## Byte packing of the host notation (10_state.md R25, R28; 30_encoding.md R91) -/

/-- Four bytes packed big-endian into a word: the first byte is in bits [31:24] (R25, 20_memory.md
R63). -/
def packWord (b0 b1 b2 b3 : Byte) : Word := (b0 ++ b1 ++ b2 ++ b3).cast (by rfl)

/-- Word `k` of a byte string, four bytes to a word, missing bytes 0 (R91). -/
def packedWord (bs : List Byte) (k : Nat) : Word :=
  packWord (bs.getD (4 * k) 0) (bs.getD (4 * k + 1) 0) (bs.getD (4 * k + 2) 0) (bs.getD (4 * k + 3) 0)

/-- The LO register of a pair (R91). -/
def Pair.lo : Pair → DataReg
  | .aadAddr => .aadAddrLo
  | .aadLen => .aadLenLo
  | .inAddr => .inAddrLo
  | .outAddr => .outAddrLo
  | .msgLen => .msgLenLo

/-- The HI register of a pair (R91). -/
def Pair.hi : Pair → DataReg
  | .aadAddr => .aadAddrHi
  | .aadLen => .aadLenHi
  | .inAddr => .inAddrHi
  | .outAddr => .outAddrHi
  | .msgLen => .msgLenHi

/-- The expansion of a pseudo-instruction (R91). -/
def Pseudo.expand : Pseudo → List HostLine
  | .wr64 x v => [.wr (.data x.lo) (v.extractLsb' 0 32), .wr (.data x.hi) (v.extractLsb' 32 32)]
  | .wrnonce bs =>
    [.wr (.data .nonce0) (packedWord bs 0), .wr (.data .nonce1) (packedWord bs 1),
      .wr (.data .nonce2) (packedWord bs 2), .wr (.data .nonce3) (packedWord bs 3)]
  | .wrtag bs =>
    [.wr (.data .tag0) (packedWord bs 0), .wr (.data .tag1) (packedWord bs 1),
      .wr (.data .tag2) (packedWord bs 2), .wr (.data .tag3) (packedWord bs 3)]
  | .rdtag => [.rd (.data .tag0), .rd (.data .tag1), .rd (.data .tag2), .rd (.data .tag3)]
  | .encrypt => [.wr .cmd 0x00000001]
  | .decrypt => [.wr .cmd 0x00000002]
  | .wait => [.poll .status 1 1 1]
  | .ack => [.wr .status 0x00000006]

/-- The access one line makes, written `W off data` or `R off` (R90); a poll makes the read of its
register, again and again. -/
def HostLine.encode : HostLine → HostAccess
  | .wr r v => ⟨.wr, r.offset, 4, v⟩
  | .rd r => ⟨.rd, r.offset, 4, 0⟩
  | .poll r _ _ _ => ⟨.rd, r.offset, 4, 0⟩

/-- FIELD, the bits [hi:lo] of a word, zero-extended (R11, R90). -/
def fieldOf (hi lo : Nat) (w : Word) : Word := (w.extractLsb' lo (hi - lo + 1)).setWidth 32

end Sys2Proof
end

