-- ==== Sys2Proof/Machine/State.lean ====
section
/-! DEFINITION. The state of CCM-CORE as plain data (spec 10_state.md), the stores and parameters the
spec keeps outside it (R39), the moves of the other agents, the reasons a step stops, and reset. -/

namespace Sys2Proof.Machine

/-- The sequencer phases (30_encoding.md R83; codes in Flags.lean). Codes 10 to 15 are never entered,
so they have no constructor. -/
inductive Phase
  | idle
  | check
  | b0
  | aad
  | enc
  | dec1
  | final
  | verify
  | dec2
  | wipe
  deriving DecidableEq, Repr

/-- st.op (10_state.md R37). -/
inductive Op
  | none
  | enc
  | dec
  deriving DecidableEq, Repr

/-- STATUS.RESULT and st.pend (30_encoding.md R82; codes in Flags.lean). Codes 7 to 15 are never
produced, so they have no constructor. -/
inductive Result
  | ok
  | invalidNonceLength
  | messageTooLarge
  | aadTooLarge
  | authenticationFailure
  | busError
  | illegalCommand
  deriving DecidableEq, Repr

/-- The fields of CTRL (10_state.md R23). -/
structure Ctrl where
  nonceLen : BitVec 4
  ie : Bool
  deriving DecidableEq, Repr

/-- The stored fields of STATUS (10_state.md R26). BUSY and PHASE are computed from st.phase (R38). -/
structure Status where
  done : Bool
  dropped : Bool
  result : Result
  deriving DecidableEq, Repr

/-- The data registers at offsets 0x10 to 0x54 (10_state.md R22, R27 to R33). -/
structure DataRegs where
  nonce0 : Word
  nonce1 : Word
  nonce2 : Word
  nonce3 : Word
  tag0 : Word
  tag1 : Word
  tag2 : Word
  tag3 : Word
  aadAddrLo : Word
  aadAddrHi : Word
  aadLenLo : Word
  aadLenHi : Word
  inAddrLo : Word
  inAddrHi : Word
  outAddrLo : Word
  outAddrHi : Word
  msgLenLo : Word
  msgLenHi : Word
  deriving DecidableEq, Repr

/-- The hidden engine state `st` (10_state.md R37). -/
structure Engine where
  phase : Phase
  op : Op
  ctr : BitVec 64
  aj : BitVec 64
  pend : Result
  mac : Block
  s0 : Block
  ks : Block
  blk : Block
  cand : Block
  deriving DecidableEq, Repr

/-- Memory: address and byte pairs, addresses strictly rising, no byte equal to what an unlisted
address reads as (`Memory.wf` in Ops.lean). -/
abbrev Memory := List Host.Cell

/-- One request on the memory port: `n` bytes at `addr` (20_memory.md R65, R69). -/
structure MemRequest where
  kind : AccessKind
  addr : Addr
  n : Nat
  deriving DecidableEq, Repr

/-- One move of an agent, in the order in which they come (00_scope.md R18; log 5). -/
inductive Input
  /-- The engine takes its enabled step, if it has one (40_commands.md R109). -/
  | engine
  /-- The host makes one access to the register window (30_encoding.md R80). -/
  | access (a : HostAccess)
  /-- The host repeats a register read until bits [hi:lo] equal `v` (R90; log 18). -/
  | poll (r : Reg) (hi lo : Nat) (v : Word)
  /-- rst is asserted between two steps (70_reset_and_hazards.md R260). -/
  | reset
  /-- rst is asserted while the engine's current step is under way and cuts its write (R261; log 12). -/
  | resetCut
  /-- The host or another agent stores a byte of memory (20_memory.md R60, R72, R74). -/
  | store (a : Addr) (b : Byte)
  /-- The host loads a byte of memory (20_memory.md R71, R72). -/
  | load (a : Addr)
  /-- The host samples irq (20_memory.md R71, 60_exceptions.md R235). -/
  | sampleIrq
  /-- The platform keys the external cipher (70_reset_and_hazards.md R263, R264). -/
  | rekey (k : Nat)
  /-- The platform answers these requests with an error from now on, and no other (20_memory.md R69; the
  vectors B4 and B5 of 95_test_vectors.md answer two reads of the same bytes differently; log 2). -/
  | answer (errs : List MemRequest)
  deriving DecidableEq, Repr

/-- The machine, the external stores beside it and the moves to come. -/
structure State where
  /-- CTRL. -/
  ctrl : Ctrl
  /-- STATUS, less BUSY and PHASE. -/
  status : Status
  /-- NONCE, TAG and the address and length pairs. -/
  data : DataRegs
  /-- The hidden engine state. -/
  st : Engine
  /-- External: the contents of memory (20_memory.md R60). -/
  mem : Memory
  /-- External: BUS_OK as data, the requests that get an error response (20_memory.md R69; log 2). -/
  busErr : List MemRequest
  /-- External: which keyed function stands behind the cipher port (00_scope.md R10; log 1). -/
  key : Nat
  /-- Model: the moves of the other agents still to come (log 5). -/
  inputs : List Input
  /-- Host side: the word the last host read returned (40_commands.md R100; log 9). -/
  rdata : Word
  /-- Host side: the other memories a host load may still see, newest first: memory as it was at each
  command start since the last acquire, and what racing stores added (20_memory.md R71, R72, R74;
  log 10). -/
  views : List Memory
  /-- Host side: the byte the last host load returned (log 9). -/
  hostByte : Byte
  /-- Model: how many free values have been drawn (log 4). -/
  draws : Nat
  /-- Model: the memory requests since the last command start, newest first (log 14). -/
  requests : List MemRequest
  /-- Model: the blocks given to the cipher since the last command start, newest first (log 14). -/
  calls : List Block
  /-- Model: the engine steps taken since the last command start (log 14). -/
  steps : Nat
  deriving DecidableEq, Repr

/-- Why the machine stops. CCM-CORE itself never stops: every error it detects is a RESULT code. -/
inductive Fault
  /-- Raised by `Input.store` while BUSY = 1 to a byte of the AAD or the input: forbidden, "the model
  gives the host no such move" (70_reset_and_hazards.md R265, D40). Safe. -/
  | inputRace
  /-- Raised by `Input.rekey` while BUSY = 1: "the model has no move that changes E during a command"
  (70_reset_and_hazards.md R264, D40). Safe. -/
  | keyChange
  deriving DecidableEq, Repr

/-- Why a step has no meaning. -/
inductive Refusal
  /-- Raised by `exec` for an instruction that has no meaning yet. Safe. -/
  | notModelled (mnemonic : String)
  /-- Raised by a host access that does not move 4 bytes: "outside the interface. A model refuses it"
  (30_encoding.md R80). Safe. -/
  | subWordAccess
  /-- Raised by a host access whose offset[1:0] is not 0 (30_encoding.md R80). Safe. -/
  | misalignedAccess
  deriving DecidableEq, Repr

/-- All data registers 0 (70_reset_and_hazards.md R260). -/
def DataRegs.zero : DataRegs where
  nonce0 := 0
  nonce1 := 0
  nonce2 := 0
  nonce3 := 0
  tag0 := 0
  tag1 := 0
  tag2 := 0
  tag3 := 0
  aadAddrLo := 0
  aadAddrHi := 0
  aadLenLo := 0
  aadLenHi := 0
  inAddrLo := 0
  inAddrHi := 0
  outAddrLo := 0
  outAddrHi := 0
  msgLenLo := 0
  msgLenHi := 0

/-- The "value when idle" column of 10_state.md R37, which reset and WIPE leave. -/
def Engine.idle : Engine where
  phase := .idle
  op := .none
  ctr := 0
  aj := 0
  pend := .ok
  mac := Block.zero
  s0 := Block.zero
  ks := Block.zero
  blk := Block.zero
  cand := Block.zero

/-- The machine right after reset (70_reset_and_hazards.md R260, R262). The fields from `mem` on are
not the machine's own; their values are DESIGN CHOICE (logs 1 to 5, 9, 10, 14). -/
def State.reset : State where
  ctrl := ⟨0, false⟩
  status := ⟨false, false, .ok⟩
  data := DataRegs.zero
  st := Engine.idle
  mem := []
  busErr := []
  key := 0
  inputs := []
  rdata := 0
  views := []
  hostByte := 0
  draws := 0
  requests := []
  calls := []
  steps := 0

end Sys2Proof.Machine
end

