-- ==== Sys2Proof/Machine/Operands.lean ====
section
/-! DEFINITION. Byte strings and Blocks (spec 00_scope.md R12, R13), the values derived from the host
registers (R15), the block formats B0, Ctr_i and the AAD prefix (30_encoding.md R85 to R88) and the
payload geometry (43_payload_encrypt.md R170). -/

namespace Sys2Proof.Machine

/-! ## Byte strings and Blocks -/

/-- `be(v, n)`, the n-byte big-endian encoding of v (R12). -/
def be (v n : Nat) : List Byte :=
  (List.range n).map fun k => BitVec.ofNat 8 (v >>> (8 * (n - 1 - k)))

/-- `pad16(s)`, `s || zeros(16 - len(s))` (R13); of a 16-byte string, the Block it is. -/
def pad16 (s : List Byte) : Block := Vector.ofFn fun k : Fin 16 => s.getD k.val 0

/-- `x XOR y` on Blocks, byte-wise (R13). -/
def xorBlock (x y : Block) : Block := Vector.ofFn fun k : Fin 16 => x[k] ^^^ y[k]

/-- `s XOR K` for a byte string of at most 16 bytes: the len(s)-byte string whose byte k is
s[k] XOR K[k] (R13). -/
def xorBytes (s : List Byte) (K : Block) : List Byte := List.zipWith (· ^^^ ·) s K.toList

/-! ## Nonce, tag and 64-bit registers -/

/-- Byte j of a word, byte 0 in bits [31:24] (10_state.md R25, 20_memory.md R63). -/
def wordByte (w : Word) (j : Nat) : Byte := w.extractLsb' (8 * (3 - j)) 8

/-- A HI:LO pair, `HI * 2^32 + LO` (10_state.md R29 to R33). -/
def hiLo (hi lo : Word) : BitVec 64 := (hi ++ lo).cast (by rfl)

/-- `reg[NONCE(k)]` (10_state.md R27). -/
def State.nonceWord (s : State) : Nat → Word
  | 0 => s.data.nonce0
  | 1 => s.data.nonce1
  | 2 => s.data.nonce2
  | _ => s.data.nonce3

/-- `reg[TAG(k)]` (10_state.md R28). -/
def State.tagWord (s : State) : Nat → Word
  | 0 => s.data.tag0
  | 1 => s.data.tag1
  | 2 => s.data.tag2
  | _ => s.data.tag3

/-- `nonceByte(j)` (10_state.md R25). -/
def State.nonceByte (s : State) (j : Nat) : Byte := wordByte (s.nonceWord (j / 4)) (j % 4)

/-- `tagByte(k)` (10_state.md R28). -/
def State.tagByte (s : State) (k : Nat) : Byte := wordByte (s.tagWord (k / 4)) (k % 4)

/-- `tagReg` (10_state.md R28). -/
def State.tagReg (s : State) : Block := Vector.ofFn fun k : Fin 16 => s.tagByte k.val

/-- The data registers with the tag bytes of `t` in TAG0..TAG3 (10_state.md R28). -/
def DataRegs.withTag (d : DataRegs) (t : Block) : DataRegs :=
  { d with
    tag0 := packWord t[0] t[1] t[2] t[3]
    tag1 := packWord t[4] t[5] t[6] t[7]
    tag2 := packWord t[8] t[9] t[10] t[11]
    tag3 := packWord t[12] t[13] t[14] t[15] }

/-- `Nn` (R15). -/
def State.nonceLen (s : State) : Nat := s.ctrl.nonceLen.toNat

/-- `L = 15 - Nn` (R15, 41_nonce_formatter.md R130). -/
def State.lenSize (s : State) : Nat := 15 - s.nonceLen

/-- The nonce, bytes 0 to Nn - 1 (10_state.md R25, R15). -/
def State.nonce (s : State) : List Byte := (List.range s.nonceLen).map s.nonceByte

/-- AAD_ADDR (10_state.md R29). -/
def State.aadAddr (s : State) : Addr := hiLo s.data.aadAddrHi s.data.aadAddrLo

/-- IN_ADDR (10_state.md R31). -/
def State.inAddr (s : State) : Addr := hiLo s.data.inAddrHi s.data.inAddrLo

/-- OUT_ADDR (10_state.md R32). -/
def State.outAddr (s : State) : Addr := hiLo s.data.outAddrHi s.data.outAddrLo

/-- `alen = AAD_LEN` (10_state.md R30, R15). -/
def State.alen (s : State) : Nat := (hiLo s.data.aadLenHi s.data.aadLenLo).toNat

/-- `mlen = MSG_LEN` (10_state.md R33, R15). -/
def State.mlen (s : State) : Nat := (hiLo s.data.msgLenHi s.data.msgLenLo).toNat

/-! ## B0 and the counter blocks -/

/-- The B0 block; L is 15 - len(nonce) (30_encoding.md R85, 41_nonce_formatter.md R133). -/
def b0Block (nonce : List Byte) (adata : Bool) (mlen : Nat) : Block :=
  let L := 15 - nonce.length
  let flags := 64 * adata.toNat + 8 * ((16 - 2) / 2) + (L - 1)
  pad16 ([BitVec.ofNat 8 flags] ++ nonce ++ be mlen L)

/-- The counter block Ctr_i; L is 15 - len(nonce) (30_encoding.md R86, 41_nonce_formatter.md R134). -/
def ctrBlock (nonce : List Byte) (i : Nat) : Block :=
  let L := 15 - nonce.length
  pad16 ([BitVec.ofNat 8 (L - 1)] ++ nonce ++ be i L)

/-! ## The AAD stream -/

/-- `prefix(alen)` (30_encoding.md R87, 42_mac_aad.md R152). -/
def aadPrefix (alen : Nat) : List Byte :=
  if alen < 0xFF00 then be alen 2 else [0xFF, 0xFE] ++ be alen 4

/-- `p` (R15). -/
def prefixLen (alen : Nat) : Nat := if alen = 0 then 0 else if alen < 0xFF00 then 2 else 6

/-- `ablk` (R15, 42_mac_aad.md R153). -/
def aadBlocks (alen : Nat) : Nat := if alen = 0 then 0 else (prefixLen alen + alen + 15) / 16

/-- `s` of AadRead(j): the first stream position of block j that holds an AAD byte (42_mac_aad.md
R154). -/
def aadFirst (alen j : Nat) : Nat := max (16 * j) (prefixLen alen)

/-- `e` of AadRead(j): the stream position after block j (42_mac_aad.md R154). -/
def aadEnd (alen j : Nat) : Nat := min (16 * j + 16) (prefixLen alen + alen)

/-- The memory request of AadRead(j) (42_mac_aad.md R154). -/
def State.aadRequest (s : State) (j : Nat) : MemRequest where
  kind := .rd
  addr := s.aadAddr + BitVec.ofNat 64 (aadFirst s.alen j - prefixLen s.alen)
  n := aadEnd s.alen j - aadFirst s.alen j

/-! ## Payload geometry -/

/-- `nblk = ceil(mlen / 16)` (R15, 43_payload_encrypt.md R170). -/
def msgBlocks (mlen : Nat) : Nat := (mlen + 15) / 16

/-- `chunkLen(i)` (43_payload_encrypt.md R170). -/
def chunkLen (mlen i : Nat) : Nat := min 16 (mlen - 16 * (i - 1))

/-- `inAddr(i)` and `outAddr(i)`, from the base of the buffer (43_payload_encrypt.md R170). -/
def chunkAddr (base : Addr) (i : Nat) : Addr := base + BitVec.ofNat 64 (16 * (i - 1))

/-- The read of message chunk i (43_payload_encrypt.md R171, 45_decrypt.md R201, R206). -/
def State.readRequest (s : State) (i : Nat) : MemRequest where
  kind := .rd
  addr := chunkAddr s.inAddr i
  n := chunkLen s.mlen i

/-- The write of message chunk i (43_payload_encrypt.md R171, 45_decrypt.md R206). -/
def State.writeRequest (s : State) (i : Nat) : MemRequest where
  kind := .wr
  addr := chunkAddr s.outAddr i
  n := chunkLen s.mlen i

/-- Whether address `a` lies in the `len`-byte buffer at `base`, which may wrap (20_memory.md R62,
R67). -/
def inBuffer (base : Addr) (len : Nat) (a : Addr) : Bool := (a - base).toNat < len

end Sys2Proof.Machine
end

