-- ==== Sys2Proof/Machine/Flags.lean ====
section
/-! DEFINITION. The codes of RESULT, PHASE and st.op, the STATUS and CTRL words, BUSY and irq (spec
30_encoding.md R82, R83, 10_state.md R23, R26, R36 to R38, 60_exceptions.md R235). -/

namespace Sys2Proof.Machine

/-- The phase codes (30_encoding.md R83). -/
def Phase.code : Phase → BitVec 4
  | .idle => 0
  | .check => 1
  | .b0 => 2
  | .aad => 3
  | .enc => 4
  | .dec1 => 5
  | .final => 6
  | .verify => 7
  | .dec2 => 8
  | .wipe => 9

/-- The phase of a code; `none` for the reserved codes 10 to 15 (30_encoding.md R83). -/
def Phase.ofCode (c : BitVec 4) : Option Phase :=
  match c.toNat with
  | 0 => some .idle
  | 1 => some .check
  | 2 => some .b0
  | 3 => some .aad
  | 4 => some .enc
  | 5 => some .dec1
  | 6 => some .final
  | 7 => some .verify
  | 8 => some .dec2
  | 9 => some .wipe
  | _ => none

/-- The result codes (30_encoding.md R82). -/
def Result.code : Result → BitVec 4
  | .ok => 0
  | .invalidNonceLength => 1
  | .messageTooLarge => 2
  | .aadTooLarge => 3
  | .authenticationFailure => 4
  | .busError => 5
  | .illegalCommand => 6

/-- The codes of st.op (10_state.md R37). -/
def Op.code : Op → BitVec 2
  | .none => 0
  | .enc => 1
  | .dec => 2

/-- STATUS.BUSY: 1 exactly when st.phase is not IDLE (10_state.md R38). -/
def State.busy (s : State) : Bool := s.st.phase != .idle

/-- The value of STATUS (10_state.md R26, 40_commands.md R100): PHASE in [11:8], RESULT in [7:4], bit
3 reserved, DROPPED, DONE, BUSY; the bits above are reserved. -/
def State.statusWord (s : State) : Word :=
  s.st.phase.code.setWidth 32 <<< 8 ||| s.status.result.code.setWidth 32 <<< 4
    ||| (BitVec.ofBool s.status.dropped).setWidth 32 <<< 2
    ||| (BitVec.ofBool s.status.done).setWidth 32 <<< 1 ||| (BitVec.ofBool s.busy).setWidth 32

/-- The value of CTRL (10_state.md R23, 40_commands.md R100): IE in bit 8, NONCE_LEN in [3:0]. -/
def State.ctrlWord (s : State) : Word :=
  (BitVec.ofBool s.ctrl.ie).setWidth 32 <<< 8 ||| s.ctrl.nonceLen.setWidth 32

/-- CTRL as a write of v leaves it: NONCE_LEN <- v[3:0], IE <- v[8], other bits ignored (40_commands.md
R101). -/
def ctrlOfWord (v : Word) : Ctrl := ⟨v.extractLsb' 0 4, v.getLsbD 8⟩

/-- STATUS as a host write of v leaves it: bit 1 clears DONE, bit 2 clears DROPPED (40_commands.md
R103). -/
def Status.clearBits (t : Status) (v : Word) : Status :=
  { t with done := t.done && !v.getLsbD 1, dropped := t.dropped && !v.getLsbD 2 }

/-- The interrupt output, `DONE AND IE` (60_exceptions.md R235). -/
def State.irq (s : State) : Bool := s.status.done && s.ctrl.ie

end Sys2Proof.Machine
end

