-- ==== Sys2Proof/Machine/Ops.lean ====
section
/-! DEFINITION. The named operations over memory, the register window and the engine state: memory
bytes, MemRead and MemWrite, register reads and writes, Absorb, raise, completion and its
acknowledge, command start and reset. -/

namespace Sys2Proof.Machine

/-! ## Memory (spec 20_memory.md R60 to R67) -/

/-- What an address that is not listed reads as. DESIGN CHOICE (log 3): 0. -/
def Memory.blank : Byte := 0

/-- The byte at an address. -/
def Memory.read : Memory → Nat → Byte
  | [], _ => Memory.blank
  | (k, b) :: m, a => if a = k then b else if a < k then Memory.blank else Memory.read m a

/-- Memory with the byte at an address written; writing what an unlisted address reads as removes the
entry. -/
def Memory.write : Memory → Nat → Byte → Memory
  | [], a, v => if v = Memory.blank then [] else [(a, v)]
  | (k, b) :: m, a, v =>
    if a < k then (if v = Memory.blank then (k, b) :: m else (a, v) :: (k, b) :: m)
    else if a = k then
      (if v = Memory.blank then m.dropWhile (fun c => c.1 ≤ a) else (a, v) :: m)
    else (k, b) :: Memory.write m a v

/-- The canonical form: addresses of the 2^64-byte space, strictly rising, and no byte equal to what an
unlisted address reads as. -/
def Memory.wf (m : Memory) : Bool :=
  decide (m.Pairwise fun c d => c.1 < d.1) && m.all fun c => c.1 < 2 ^ 64 && c.2 != Memory.blank

/-- The byte at a 64-bit address. -/
def Memory.byte (m : Memory) (a : Addr) : Byte := Memory.read m a.toNat

/-- `n` bytes from `a` on, addresses modulo 2^64 (R62, R65, R67). -/
def Memory.readBytes (m : Memory) (a : Addr) (n : Nat) : List Byte :=
  (List.range n).map fun k => Memory.byte m (a + BitVec.ofNat 64 k)

/-- Writes, in ascending order and modulo 2^64, those bytes of the string whose index `lands` picks;
`k` is the index of the first (R65, R69). -/
def Memory.writeWhere (lands : Nat → Bool) (m : Memory) (a : Addr) (k : Nat) : List Byte → Memory
  | [] => m
  | b :: bs =>
    Memory.writeWhere lands (if lands k then Memory.write m a.toNat b else m) (a + 1) (k + 1) bs

/-- Writes a whole byte string from `a` on (R62, R65, R67). -/
def Memory.writeBytes (m : Memory) (a : Addr) (bs : List Byte) : Memory :=
  Memory.writeWhere (fun _ => true) m a 0 bs

/-! ## The memory port (R65, R69) -/

/-- BUS_OK: whether the platform answers a request with ok (R69). -/
def State.busOk (s : State) (r : MemRequest) : Bool := !s.busErr.contains r

/-- Puts a request on the memory port. -/
def State.logRequest (r : MemRequest) (s : State) : State := { s with requests := r :: s.requests }

/-- MemRead: issues the request and gives the bytes, or `none` on an error response (R69, 00_scope.md
R14). -/
def memRead (r : MemRequest) (s : State) : Option (List Byte) × State :=
  (if s.busOk r then some (Memory.readBytes s.mem r.addr r.n) else none, s.logRequest r)

/-- MemWrite: issues the request and writes `w`; the Bool says whether the response was ok. On an error
response any subset of the bytes has landed, drawn from the free value `free` (R69). -/
def memWrite (free : Nat → BitVec 16) (r : MemRequest) (w : List Byte) (s : State) : Bool × State :=
  if s.busOk r then
    (true, { s.logRequest r with mem := Memory.writeBytes s.mem r.addr w })
  else
    (false, { s.logRequest r with
      mem := Memory.writeWhere (fun k => (free s.draws).getLsbD k) s.mem r.addr 0 w
      draws := s.draws + 1 })

/-! ## Data registers (10_state.md R22) -/

/-- `reg[NAME]` of a data register. -/
def DataRegs.get (d : DataRegs) : DataReg → Word
  | .nonce0 => d.nonce0
  | .nonce1 => d.nonce1
  | .nonce2 => d.nonce2
  | .nonce3 => d.nonce3
  | .tag0 => d.tag0
  | .tag1 => d.tag1
  | .tag2 => d.tag2
  | .tag3 => d.tag3
  | .aadAddrLo => d.aadAddrLo
  | .aadAddrHi => d.aadAddrHi
  | .aadLenLo => d.aadLenLo
  | .aadLenHi => d.aadLenHi
  | .inAddrLo => d.inAddrLo
  | .inAddrHi => d.inAddrHi
  | .outAddrLo => d.outAddrLo
  | .outAddrHi => d.outAddrHi
  | .msgLenLo => d.msgLenLo
  | .msgLenHi => d.msgLenHi

/-- `reg[NAME] <- v` of a data register. -/
def DataRegs.set (d : DataRegs) (r : DataReg) (v : Word) : DataRegs :=
  match r with
  | .nonce0 => { d with nonce0 := v }
  | .nonce1 => { d with nonce1 := v }
  | .nonce2 => { d with nonce2 := v }
  | .nonce3 => { d with nonce3 := v }
  | .tag0 => { d with tag0 := v }
  | .tag1 => { d with tag1 := v }
  | .tag2 => { d with tag2 := v }
  | .tag3 => { d with tag3 := v }
  | .aadAddrLo => { d with aadAddrLo := v }
  | .aadAddrHi => { d with aadAddrHi := v }
  | .aadLenLo => { d with aadLenLo := v }
  | .aadLenHi => { d with aadLenHi := v }
  | .inAddrLo => { d with inAddrLo := v }
  | .inAddrHi => { d with inAddrHi := v }
  | .outAddrLo => { d with outAddrLo := v }
  | .outAddrHi => { d with outAddrHi := v }
  | .msgLenLo => { d with msgLenLo := v }
  | .msgLenHi => { d with msgLenHi := v }

/-! ## Errors, completion and acknowledge (60_exceptions.md R231, R233, R236) -/

/-- `raise Result(code)`: records the pending result and moves to WIPE (R231). -/
def raise (code : Result) (s : State) : State :=
  { s with st := { s.st with pend := code, phase := .wipe } }

/-- Completion, the analogue of trap entry: zeroes the scratch state and publishes RESULT and DONE
(R233). -/
def complete (s : State) : State :=
  { s with
    st := Engine.idle
    status := { s.status with result := s.st.pend, done := true } }

/-- StatusWrite, the analogue of trap return: DONE and DROPPED are cleared by writing 1
(40_commands.md R103, R236). -/
def statusWrite (v : Word) (s : State) : State := { s with status := s.status.clearBits v }

/-! ## Commands (40_commands.md R104 to R108) -/

/-- StartEncrypt and StartDecrypt (R106, R107). The record of the ports starts anew (log 14), and the bytes
memory holds now stay the old values of a racing load (20_memory.md R72; log 10). -/
def startCommand (op : Op) (s : State) : State :=
  { s with
    status := { s.status with done := false, result := .ok }
    st := { s.st with op := op, pend := .ok, ctr := 1, aj := 0, phase := .check }
    views := s.mem :: s.views
    requests := []
    calls := []
    steps := 0 }

/-- IllegalCommand (R108). -/
def illegalCommand (s : State) : State :=
  { s with status := { s.status with result := .illegalCommand, done := true } }

/-- CmdWrite(v) (R104). -/
def cmdWrite (v : Word) (s : State) : State :=
  if v = 0x00000000 then s
  else if v = 0x00000001 then startCommand .enc s
  else if v = 0x00000002 then startCommand .dec s
  else illegalCommand s

/-! ## Register access (40_commands.md R100 to R103) -/

/-- DroppedWrite() (R102). -/
def droppedWrite (s : State) : State := { s with status := { s.status with dropped := true } }

/-- HostRead(off): the returned word (R100). -/
def hostRead (off : BitVec 8) (s : State) : Word :=
  match Reg.ofOffset off with
  | some .ctrl => s.ctrlWord
  | some .cmd => 0x00000000
  | some .status => s.statusWord
  | some (.data r) => s.data.get r
  | none => 0x00000000

/-- DONE = 1 "for that command" (20_memory.md R71): DONE = 1, and not as an illegal command left it, which
writes no memory (R108). -/
def State.commandDone (s : State) : Bool := s.status.done && s.status.result != .illegalCommand

/-- The acquire: the host sees the engine's writes, and no older value (20_memory.md R71; log 10). -/
def State.acquire (s : State) : State := { s with views := [] }

/-- A read of STATUS that returns DONE = 1 for a command is an acquire (20_memory.md R71). Host side only:
the read has no side effect on CCM-CORE. -/
def acquireOnRead (off : BitVec 8) (s : State) : State :=
  if off = 0x08 ∧ s.commandDone = true then s.acquire else s

/-- HostWrite(off, v) (R101): the write of any offset in any state, with the drop of R102. -/
def hostWrite (off : BitVec 8) (v : Word) (s : State) : State :=
  if s.busy = true ∧ off ≠ 0x08 then droppedWrite s
  else match Reg.ofOffset off with
    | some .ctrl => { s with ctrl := ctrlOfWord v }
    | some .cmd => cmdWrite v s
    | some .status => statusWrite v s
    | some (.data r) => { s with data := s.data.set r v }
    | none => s

/-! ## Engine actions -/

/-- `phase <- P` (00_scope.md R14). -/
def State.toPhase (p : Phase) (s : State) : State := { s with st := { s.st with phase := p } }

/-- Absorb(x), one cipher call (42_mac_aad.md R151). -/
def absorb (E : Block → Block) (x : Block) (s : State) : State :=
  { s with
    st := { s.st with blk := x, mac := E (xorBlock s.st.mac x) }
    calls := xorBlock s.st.mac x :: s.calls }

/-- `st.ks <- E(Ctr(i))`, one cipher call (43_payload_encrypt.md R171). -/
def keystream (E : Block → Block) (i : Nat) (s : State) : State :=
  { s with
    st := { s.st with ks := E (ctrBlock s.nonce i) }
    calls := ctrBlock s.nonce i :: s.calls }

/-- PayloadEntry (40_commands.md R110). -/
def payloadEntry (s : State) : State :=
  if msgBlocks s.mlen = 0 then s.toPhase .final
  else if s.st.op = .enc then s.toPhase .enc
  else s.toPhase .dec1

/-- `st.ctr <- i + 1`, then the phase change once st.ctr = nblk + 1 (43_payload_encrypt.md R171,
45_decrypt.md R201, R206). -/
def nextChunk (i : BitVec 64) (last : State → State) (s : State) : State :=
  let t := { s with st := { s.st with ctr := i + 1 } }
  if t.st.ctr.toNat = msgBlocks s.mlen + 1 then last t else t

/-! ## Reset (70_reset_and_hazards.md R260) -/

/-- Reset: every register and all engine state to 0; memory, the cipher and its key are not changed. -/
def resetStep (s : State) : State :=
  { s with
    ctrl := ⟨0, false⟩
    status := ⟨false, false, .ok⟩
    data := DataRegs.zero
    st := Engine.idle }

end Sys2Proof.Machine
end

