-- ==== Sys2Proof/Machine/Access.lean ====
section
/-! DEFINITION. The host accesses RD, WR, WR_BUSY and WR_STATUS (spec 40_commands.md R100 to R103).
A write is one HostWrite whatever row names it: BUSY, not the row, decides whether it is dropped
(log 16). -/

namespace Sys2Proof.Machine

/-- RD (R100): the word goes to the host; CCM-CORE is unchanged. -/
def execRd (off : BitVec 8) (s : State) : Host.Outcome State Fault Refusal :=
  if aligned off then .next { acquireOnRead off s with rdata := hostRead off s }
  else .refused .misalignedAccess

/-- WR (R101). -/
def execWr (off : BitVec 8) (v : Word) (s : State) : Host.Outcome State Fault Refusal :=
  if aligned off then .next (hostWrite off v s) else .refused .misalignedAccess

/-- WR_BUSY (R102): the branch of HostWrite taken while BUSY = 1 at an offset other than STATUS. -/
def execWrBusy (off : BitVec 8) (v : Word) (s : State) : Host.Outcome State Fault Refusal :=
  if aligned off then .next (hostWrite off v s) else .refused .misalignedAccess

/-- WR_STATUS (R103). -/
def execWrStatus (v : Word) (s : State) : Host.Outcome State Fault Refusal :=
  .next (statusWrite v s)

end Sys2Proof.Machine
end

