-- ==== Sys2Proof/Machine/Command.lean ====
section
/-! DEFINITION. The commands NOP, ENCRYPT, DECRYPT and ILLEGAL (spec 40_commands.md R104 to R108). Each
is the host write of its code to CMD, so while BUSY = 1 it is dropped like any other (R102). -/

namespace Sys2Proof.Machine

/-- NOP: `wr CMD, 0x00000000` (R105). -/
def execNop (s : State) : Host.Outcome State Fault Refusal := .next (hostWrite 0x04 0x00000000 s)

/-- ENCRYPT: `wr CMD, 0x00000001` (R106). -/
def execEncrypt (s : State) : Host.Outcome State Fault Refusal := .next (hostWrite 0x04 0x00000001 s)

/-- DECRYPT: `wr CMD, 0x00000002` (R107). -/
def execDecrypt (s : State) : Host.Outcome State Fault Refusal := .next (hostWrite 0x04 0x00000002 s)

/-- Illegal command: `wr CMD, v` with v not in {0, 1, 2} (R108). -/
def execIllegal (code : Word) (s : State) : Host.Outcome State Fault Refusal :=
  .next (hostWrite 0x04 code s)

end Sys2Proof.Machine
end

