-- ==== Sys2Proof/Machine/Complete.lean ====
section
/-! DEFINITION. The WIPE step (spec 60_exceptions.md R233). -/

namespace Sys2Proof.Machine

/-- WIPE, phase 9. -/
def execWipe (s : State) : Host.Outcome State Fault Refusal := .next (complete s)

end Sys2Proof.Machine
end

