-- ==== Sys2Proof/Machine/Decrypt.lean ====
section
/-! DEFINITION. The DEC1, VERIFY and DEC2 steps (spec 45_decrypt.md R201 to R206). -/

namespace Sys2Proof.Machine

/-- StepDec1 (R201, R202): the recovered plaintext is padded with zeros and absorbed; nothing is
written. -/
def stepDec1 (E : Block → Block) (s : State) : State :=
  let i := s.st.ctr.toNat
  match memRead (s.readRequest i) s with
  | (none, t) => raise .busError t
  | (some r, t) =>
    let u := keystream E i t
    let v := absorb E (pad16 (xorBytes r u.st.ks)) u
    nextChunk s.st.ctr (State.toPhase .final) v

/-- DEC1, phase 5. -/
def execDec1 (s : State) : Host.Outcome State Fault Refusal :=
  .next (stepDec1 (Config.cipher s.key) s)

/-- `d` of StepVerify: the differences of all 16 byte pairs, OR-ed together (R203). -/
def tagDifference (cand : Block) (tag : Nat → Byte) : Byte :=
  (List.finRange 16).foldl (fun d k => d ||| (cand[k] ^^^ tag k.val)) 0

/-- Accept (R204). -/
def accept (s : State) : State :=
  let t := { s with st := { s.st with ctr := 1 } }
  if msgBlocks s.mlen = 0 then { t with st := { t.st with pend := .ok, phase := .wipe } }
  else t.toPhase .dec2

/-- StepVerify (R203), with Accept (R204) and Reject (R205). -/
def stepVerify (s : State) : State :=
  if tagDifference s.st.cand s.tagByte = 0 then accept s else raise .authenticationFailure s

/-- VERIFY, phase 7. -/
def execVerify (s : State) : Host.Outcome State Fault Refusal := .next (stepVerify s)

/-- StepDec2 (R206). -/
def stepDec2 (E : Block → Block) (free : Nat → BitVec 16) (s : State) : State :=
  let i := s.st.ctr.toNat
  match memRead (s.readRequest i) s with
  | (none, t) => raise .busError t
  | (some r, t) =>
    let u := keystream E i t
    match memWrite free (s.writeRequest i) (xorBytes r u.st.ks) u with
    | (false, v) => raise .busError v
    | (true, v) => nextChunk s.st.ctr (raise .ok) v

/-- DEC2, phase 8. -/
def execDec2 (s : State) : Host.Outcome State Fault Refusal :=
  .next (stepDec2 (Config.cipher s.key) Config.freeSubset s)

end Sys2Proof.Machine
end

