-- ==== Sys2Proof/Machine/Finalizer.lean ====
section
/-! DEFINITION. The FINAL step (spec 44_tag_finalizer.md R190). -/

namespace Sys2Proof.Machine

/-- StepFinal (R190). -/
def stepFinal (E : Block → Block) (s : State) : State :=
  let c := ctrBlock s.nonce 0
  let t := { s with
    st := { s.st with s0 := E c, cand := xorBlock (E c) s.st.mac }
    calls := c :: s.calls }
  if s.st.op = .enc then
    { t with
      data := t.data.withTag t.st.cand
      st := { t.st with pend := .ok, phase := .wipe } }
  else t.toPhase .verify

/-- FINAL, phase 6. -/
def execFinal (s : State) : Host.Outcome State Fault Refusal :=
  .next (stepFinal (Config.cipher s.key) s)

end Sys2Proof.Machine
end

