-- ==== Sys2Proof/Machine/Formatter.lean ====
section
/-! DEFINITION. The CHECK and B0 steps (spec 41_nonce_formatter.md R131, R135). -/

namespace Sys2Proof.Machine

/-- StepCheck (R131), its tests in the order of 60_exceptions.md R232. -/
def stepCheck (s : State) : State :=
  if s.nonceLen < 7 ∨ 13 < s.nonceLen then raise .invalidNonceLength s
  else if 2 ^ (8 * s.lenSize) ≤ s.mlen then raise .messageTooLarge s
  else if 2 ^ 32 ≤ s.alen then raise .aadTooLarge s
  else s.toPhase .b0

/-- CHECK, phase 1. -/
def execCheck (s : State) : Host.Outcome State Fault Refusal := .next (stepCheck s)

/-- StepB0 (R135). -/
def stepB0 (E : Block → Block) (s : State) : State :=
  let b := b0Block s.nonce (0 < s.alen) s.mlen
  let t := { s with st := { s.st with mac := E b }, calls := b :: s.calls }
  if 0 < s.alen then { t with st := { t.st with aj := 0, phase := .aad } }
  else payloadEntry t

/-- B0, phase 2. -/
def execB0 (s : State) : Host.Outcome State Fault Refusal :=
  .next (stepB0 (Config.cipher s.key) s)

end Sys2Proof.Machine
end

