-- ==== Sys2Proof/Machine/MacAad.lean ====
section
/-! DEFINITION. The AAD step (spec 42_mac_aad.md R154, R155). -/

namespace Sys2Proof.Machine

/-- The block that AAD step j absorbs, from the AAD bytes `r` it has read (R155). -/
def aadInput (alen j : Nat) (r : List Byte) : Block :=
  if j = 0 then pad16 (aadPrefix alen ++ r) else pad16 r

/-- StepAad (R155). -/
def stepAad (E : Block → Block) (s : State) : State :=
  let j := s.st.aj.toNat
  match memRead (s.aadRequest j) s with
  | (none, t) => raise .busError t
  | (some r, t) =>
    let u := absorb E (aadInput s.alen j r) t
    let v := { u with st := { u.st with aj := s.st.aj + 1 } }
    if v.st.aj.toNat = aadBlocks s.alen then payloadEntry v else v

/-- AAD, phase 3. -/
def execAad (s : State) : Host.Outcome State Fault Refusal :=
  .next (stepAad (Config.cipher s.key) s)

end Sys2Proof.Machine
end

