-- ==== Sys2Proof/Machine/Payload.lean ====
section
/-! DEFINITION. The ENC step (spec 43_payload_encrypt.md R171). -/

namespace Sys2Proof.Machine

/-- StepEnc (R171): the MAC is over the plaintext, before masking. -/
def stepEnc (E : Block → Block) (free : Nat → BitVec 16) (s : State) : State :=
  let i := s.st.ctr.toNat
  match memRead (s.readRequest i) s with
  | (none, t) => raise .busError t
  | (some r, t) =>
    let u := keystream E i (absorb E (pad16 r) t)
    match memWrite free (s.writeRequest i) (xorBytes r u.st.ks) u with
    | (false, v) => raise .busError v
    | (true, v) => nextChunk s.st.ctr (State.toPhase .final) v

/-- ENC, phase 4. -/
def execEnc (s : State) : Host.Outcome State Fault Refusal :=
  .next (stepEnc (Config.cipher s.key) Config.freeSubset s)

end Sys2Proof.Machine
end

