-- ==== Sys2Proof/Machine/Dispatch.lean ====
section
/-! DEFINITION. What each instruction does: one call per row of spec/opcode_table.json. -/

namespace Sys2Proof.Machine

def exec (i : Instr) (s : State) : Host.Outcome State Fault Refusal :=
  match i with
  -- host accesses
  | .rd off => Sys2Proof.Machine.execRd off s
  | .wr off v => Sys2Proof.Machine.execWr off v s
  | .wrBusy off v => Sys2Proof.Machine.execWrBusy off v s
  | .wrStatus v => Sys2Proof.Machine.execWrStatus v s
  -- commands
  | .nop => Sys2Proof.Machine.execNop s
  | .encrypt => Sys2Proof.Machine.execEncrypt s
  | .decrypt => Sys2Proof.Machine.execDecrypt s
  | .illegal code => Sys2Proof.Machine.execIllegal code s
  -- phases
  | .check => Sys2Proof.Machine.execCheck s
  | .b0 => Sys2Proof.Machine.execB0 s
  | .aad => Sys2Proof.Machine.execAad s
  | .enc => Sys2Proof.Machine.execEnc s
  | .dec1 => Sys2Proof.Machine.execDec1 s
  | .final => Sys2Proof.Machine.execFinal s
  | .verify => Sys2Proof.Machine.execVerify s
  | .dec2 => Sys2Proof.Machine.execDec2 s
  | .wipe => Sys2Proof.Machine.execWipe s

end Sys2Proof.Machine
end

