-- ==== Sys2Proof/Machine/Sequencer.lean ====
section
/-! DEFINITION. One move of each agent: the engine's enabled step, a host access or poll, reset, and the
loads, stores, irq samples and key loads of the platform side (spec 40_commands.md R109,
20_memory.md R70 to R72, 70_reset_and_hazards.md R260 to R266). -/

namespace Sys2Proof.Machine

/-- The engine takes its enabled step, the one of the current phase; in IDLE it takes none (R109,
30_encoding.md R83). -/
def engineTurn (s : State) : Host.Outcome State Fault Refusal :=
  match decode s.busy (.phase s.st.phase.code) with
  | .instr i => exec i { s with steps := s.steps + 1 }
  | .reject _ => .next s

/-- The host makes one access; one outside the interface is refused (30_encoding.md R80). -/
def accessTurn (a : HostAccess) (s : State) : Host.Outcome State Fault Refusal :=
  match decode s.busy (.access a) with
  | .instr i => exec i s
  | .reject .subWord => .refused .subWordAccess
  | .reject .misaligned => .refused .misalignedAccess
  | .reject .idlePhase => .next s
  | .reject .reservedPhase => .next s

/-- One read of a poll: when the field does not yet equal v, the poll comes again after one turn of the
engine (30_encoding.md R90; log 18). -/
def pollTurn (r : Reg) (hi lo : Nat) (v : Word) (s : State) : Host.Outcome State Fault Refusal :=
  match accessTurn (HostLine.poll r hi lo v).encode s with
  | .next t =>
    if fieldOf hi lo t.rdata = v then .next t
    else .next { t with inputs := .engine :: .poll r hi lo v :: t.inputs }
  | .fault e => .fault e
  | .refused e => .refused e

/-- The write request that a reset can cut: only ENC and DEC2 make one (70_reset_and_hazards.md R261). -/
def cutRequest (s : State) : MemRequest := s.writeRequest s.st.ctr.toNat

/-- rst falls while the engine's current step is under way: a write the step issues has landed in any
subset of its bytes, "as for a failed write", and everything else the step did is zeroed (R261;
log 12). -/
def resetCutTurn (s : State) : Host.Outcome State Fault Refusal :=
  match engineTurn { s with busErr := cutRequest s :: s.busErr } with
  | .next t => .next { resetStep t with busErr := s.busErr, steps := s.steps }
  | .fault e => .fault e
  | .refused e => .refused e

/-- Whether a load of the byte at `a` can return one value only. -/
def State.settled (s : State) (a : Addr) : Bool :=
  s.views.all fun v => Memory.byte v a == Memory.byte s.mem a

/-- Whether a write request of the running command has covered the byte at `a`. -/
def State.engineWrote (s : State) (a : Addr) : Bool :=
  s.requests.any fun r => decide (r.kind = .wr) && inBuffer r.addr r.n a

/-- A move put off until after the next move, or after the engine's next step when none is listed. -/
def putOff (x : Input) (l : List Input) : List Input :=
  match l with
  | [] => [.engine, x]
  | y :: rest => y :: x :: rest

/-- A store to a byte the engine does not touch now: memory holds it, and a load sees it. An engine write of
that byte which no host has acquired stays a racing value of a load (20_memory.md R74; log 10). -/
def plainStore (a : Addr) (b : Byte) (s : State) : State :=
  { s with
    mem := Memory.write s.mem a.toNat b
    views := (if s.settled a then [] else [s.mem]) ++
      s.views.map fun v => Memory.write v a.toNat b }

/-- A store to an output byte while BUSY = 1, a race with the engine's write of it (20_memory.md R74). A free
choice says whether it lands now. If not, the engine's write is the later one where it has been made;
where it is still to come, the store is put off past the next move, so that it may land after it. Loads
may see every racing value (log 23). -/
def raceStore (a : Addr) (b : Byte) (s : State) : State :=
  let lands := Config.freeBit s.draws
  let m := Memory.write s.mem a.toNat b
  { s with
    mem := if lands then m else s.mem
    views := (if lands then s.mem else m) :: s.views
    inputs := if lands || s.engineWrote a then s.inputs else putOff (.store a b) s.inputs
    draws := s.draws + 1 }

/-- A store of a byte by the host or another agent. While BUSY = 1 there is no such move to an AAD or input
byte (70_reset_and_hazards.md R265, D40; log 11), and one to an output byte is a race (R266, 20_memory.md
R74). -/
def storeTurn (a : Addr) (b : Byte) (s : State) : Host.Outcome State Fault Refusal :=
  if s.busy = true ∧ (inBuffer s.aadAddr s.alen a = true ∨ inBuffer s.inAddr s.mlen a = true) then
    .fault .inputRace
  else if s.busy = true ∧ inBuffer s.outAddr s.mlen a = true then .next (raceStore a b s)
  else .next (plainStore a b s)

/-- A load of a byte by the host: memory's byte, or a free choice among the racing values where there are
others (20_memory.md R71, R72, R74; log 10). -/
def loadTurn (a : Addr) (s : State) : Host.Outcome State Fault Refusal :=
  if s.settled a then .next { s with hostByte := Memory.byte s.mem a }
  else .next { s with
    hostByte := Memory.byte
      ((s.mem :: s.views).getD (Config.freePick s.draws % (s.views.length + 1)) s.mem) a
    draws := s.draws + 1 }

/-- The host samples irq; irq = 1 for a command is an acquire (20_memory.md R71). -/
def sampleTurn (s : State) : Host.Outcome State Fault Refusal :=
  .next (if s.irq = true ∧ s.commandDone = true then s.acquire else s)

/-- The platform keys the external cipher; not while BUSY = 1 (70_reset_and_hazards.md R264; log 11). -/
def rekeyTurn (k : Nat) (s : State) : Host.Outcome State Fault Refusal :=
  if s.busy then .fault .keyChange else .next { s with key := k }

/-- The platform's responses change (20_memory.md R69; log 2). -/
def answerTurn (errs : List MemRequest) (s : State) : Host.Outcome State Fault Refusal :=
  .next { s with busErr := errs }

/-- One move from the list. -/
def inputTurn (x : Input) (s : State) : Host.Outcome State Fault Refusal :=
  match x with
  | .engine => engineTurn s
  | .access a => accessTurn a s
  | .poll r hi lo v => pollTurn r hi lo v s
  | .reset => .next (resetStep s)
  | .resetCut => resetCutTurn s
  | .store a b => storeTurn a b s
  | .load a => loadTurn a s
  | .sampleIrq => sampleTurn s
  | .rekey k => rekeyTurn k s
  | .answer errs => answerTurn errs s

/-- The moves a host line makes (30_encoding.md R90). -/
def lineInputs : HostLine → List Input
  | .wr r v => [.access (HostLine.wr r v).encode]
  | .rd r => [.access (HostLine.rd r).encode]
  | .poll r hi lo v => [.poll r hi lo v]

/-- The moves of a pseudo-instruction (R91). -/
def pseudoInputs (p : Pseudo) : List Input := p.expand.flatMap lineInputs

/-- The operation a phase belongs to, given the one recorded (10_state.md R38; log 8). -/
def opFor (p : Phase) (op : Op) : Op :=
  match p with
  | .idle => .none
  | .enc => .enc
  | .dec1 => .dec
  | .verify => .dec
  | .dec2 => .dec
  | .check => if op = .none then .enc else op
  | .b0 => if op = .none then .enc else op
  | .aad => if op = .none then .enc else op
  | .final => if op = .none then .enc else op
  | .wipe => if op = .none then .enc else op

/-- The state with the sequencer at phase p. -/
def State.placeAt (p : Phase) (s : State) : State :=
  { s with st := { s.st with phase := p, op := opFor p s.st.op } }

/-- The state in which the very next step runs instruction i: its phase is current and the engine moves
next, or its access comes next at the BUSY its row needs (log 8). -/
def State.place (i : Instr) (s : State) : State :=
  match encode i with
  | .phase c =>
    match Phase.ofCode c with
    | some p => { s.placeAt p with inputs := .engine :: s.inputs }
    | none => s
  | .access a =>
    let t := if i.admitsBusy s.busy then s
      else if s.busy then s.placeAt .idle else s.placeAt .check
    { t with inputs := .access a :: s.inputs }

end Sys2Proof.Machine
end

