-- ==== Sys2Proof/Machine/Reference.lean ====
section
/-! DEFINITION. The whole-command results CCM_Enc and CCM_Dec as pure functions, the yardstick for the
sequencer (spec 40_commands.md R111, R112). The machine does not call them. -/

namespace Sys2Proof.Machine

/-- `s[16j .. min(16j+16, len(s)))`. -/
def piece (s : List Byte) (j : Nat) : List Byte := (s.drop (16 * j)).take 16

/-- One chaining step of the CBC-MAC: `mac <- E(mac XOR pad16(x))`. -/
def macStep (E : Block → Block) (mac : Block) (x : List Byte) : Block := E (xorBlock mac (pad16 x))

/-- The MAC over B0 and the AAD, "up to the end of the AAD loop" (R111, R112). -/
def ccmAadMac (E : Block → Block) (nonce A : List Byte) (mlen : Nat) : Block :=
  let m0 := E (b0Block nonce (0 < A.length) mlen)
  if 0 < A.length then
    (List.range (aadBlocks A.length)).foldl
      (fun mac j => macStep E mac (piece (aadPrefix A.length ++ A) j)) m0
  else m0

/-- `CCM_Enc(nonce, A, P)`: the ciphertext and the tag (R111). -/
def ccmEnc (E : Block → Block) (nonce A P : List Byte) : List Byte × Block :=
  let mac := (List.range (msgBlocks P.length)).foldl (fun mac j => macStep E mac (piece P j))
    (ccmAadMac E nonce A P.length)
  ((List.range (msgBlocks P.length)).flatMap fun j =>
      xorBytes (piece P j) (E (ctrBlock nonce (j + 1))),
    xorBlock (E (ctrBlock nonce 0)) mac)

/-- The plaintext and the computed tag of `CCM_Dec` (R112). -/
def ccmOpen (E : Block → Block) (nonce A C : List Byte) : List Byte × Block :=
  let mac := (List.range (msgBlocks C.length)).foldl
    (fun mac j => macStep E mac (xorBytes (piece C j) (E (ctrBlock nonce (j + 1)))))
    (ccmAadMac E nonce A C.length)
  ((List.range (msgBlocks C.length)).flatMap fun j =>
      xorBytes (piece C j) (E (ctrBlock nonce (j + 1))),
    xorBlock (E (ctrBlock nonce 0)) mac)

/-- `CCM_Dec(nonce, A, C, T0)`: the plaintext if the tags are equal, else nothing (R112). -/
def ccmDec (E : Block → Block) (nonce A C : List Byte) (T0 : Block) : Option (List Byte) :=
  if (ccmOpen E nonce A C).2 = T0 then some (ccmOpen E nonce A C).1 else none

end Sys2Proof.Machine
end

