-- ==== Sys2Proof/Safety.lean ====
section
/-! DEFINITION. What a state of CCM-CORE that the rules can reach looks like, and what a safe run keeps:
the contract, the sequencer's invariant, the canonical memory and the release rule. -/

namespace Sys2Proof.Machine

/-- The contract that CHECK tests (spec 41_nonce_formatter.md R131). -/
def State.ContractOk (s : State) : Prop :=
  7 ≤ s.nonceLen ∧ s.nonceLen ≤ 13 ∧ s.mlen < 2 ^ (8 * s.lenSize) ∧ s.alen < 2 ^ 32

/-- The phases after CHECK and before WIPE. -/
def Phase.working : Phase → Bool
  | .idle => false
  | .check => false
  | .b0 => true
  | .aad => true
  | .enc => true
  | .dec1 => true
  | .final => true
  | .verify => true
  | .dec2 => true
  | .wipe => false

/-- The phases that process a message chunk. -/
def Phase.chunked : Phase → Bool
  | .idle => false
  | .check => false
  | .b0 => false
  | .aad => false
  | .enc => true
  | .dec1 => true
  | .final => false
  | .verify => false
  | .dec2 => true
  | .wipe => false

/-- The phases of a DECRYPT up to the verdict (45_decrypt.md R207). -/
def Phase.beforeRelease : Phase → Bool
  | .idle => false
  | .check => true
  | .b0 => true
  | .aad => true
  | .enc => false
  | .dec1 => true
  | .final => true
  | .verify => true
  | .dec2 => false
  | .wipe => false

/-- The sequencer's invariant. -/
structure State.SeqInv (s : State) : Prop where
  /-- st.op = NONE exactly when st.phase = IDLE (10_state.md R38). -/
  op_none : s.st.op = .none ↔ s.st.phase = .idle
  /-- The "value when idle" column (10_state.md R37; 60_exceptions.md R234). -/
  wiped : s.st.phase = .idle → s.st = Engine.idle
  /-- A command start clears DONE and RESULT, and only completion sets them (40_commands.md R106). -/
  no_result : s.st.phase ≠ .idle → s.status.done = false ∧ s.status.result = .ok
  /-- ENC is a phase of ENCRYPT; DEC1, VERIFY and DEC2 are phases of DECRYPT (40_commands.md R110). -/
  enc_op : s.st.phase = .enc → s.st.op = .enc
  dec_op : s.st.phase = .dec1 ∨ s.st.phase = .verify ∨ s.st.phase = .dec2 → s.st.op = .dec
  /-- Past CHECK the contract holds (41_nonce_formatter.md R131). -/
  contract : s.st.phase.working = true → s.ContractOk
  /-- The AAD step is entered only with AAD blocks left (42_mac_aad.md R155). -/
  aad_index : s.st.phase = .aad → 0 < s.alen ∧ s.st.aj.toNat < aadBlocks s.alen
  /-- A chunk step has a chunk (43_payload_encrypt.md R170, R171). -/
  chunk_index : s.st.phase.chunked = true → 1 ≤ s.st.ctr.toNat ∧ s.st.ctr.toNat ≤ msgBlocks s.mlen
  /-- The indices never wrap (41_nonce_formatter.md R138, 42_mac_aad.md R153). -/
  ctr_le : s.st.ctr.toNat ≤ msgBlocks s.mlen + 1
  aj_le : s.st.aj.toNat ≤ aadBlocks s.alen
  /-- Before the payload the counter is 1 and before the AAD its index is 0 (40_commands.md R106). -/
  ctr_start : s.st.phase = .check ∨ s.st.phase = .b0 ∨ s.st.phase = .aad → s.st.ctr.toNat = 1
  aj_start : s.st.phase = .check ∨ s.st.phase = .b0 → s.st.aj.toNat = 0
  /-- A result is pending only in WIPE (60_exceptions.md R231), and it is no ILLEGAL_COMMAND (R230). -/
  pend_ok : s.st.phase ≠ .wipe → s.st.pend = .ok
  pend_legal : s.st.pend ≠ .illegalCommand

/-- Memory, and every older memory a host may see, is in the canonical form. -/
def State.MemInv (s : State) : Prop :=
  Memory.wf s.mem = true ∧ ∀ v ∈ s.views, Memory.wf v = true

/-- `c` is a value that a host load of the byte at `a` may return (20_memory.md R72, R74). -/
def State.Admits (s : State) (a : Addr) (c : Byte) : Prop :=
  c = Memory.byte s.mem a ∨ ∃ v ∈ s.views, c = Memory.byte v a

/-- Two engines that run alone and agree on all that R271 (70_reset_and_hazards.md) lets the phases, the
requests and the number of cipher calls depend on, and on these themselves. -/
structure State.SameControl (s t : State) : Prop where
  alone : s.inputs = [] ∧ t.inputs = []
  nonceLen : s.nonceLen = t.nonceLen
  mlen : s.mlen = t.mlen
  alen : s.alen = t.alen
  aadAddr : s.aadAddr = t.aadAddr
  inAddr : s.inAddr = t.inAddr
  outAddr : s.outAddr = t.outAddr
  busErr : s.busErr = t.busErr
  op : s.st.op = t.st.op
  phase : s.st.phase = t.st.phase
  ctr : s.st.ctr = t.st.ctr
  aj : s.st.aj = t.st.aj
  pend : s.st.pend = t.st.pend
  requests : s.requests = t.requests
  calls : s.calls.length = t.calls.length

/-- Release only after authentication (45_decrypt.md R207): in a DECRYPT that has not been accepted no
write has been issued, nor in one that ended before it could be accepted. -/
def State.ReleaseInv (s : State) : Prop :=
  s.st.op = .dec →
    (s.st.phase.beforeRelease = true ∨
      (s.st.phase = .wipe ∧ s.st.pend ≠ .ok ∧ s.st.pend ≠ .busError)) →
    ∀ r ∈ s.requests, r.kind = .rd

end Sys2Proof.Machine
end

