-- ==== Sys2Proof/Certificates/Slice0/Obligations.lean ====
section
/-! DEFINITION. The statements about CCM-CORE for the provers. Each docstring names the rule of spec/ that
the statement formalises. -/

open Sys2Proof Sys2Proof.Machine

/-! ## Encoding -/

/-- 30_encoding.md R80, R81, R83, R93: no bit of an encoding is dropped. The decoder gives back every
well-formed instruction at every BUSY its row matches. -/
def Obligations.DecodeOfEncode : Prop :=
  ∀ (i : Instr) (busy : Bool), i.wf = true → i.admitsBusy busy = true →
    decode busy (encode i) = .instr i

/-- 30_encoding.md R80, R81, R83, R93: what the decoder accepts is a well-formed instruction of a row that
matches, and its encoding is what was decoded (the data of a read is not part of it). -/
def Obligations.EncodeOfDecode : Prop :=
  (∀ (busy : Bool) (a : HostAccess) (i : Instr), decode busy (.access a) = .instr i →
    i.wf = true ∧ i.admitsBusy busy = true ∧
      encode i = .access { a with data := if a.kind = .rd then 0 else a.data }) ∧
  ∀ (busy : Bool) (c : BitVec 4) (i : Instr), decode busy (.phase c) = .instr i →
    i.wf = true ∧ encode i = .phase c

/-- 30_encoding.md R80, R83: which encodings are rejected; every other one is accepted. That a rejected
access has the name `subWord` whenever it does not move 4 bytes, a wider or misaligned one too, is the
model's choice (log 22). -/
def Obligations.RejectedEncodings : Prop :=
  (∀ (busy : Bool) (a : HostAccess),
    (decode busy (.access a) = .reject .subWord ↔ a.bytes ≠ 4) ∧
    (decode busy (.access a) = .reject .misaligned ↔ a.bytes = 4 ∧ a.offset.toNat % 4 ≠ 0) ∧
    ((∃ i, decode busy (.access a) = .instr i) ↔ a.bytes = 4 ∧ a.offset.toNat % 4 = 0)) ∧
  ∀ (busy : Bool) (c : BitVec 4),
    (decode busy (.phase c) = .reject .idlePhase ↔ c = 0) ∧
    (decode busy (.phase c) = .reject .reservedPhase ↔ 10 ≤ c.toNat) ∧
    ((∃ i, decode busy (.phase c) = .instr i) ↔ 1 ≤ c.toNat ∧ c.toNat ≤ 9)

/-- 30_encoding.md R80, R81, R83: words written out from the tables of the spec, one or more a family. That an
8-bit table word is read as a phase code before it is read as an offset of WR_BUSY is the model's choice
(log 8): R93 gives phase codes of 4 bits. -/
def Obligations.TableWordsDecode : Prop :=
  decode false (.access ⟨.rd, 0x08, 4, 0⟩) = .instr (.rd 0x08) ∧
  decode false (.access ⟨.wr, 0x00, 4, 0x0000010D⟩) = .instr (.wr 0x00 0x0000010D) ∧
  decode true (.access ⟨.wr, 0x50, 4, 0x00000001⟩) = .instr (.wrBusy 0x50 0x00000001) ∧
  decode true (.access ⟨.wr, 0x08, 4, 0x00000006⟩) = .instr (.wrStatus 0x00000006) ∧
  decodeTableWord 32 0x00000000 = some .nop ∧
  decodeTableWord 32 0x00000001 = some .encrypt ∧
  decodeTableWord 32 0x00000002 = some .decrypt ∧
  decodeTableWord 32 0x00000101 = some (.illegal 0x00000101) ∧
  decodeTableWord 8 0x1 = some .check ∧
  decodeTableWord 8 0x4 = some .enc ∧
  decodeTableWord 8 0x6 = some .final ∧
  decodeTableWord 8 0x9 = some .wipe

/-- 10_state.md R22: each register is found at its own offset, offsets are multiples of 4, and an offset
that finds a register is that register's. -/
def Obligations.RegisterOffsets : Prop :=
  (∀ r : Reg, Reg.ofOffset r.offset = some r ∧ r.offset.toNat % 4 = 0 ∧ r.offset.toNat ≤ 0x54) ∧
  ∀ (off : BitVec 8) (r : Reg), Reg.ofOffset off = some r → off = r.offset

/-! ## Block formats -/

/-- 30_encoding.md R85: B0 by byte index: the flags byte 64*Adata + 56 + (L-1), the nonce, and mlen
big-endian in the last L bytes. -/
def Obligations.B0BlockBytes : Prop :=
  ∀ (nonce : List Byte) (adata : Bool) (mlen : Nat),
    7 ≤ nonce.length → nonce.length ≤ 13 → mlen < 2 ^ (8 * (15 - nonce.length)) →
    (b0Block nonce adata mlen)[0].toNat = 64 * adata.toNat + 56 + (15 - nonce.length - 1) ∧
    ((b0Block nonce adata mlen).toList.drop 1).take nonce.length = nonce ∧
    ((b0Block nonce adata mlen).toList.drop (1 + nonce.length)).foldl
      (fun n b => 256 * n + b.toNat) 0 = mlen

/-- 30_encoding.md R86 and 41_nonce_formatter.md R134: Ctr_i by byte index, and no two counters of a
command share a block. -/
def Obligations.CtrBlockBytes : Prop :=
  ∀ (nonce : List Byte), 7 ≤ nonce.length → nonce.length ≤ 13 →
    (∀ i, i < 2 ^ (8 * (15 - nonce.length)) →
      (ctrBlock nonce i)[0].toNat = 15 - nonce.length - 1 ∧
      ((ctrBlock nonce i).toList.drop 1).take nonce.length = nonce ∧
      ((ctrBlock nonce i).toList.drop (1 + nonce.length)).foldl
        (fun n b => 256 * n + b.toNat) 0 = i) ∧
    ∀ i j, i < 2 ^ (8 * (15 - nonce.length)) → j < 2 ^ (8 * (15 - nonce.length)) →
      ctrBlock nonce i = ctrBlock nonce j → i = j

/-- 30_encoding.md R87, R88: the AAD prefix, its length, its bytes, and that the first two bytes of a
stream tell the two forms apart. -/
def Obligations.AadPrefixForms : Prop :=
  ∀ alen : Nat, 0 < alen → alen < 2 ^ 32 →
    (aadPrefix alen).length = prefixLen alen ∧
    (alen < 0xFF00 → (aadPrefix alen).foldl (fun n b => 256 * n + b.toNat) 0 = alen ∧
      prefixLen alen = 2) ∧
    (0xFF00 ≤ alen → (aadPrefix alen).take 2 = [0xFF, 0xFE] ∧ prefixLen alen = 6 ∧
      ((aadPrefix alen).drop 2).foldl (fun n b => 256 * n + b.toNat) 0 = alen) ∧
    (alen < 0xFF00 ↔ ((aadPrefix alen).take 2).foldl (fun n b => 256 * n + b.toNat) 0 < 0xFF00)

/-! ## Host accesses -/

/-- 40_commands.md R100: what a read returns at every offset, and that CCM-CORE and memory are
unchanged by it. The number STATUS reads as is 10_state.md R26. -/
def Obligations.ReadReturnsRegister : Prop :=
  ∀ (off : BitVec 8) (s : State), off.toNat % 4 = 0 →
    ∃ t, exec (.rd off) s = .next t ∧
      (off = 0x00 → t.rdata.toNat = 256 * s.ctrl.ie.toNat + s.ctrl.nonceLen.toNat) ∧
      (off = 0x04 → t.rdata = 0) ∧
      (off = 0x08 → t.rdata.toNat = 256 * s.st.phase.code.toNat + 16 * s.status.result.code.toNat +
        4 * s.status.dropped.toNat + 2 * s.status.done.toNat +
        (if s.st.phase = .idle then 0 else 1)) ∧
      (∀ r : DataReg, off = r.offset → t.rdata = s.data.get r) ∧
      (off = 0x0C ∨ 0x58 ≤ off.toNat → t.rdata = 0) ∧
      t.ctrl = s.ctrl ∧ t.status = s.status ∧ t.data = s.data ∧ t.st = s.st ∧ t.key = s.key ∧
      t.busErr = s.busErr ∧ t.inputs = s.inputs ∧ t.hostByte = s.hostByte ∧ t.draws = s.draws ∧
      t.requests = s.requests ∧ t.calls = s.calls ∧ t.steps = s.steps ∧
      ∀ a : Addr, Memory.byte t.mem a = Memory.byte s.mem a

/-- 40_commands.md R101 and 10_state.md R27 to R33: an idle write of a data register stores the value, so
that it reads back, and changes no other data register and nothing else. -/
def Obligations.WriteStoresDataRegister : Prop :=
  ∀ (r : DataReg) (v : Word) (s : State), s.st.phase = .idle →
    ∃ d, exec (.wr r.offset v) s = .next { s with data := d } ∧ d.get r = v ∧
      ∀ r', r' ≠ r → d.get r' = s.data.get r'

/-- 40_commands.md R101 and 10_state.md R23, R35: an idle write of CTRL stores NONCE_LEN and IE, its other
bits are ignored, and a write of a reserved offset has no effect. -/
def Obligations.WriteCtrlAndReserved : Prop :=
  ∀ (v : Word) (s : State), s.st.phase = .idle →
    (∃ c, exec (.wr 0x00 v) s = .next { s with ctrl := c } ∧ c.nonceLen.toNat = v.toNat % 16 ∧
      c.ie.toNat = v.toNat / 256 % 2) ∧
    ∀ off : BitVec 8, off.toNat % 4 = 0 → off = 0x0C ∨ 0x58 ≤ off.toNat →
      exec (.wr off v) s = .next s

/-- 40_commands.md R102: every write while BUSY = 1, to any offset but STATUS, sets DROPPED and changes
nothing else. That it does so too when it is named WR or a command, because BUSY and not the row decides,
is read from R101's pseudocode (log 16, DEDUCED). -/
def Obligations.BusyWriteIsDropped : Prop :=
  ∀ (off : BitVec 8) (v : Word) (s : State), s.st.phase ≠ .idle → off.toNat % 4 = 0 → off ≠ 0x08 →
    exec (.wrBusy off v) s = .next { s with status := { s.status with dropped := true } } ∧
    exec (.wr off v) s = .next { s with status := { s.status with dropped := true } } ∧
    exec .nop s = .next { s with status := { s.status with dropped := true } } ∧
    exec .encrypt s = .next { s with status := { s.status with dropped := true } } ∧
    exec .decrypt s = .next { s with status := { s.status with dropped := true } } ∧
    exec (.illegal v) s = .next { s with status := { s.status with dropped := true } }

/-- 40_commands.md R103: a write of STATUS, in any state, clears DONE by bit 1 and DROPPED by bit 2 and
changes nothing else. -/
def Obligations.StatusWriteClears : Prop :=
  ∀ (v : Word) (s : State), ∃ u : Status,
    exec (.wrStatus v) s = .next { s with status := u } ∧
    exec (.wr 0x08 v) s = .next { s with status := u } ∧
    u.result = s.status.result ∧
    (u.done = true ↔ s.status.done = true ∧ v.toNat / 2 % 2 = 0) ∧
    (u.dropped = true ↔ s.status.dropped = true ∧ v.toNat / 4 % 2 = 0)

/-- 40_commands.md R105: an idle NOP changes nothing; one written while BUSY = 1 sets DROPPED alone. -/
def Obligations.NopHasNoEffect : Prop :=
  ∀ s : State, (s.st.phase = .idle → exec .nop s = .next s) ∧
    (s.st.phase ≠ .idle →
      exec .nop s = .next { s with status := { s.status with dropped := true } })

/-- 40_commands.md R106, R107: an idle ENCRYPT or DECRYPT starts a command. `requests`, `calls` and `steps`
are the model's record of the ports and start anew (log 14); `views` keeps the bytes of now for the loads
that race with the command (log 10). -/
def Obligations.CommandStart : Prop :=
  ∀ s : State, s.st.phase = .idle →
    exec .encrypt s = .next { s with
      status := { s.status with done := false, result := .ok }
      st := { s.st with op := .enc, pend := .ok, ctr := 1, aj := 0, phase := .check }
      views := s.mem :: s.views, requests := [], calls := [], steps := 0 } ∧
    exec .decrypt s = .next { s with
      status := { s.status with done := false, result := .ok }
      st := { s.st with op := .dec, pend := .ok, ctr := 1, aj := 0, phase := .check }
      views := s.mem :: s.views, requests := [], calls := [], steps := 0 }

/-- 40_commands.md R108: an idle illegal command reports ILLEGAL_COMMAND at once. -/
def Obligations.IllegalCommandCompletes : Prop :=
  ∀ (code : Word) (s : State), s.st.phase = .idle → code ≠ 0 → code ≠ 1 → code ≠ 2 →
    exec (.illegal code) s =
      .next { s with status := { s.status with result := .illegalCommand, done := true } }

/-- 40_commands.md R104: an idle write of CMD does what the command of that code does. -/
def Obligations.CmdWriteRunsCommand : Prop :=
  ∀ (v : Word) (s : State), s.st.phase = .idle →
    exec (.wr 0x04 v) s = exec (decodeCmd v) s ∧
    step { s with inputs := .access ⟨.wr, 0x04, 4, v⟩ :: s.inputs } = exec (decodeCmd v) s

/-- 30_encoding.md R80: an access that is not whole and aligned is refused. That one which moves more than
4 bytes is refused under the name `subWordAccess` is the model's choice (log 22). -/
def Obligations.AccessesOutsideRefused : Prop :=
  ∀ (a : HostAccess) (s : State) (rest : List Input), s.inputs = .access a :: rest →
    (a.bytes ≠ 4 → step s = .refused .subWordAccess) ∧
    (a.bytes = 4 → a.offset.toNat % 4 ≠ 0 → step s = .refused .misalignedAccess ∧
      exec (.rd a.offset) s = .refused .misalignedAccess ∧
      exec (.wr a.offset a.data) s = .refused .misalignedAccess ∧
      exec (.wrBusy a.offset a.data) s = .refused .misalignedAccess)

/-! ## Engine steps -/

/-- 41_nonce_formatter.md R131 and 60_exceptions.md R232: CHECK makes its three tests in order, raises the
first that fails, and makes no request and no cipher call. -/
def Obligations.CheckTestsContract : Prop :=
  ∀ s : State,
    (s.nonceLen < 7 ∨ 13 < s.nonceLen → exec .check s =
      .next { s with st := { s.st with pend := .invalidNonceLength, phase := .wipe } }) ∧
    (7 ≤ s.nonceLen → s.nonceLen ≤ 13 →
      (2 ^ (8 * (15 - s.nonceLen)) ≤ s.mlen → exec .check s =
        .next { s with st := { s.st with pend := .messageTooLarge, phase := .wipe } }) ∧
      (s.mlen < 2 ^ (8 * (15 - s.nonceLen)) →
        (2 ^ 32 ≤ s.alen → exec .check s =
          .next { s with st := { s.st with pend := .aadTooLarge, phase := .wipe } }) ∧
        (s.alen < 2 ^ 32 → exec .check s = .next { s with st := { s.st with phase := .b0 } })))

/-- 41_nonce_formatter.md R135 and 40_commands.md R110 (PayloadEntry): the B0 step. -/
def Obligations.B0StartsMac : Prop :=
  ∀ s : State, exec .b0 s = .next { s with
    st := { s.st with
      mac := Config.cipher s.key (b0Block s.nonce (0 < s.alen) s.mlen)
      aj := if 0 < s.alen then 0 else s.st.aj
      phase := if 0 < s.alen then .aad else if msgBlocks s.mlen = 0 then .final
        else if s.st.op = .enc then .enc else .dec1 }
    calls := b0Block s.nonce (0 < s.alen) s.mlen :: s.calls }

/-- 42_mac_aad.md R153 to R155: an AAD step whose read is answered ok absorbs AadBlock(j), the piece j of
the stream prefix || AAD padded with zeros, by one request for its AAD bytes alone. -/
def Obligations.AadStepAbsorbsBlock : Prop :=
  ∀ s : State, s.st.phase = .aad → s.alen < 2 ^ 32 → s.st.aj.toNat < aadBlocks s.alen →
    s.busOk (s.aadRequest s.st.aj.toNat) = true →
    let x := pad16 (piece (aadPrefix s.alen ++ Memory.readBytes s.mem s.aadAddr s.alen)
      s.st.aj.toNat)
    exec .aad s = .next { s with
      st := { s.st with
        blk := x
        mac := Config.cipher s.key (xorBlock s.st.mac x)
        aj := s.st.aj + 1
        phase := if s.st.aj.toNat + 1 < aadBlocks s.alen then .aad
          else if msgBlocks s.mlen = 0 then .final
          else if s.st.op = .enc then .enc else .dec1 }
      requests := s.aadRequest s.st.aj.toNat :: s.requests
      calls := xorBlock s.st.mac x :: s.calls }

/-- 42_mac_aad.md R154: the AAD requests hold 1 to 16 bytes each and, in the order of the blocks, cover
the AAD from its first byte to its last, each byte once. -/
def Obligations.AadRequestsCoverAad : Prop :=
  ∀ s : State, s.alen < 2 ^ 32 →
    (∀ j, j < aadBlocks s.alen → 1 ≤ (s.aadRequest j).n ∧ (s.aadRequest j).n ≤ 16) ∧
    ((List.range (aadBlocks s.alen)).flatMap fun j =>
      (List.range (s.aadRequest j).n).map fun k => (s.aadRequest j).addr + BitVec.ofNat 64 k) =
      (List.range s.alen).map fun k => s.aadAddr + BitVec.ofNat 64 k

/-- 43_payload_encrypt.md R171: an ENC step whose two requests are answered ok. The stored bytes are the
chunk XOR the keystream, n bytes at outAddr(i); every byte outside them reads as before. -/
def Obligations.EncStepEncryptsChunk : Prop :=
  ∀ s : State, s.st.phase = .enc → 1 ≤ s.st.ctr.toNat → s.st.ctr.toNat ≤ msgBlocks s.mlen →
    s.busOk (s.readRequest s.st.ctr.toNat) = true → s.busOk (s.writeRequest s.st.ctr.toNat) = true →
    let i := s.st.ctr.toNat
    let n := chunkLen s.mlen i
    let p := Memory.readBytes s.mem (chunkAddr s.inAddr i) n
    let ks := Config.cipher s.key (ctrBlock s.nonce i)
    ∃ m : Memory,
      exec .enc s = .next { s with
        st := { s.st with
          blk := pad16 p
          mac := Config.cipher s.key (xorBlock s.st.mac (pad16 p))
          ks := ks
          ctr := s.st.ctr + 1
          phase := if i = msgBlocks s.mlen then .final else .enc }
        mem := m
        requests := s.writeRequest i :: s.readRequest i :: s.requests
        calls := ctrBlock s.nonce i :: xorBlock s.st.mac (pad16 p) :: s.calls } ∧
      Memory.readBytes m (chunkAddr s.outAddr i) n = xorBytes p ks ∧
      ∀ a, inBuffer (chunkAddr s.outAddr i) n a = false → Memory.byte m a = Memory.byte s.mem a

/-- 45_decrypt.md R201, R202: a DEC1 step whose read is answered ok absorbs the recovered plaintext padded
with zeros and writes nothing. -/
def Obligations.Dec1StepAbsorbsPlaintext : Prop :=
  ∀ s : State, s.st.phase = .dec1 → 1 ≤ s.st.ctr.toNat → s.st.ctr.toNat ≤ msgBlocks s.mlen →
    s.busOk (s.readRequest s.st.ctr.toNat) = true →
    let i := s.st.ctr.toNat
    let c := Memory.readBytes s.mem (chunkAddr s.inAddr i) (chunkLen s.mlen i)
    let ks := Config.cipher s.key (ctrBlock s.nonce i)
    exec .dec1 s = .next { s with
      st := { s.st with
        ks := ks
        blk := pad16 (xorBytes c ks)
        mac := Config.cipher s.key (xorBlock s.st.mac (pad16 (xorBytes c ks)))
        ctr := s.st.ctr + 1
        phase := if i = msgBlocks s.mlen then .final else .dec1 }
      requests := s.readRequest i :: s.requests
      calls := xorBlock s.st.mac (pad16 (xorBytes c ks)) :: ctrBlock s.nonce i :: s.calls }

/-- 45_decrypt.md R206: a DEC2 step whose two requests are answered ok. The stored bytes are the chunk XOR
the keystream, n bytes at outAddr(i); every byte outside them reads as before. -/
def Obligations.Dec2StepReleasesChunk : Prop :=
  ∀ s : State, s.st.phase = .dec2 → 1 ≤ s.st.ctr.toNat → s.st.ctr.toNat ≤ msgBlocks s.mlen →
    s.busOk (s.readRequest s.st.ctr.toNat) = true → s.busOk (s.writeRequest s.st.ctr.toNat) = true →
    let i := s.st.ctr.toNat
    let n := chunkLen s.mlen i
    let c := Memory.readBytes s.mem (chunkAddr s.inAddr i) n
    let ks := Config.cipher s.key (ctrBlock s.nonce i)
    ∃ m : Memory,
      exec .dec2 s = .next { s with
        st := { s.st with
          ks := ks
          ctr := s.st.ctr + 1
          pend := if i = msgBlocks s.mlen then .ok else s.st.pend
          phase := if i = msgBlocks s.mlen then .wipe else .dec2 }
        mem := m
        requests := s.writeRequest i :: s.readRequest i :: s.requests
        calls := ctrBlock s.nonce i :: s.calls } ∧
      Memory.readBytes m (chunkAddr s.outAddr i) n = xorBytes c ks ∧
      ∀ a, inBuffer (chunkAddr s.outAddr i) n a = false → Memory.byte m a = Memory.byte s.mem a

/-- 44_tag_finalizer.md R190: in an ENCRYPT the FINAL step writes S0 XOR mac to the tag registers, byte by
byte, and no other register. -/
def Obligations.FinalWritesEncryptTag : Prop :=
  ∀ s : State, s.st.op = .enc →
    let c := ctrBlock s.nonce 0
    let s0 := Config.cipher s.key c
    ∃ d : DataRegs,
      exec .final s = .next { s with
        data := d
        st := { s.st with s0 := s0, cand := xorBlock s0 s.st.mac, pend := .ok, phase := .wipe }
        calls := c :: s.calls } ∧
      (∀ k (h : k < 16), ({ s with data := d } : State).tagByte k = s0[k] ^^^ s.st.mac[k]) ∧
      ∀ r, r ≠ .tag0 → r ≠ .tag1 → r ≠ .tag2 → r ≠ .tag3 → d.get r = s.data.get r

/-- 44_tag_finalizer.md R190 and 45_decrypt.md R208: in a DECRYPT the FINAL step keeps the computed tag in
st.cand and writes no register and no memory. -/
def Obligations.FinalKeepsDecryptTag : Prop :=
  ∀ s : State, s.st.op ≠ .enc →
    exec .final s = .next { s with
      st := { s.st with
        s0 := Config.cipher s.key (ctrBlock s.nonce 0)
        cand := xorBlock (Config.cipher s.key (ctrBlock s.nonce 0)) s.st.mac
        phase := .verify }
      calls := ctrBlock s.nonce 0 :: s.calls }

/-- 45_decrypt.md R203 to R205: VERIFY accepts exactly when all 16 computed tag bytes equal the tag
registers' bytes. -/
def Obligations.VerifyComparesTag : Prop :=
  ∀ s : State,
    ((∀ k (h : k < 16), s.st.cand[k] = s.tagByte k) →
      (msgBlocks s.mlen = 0 → exec .verify s =
        .next { s with st := { s.st with ctr := 1, pend := .ok, phase := .wipe } }) ∧
      (msgBlocks s.mlen ≠ 0 → exec .verify s =
        .next { s with st := { s.st with ctr := 1, phase := .dec2 } })) ∧
    ((∃ k, ∃ h : k < 16, s.st.cand[k] ≠ s.tagByte k) → exec .verify s =
      .next { s with st := { s.st with pend := .authenticationFailure, phase := .wipe } })

/-- 60_exceptions.md R233: WIPE zeroes the scratch state, publishes the pending result and DONE, and leaves
the tag registers and memory as they are. -/
def Obligations.WipeCompletes : Prop :=
  ∀ s : State, exec .wipe s = .next { s with
    st := { phase := .idle, op := .none, ctr := 0, aj := 0, pend := .ok, mac := Block.zero,
            s0 := Block.zero, ks := Block.zero, blk := Block.zero, cand := Block.zero }
    status := { s.status with result := s.st.pend, done := true } }

/-- 20_memory.md R69 and 60_exceptions.md R231: a read that gets an error response raises BUS_ERROR before
any byte is used. -/
def Obligations.FailedReadRaisesBusError : Prop :=
  ∀ s : State,
    (s.busOk (s.aadRequest s.st.aj.toNat) = false → exec .aad s = .next { s with
      st := { s.st with pend := .busError, phase := .wipe }
      requests := s.aadRequest s.st.aj.toNat :: s.requests }) ∧
    (s.busOk (s.readRequest s.st.ctr.toNat) = false → ∀ i, i = .enc ∨ i = .dec1 ∨ i = .dec2 →
      exec i s = .next { s with
        st := { s.st with pend := .busError, phase := .wipe }
        requests := s.readRequest s.st.ctr.toNat :: s.requests })

/-- 20_memory.md R69 and 60_exceptions.md R231: a write that gets an error response raises BUS_ERROR, and what
the step did before the raise stands (the MAC of an ENC step, the keystream, the cipher calls and the
requests); each byte of the request holds its old or its new value, and every other byte reads as before.
Holds whatever the free value is, one draw of which is counted (log 4). -/
def Obligations.FailedWriteLandsAnySubset : Prop :=
  ∀ (s : State) (i : Instr), i = .enc ∨ i = .dec2 →
    s.busOk (s.readRequest s.st.ctr.toNat) = true →
    s.busOk (s.writeRequest s.st.ctr.toNat) = false →
    let k := s.st.ctr.toNat
    let n := chunkLen s.mlen k
    let r := Memory.readBytes s.mem (chunkAddr s.inAddr k) n
    let w := xorBytes r (Config.cipher s.key (ctrBlock s.nonce k))
    ∃ t, exec i s = .next t ∧
      t.st.phase = .wipe ∧ t.st.pend = .busError ∧ t.st.ctr = s.st.ctr ∧ t.st.op = s.st.op ∧
      t.st.aj = s.st.aj ∧ t.data = s.data ∧ t.ctrl = s.ctrl ∧ t.status = s.status ∧
      t.st.ks = Config.cipher s.key (ctrBlock s.nonce k) ∧ t.st.s0 = s.st.s0 ∧
      t.st.cand = s.st.cand ∧
      (i = .enc → t.st.blk = pad16 r ∧
        t.st.mac = Config.cipher s.key (xorBlock s.st.mac (pad16 r)) ∧
        t.calls = ctrBlock s.nonce k :: xorBlock s.st.mac (pad16 r) :: s.calls) ∧
      (i = .dec2 → t.st.blk = s.st.blk ∧ t.st.mac = s.st.mac ∧
        t.calls = ctrBlock s.nonce k :: s.calls) ∧
      t.requests = s.writeRequest k :: s.readRequest k :: s.requests ∧
      t.key = s.key ∧ t.busErr = s.busErr ∧ t.inputs = s.inputs ∧ t.rdata = s.rdata ∧
      t.views = s.views ∧ t.hostByte = s.hostByte ∧ t.steps = s.steps ∧ t.draws = s.draws + 1 ∧
      (∀ a, inBuffer (chunkAddr s.outAddr k) n a = false →
        Memory.byte t.mem a = Memory.byte s.mem a) ∧
      ∀ a, Memory.byte t.mem a = Memory.byte s.mem a ∨
        Memory.byte t.mem a = w.getD (a - chunkAddr s.outAddr k).toNat (Memory.byte s.mem a)

/-! ## Reset, interrupt and the other agents -/

/-- 70_reset_and_hazards.md R260: after reset every register reads 0, the engine state is that of an idle
engine, irq is 0, and memory and the cipher's key are unchanged. -/
def Obligations.ResetZeroesEverything : Prop :=
  ∀ (s : State) (rest : List Input), s.inputs = .reset :: rest →
    ∃ t, step s = .next t ∧ (∀ off, hostRead off t = 0) ∧ t.st = Engine.idle ∧ t.irq = false ∧
      (∀ a, Memory.byte t.mem a = Memory.byte s.mem a) ∧ t.key = s.key ∧ t.inputs = rest

/-- 70_reset_and_hazards.md R260: the registers and the engine state right after reset. -/
def Obligations.ResetState : Prop :=
  (∀ off, hostRead off State.reset = 0) ∧ State.reset.st = Engine.idle ∧ State.reset.irq = false ∧
    State.reset.busy = false

/-- 70_reset_and_hazards.md R261: a reset that cuts the engine's step abandons the command; of the write
an ENC or DEC2 step has issued each byte holds its old or its new value, every other byte of memory is
unchanged, and in any other phase all of memory is. That the model gives this move a constructor of its
own is log 12. -/
def Obligations.ResetCutsWrite : Prop :=
  ∀ (s : State) (rest : List Input), s.inputs = .resetCut :: rest →
    let k := s.st.ctr.toNat
    let n := chunkLen s.mlen k
    let w := xorBytes (Memory.readBytes s.mem (chunkAddr s.inAddr k) n)
      (Config.cipher s.key (ctrBlock s.nonce k))
    ∃ t, step s = .next t ∧ (∀ off, hostRead off t = 0) ∧ t.st = Engine.idle ∧ t.key = s.key ∧
      t.busErr = s.busErr ∧
      (s.st.phase ≠ .enc → s.st.phase ≠ .dec2 → ∀ a, Memory.byte t.mem a = Memory.byte s.mem a) ∧
      (∀ a, inBuffer (chunkAddr s.outAddr k) n a = false →
        Memory.byte t.mem a = Memory.byte s.mem a) ∧
      ∀ a, Memory.byte t.mem a = Memory.byte s.mem a ∨
        Memory.byte t.mem a = w.getD (a - chunkAddr s.outAddr k).toNat (Memory.byte s.mem a)

/-- 60_exceptions.md R235: irq is the level DONE AND IE. Completion and an illegal command raise it when
IE = 1; the acknowledge and the next command start drop it; a write of CTRL changes it at once. -/
def Obligations.IrqFollowsDoneAndIe : Prop :=
  ∀ s : State,
    (∃ t, exec .wipe s = .next t ∧ t.irq = s.ctrl.ie) ∧
    (∃ t, exec (.wrStatus 0x00000002) s = .next t ∧ t.irq = false ∧
      t.status.result = s.status.result) ∧
    (s.st.phase = .idle →
      (∃ t, exec (.illegal 0x00000003) s = .next t ∧ t.irq = s.ctrl.ie) ∧
      (∃ t, exec .encrypt s = .next t ∧ t.irq = false) ∧
      (∃ t, exec .decrypt s = .next t ∧ t.irq = false) ∧
      ∀ v, ∃ t, exec (.wr 0x00 v) s = .next t ∧ t.irq = (s.status.done && v.getLsbD 8))

/-- 70_reset_and_hazards.md R264, R265 (92_eei_decisions.md D40): the moves that the model does not give the
other agents while BUSY = 1 stop under their own names; that they stop is log 11. A store that is neither
that nor a race is made: memory holds the byte, other bytes and what loads of them may return are as
before, and a load of it returns the byte, or the one it replaced while that one was still racing
(log 10). An idle key load is made. -/
def Obligations.ForbiddenMovesStop : Prop :=
  ∀ (s : State) (rest : List Input),
    (∀ a b, s.inputs = .store a b :: rest →
      (s.busy = true → inBuffer s.aadAddr s.alen a = true ∨ inBuffer s.inAddr s.mlen a = true →
        step s = .fault .inputRace) ∧
      (s.busy = false ∨ (inBuffer s.aadAddr s.alen a = false ∧
          inBuffer s.inAddr s.mlen a = false ∧ inBuffer s.outAddr s.mlen a = false) →
        ∃ m vs, step s = .next { s with inputs := rest, mem := m, views := vs } ∧
          ∀ x, Memory.byte m x = (if x = a then b else Memory.byte s.mem x) ∧
            ∀ c, ({ s with mem := m, views := vs } : State).Admits x c ↔
              if x = a then c = b ∨ (s.settled a = false ∧ c = Memory.byte s.mem a)
              else s.Admits x c)) ∧
    ∀ k, s.inputs = .rekey k :: rest →
      (s.busy = true → step s = .fault .keyChange) ∧
      (s.busy = false → step s = .next { s with inputs := rest, key := k })

/-- 20_memory.md R71, R72: a host load returns one of the racing values and changes nothing else but the count
of draws. The bytes of a command start are among them from then on and stay so at every engine step; after
a STATUS read that shows DONE = 1 for a command, or a sample of such an irq = 1, a load returns the
memory's byte. How the model keeps the old values, and that DONE = 1 with ILLEGAL_COMMAND is for no
command, is log 10. -/
def Obligations.HostLoadsRaceUntilAcquire : Prop :=
  ∀ s : State,
    (∀ a rest, s.inputs = .load a :: rest →
      ∃ c n, step s = .next { s with inputs := rest, hostByte := c, draws := n } ∧ s.Admits a c) ∧
    (s.st.phase = .idle → ∀ i, i = .encrypt ∨ i = .decrypt → ∃ t, exec i s = .next t ∧
      s.mem ∈ t.views ∧ ∀ v ∈ s.views, v ∈ t.views) ∧
    (s.inputs = [] → ∀ t, step s = .next t →
      ∀ a, ∀ v ∈ s.views, t.Admits a (Memory.byte v a)) ∧
    (s.status.done = true → s.status.result ≠ .illegalCommand → ∃ t, exec (.rd 0x08) s = .next t ∧
      ∀ a rest, ∃ u, step { t with inputs := .load a :: rest } = .next u ∧
        u.hostByte = Memory.byte s.mem a) ∧
    (s.irq = true → s.status.result ≠ .illegalCommand → ∀ rest, s.inputs = .sampleIrq :: rest →
      ∃ t, step s = .next t ∧
        ∀ a rest', ∃ u, step { t with inputs := .load a :: rest' } = .next u ∧
          u.hostByte = Memory.byte s.mem a)

/-! ## Steps -/

/-- 40_commands.md R109 and 30_encoding.md R83: an engine turn runs the instruction that the phase code
decodes to. That it is the engine's turn when no move is listed is the model's choice (log 5), and so is
the count of engine steps (log 14). -/
def Obligations.StepRunsPhase : Prop :=
  ∀ (s : State) (i : Instr), decode s.busy (.phase s.st.phase.code) = .instr i →
    (s.inputs = [] → step s = exec i { s with steps := s.steps + 1 }) ∧
    ∀ rest, s.inputs = .engine :: rest →
      step s = exec i { s with inputs := rest, steps := s.steps + 1 }

/-- 30_encoding.md R80, R93: a host access runs the instruction it decodes to at the current BUSY. Around
it the step takes the move off the list. -/
def Obligations.StepRunsAccess : Prop :=
  ∀ (s : State) (a : HostAccess) (rest : List Input) (i : Instr), s.inputs = .access a :: rest →
    decode s.busy (.access a) = .instr i → step s = exec i { s with inputs := rest }

/-- 30_encoding.md R83: in IDLE the engine takes no step. That an idle machine with no move listed stays as
it is, rather than stopping, is log 6. -/
def Obligations.IdleEngineTakesNoStep : Prop :=
  ∀ s : State, s.st.phase = .idle →
    (s.inputs = [] → step s = .next s) ∧
    ∀ rest, s.inputs = .engine :: rest → step s = .next { s with inputs := rest }

/-- Log 7, log 8: the state that withFetchWord gives runs the decoded instruction at its very next step,
with the registers, memory and parameters of the state it was given. -/
def Obligations.PlacedWordRunsNext : Prop :=
  ∀ (s : State) (nbits w : Nat) (i : Instr), decodeTableWord nbits w = some i →
    ∃ t, step (s.withFetchWord nbits w) = exec i t ∧ t.ctrl = s.ctrl ∧ t.status = s.status ∧
      t.data = s.data ∧ t.mem = s.mem ∧ t.key = s.key ∧ t.busErr = s.busErr ∧ t.inputs = s.inputs

/-- 30_encoding.md R91: the pseudo-instructions, run on an idle machine, leave the registers as they say; rdtag
reads the tag bytes in order, and encrypt and decrypt are the commands. (`wait` is WaitPollsDone.) -/
def Obligations.PseudoInstructionsExpand : Prop :=
  ∀ s : State, s.st.phase = .idle →
    (∀ (x : Pair) (v : BitVec 64), ∃ t,
      Host.Core.run core 2 { s with inputs := pseudoInputs (.wr64 x v) } = .next t ∧
      hiLo (t.data.get x.hi) (t.data.get x.lo) = v ∧
      ∀ r, r ≠ x.hi → r ≠ x.lo → t.data.get r = s.data.get r) ∧
    (∀ bs : List Byte, bs.length ≤ 16 → ∃ t,
      Host.Core.run core 4 { s with inputs := pseudoInputs (.wrnonce bs) } = .next t ∧
      ∀ j, j < 16 → t.nonceByte j = bs.getD j 0) ∧
    (∀ bs : List Byte, bs.length ≤ 16 → ∃ t,
      Host.Core.run core 4 { s with inputs := pseudoInputs (.wrtag bs) } = .next t ∧
      ∀ j, j < 16 → t.tagByte j = bs.getD j 0) ∧
    (∃ t, Host.Core.run core 1 { s with inputs := pseudoInputs .ack } = .next t ∧
      t.status = ⟨false, false, s.status.result⟩) ∧
    ((pseudoInputs .rdtag).length = 4 ∧ ∀ k, k < 4 → ∃ t,
      Host.Core.run core (k + 1) { s with inputs := pseudoInputs .rdtag } = .next t ∧
      t.data = s.data ∧ ∀ j, j < 4 → wordByte t.rdata j = s.tagByte (4 * k + j)) ∧
    Host.Core.run core 1 { s with inputs := pseudoInputs .encrypt } =
      exec .encrypt { s with inputs := [] } ∧
    Host.Core.run core 1 { s with inputs := pseudoInputs .decrypt } =
      exec .decrypt { s with inputs := [] }

/-- 30_encoding.md R90 (`wait`): a poll of STATUS.DONE ends when DONE = 1; while DONE = 0 it stays, and
the model lets the engine take one turn before the next read (log 18). -/
def Obligations.WaitPollsDone : Prop :=
  ∀ (s : State) (rest : List Input), s.inputs = pseudoInputs .wait ++ rest →
    (s.status.done = true → ∃ t, step s = .next t ∧ t.inputs = rest ∧ t.st = s.st ∧
      t.status = s.status) ∧
    (s.status.done = false → ∃ t, step s = .next t ∧ t.inputs = .engine :: s.inputs ∧ t.st = s.st ∧
      t.status = s.status)

/-! ## Invariants -/

/-- 10_state.md R37, R38, 60_exceptions.md R234, 41_nonce_formatter.md R138, 42_mac_aad.md R153: every step
of any agent keeps the sequencer's invariant. -/
def Obligations.StepKeepsSequencerInvariant : Prop :=
  ∀ s t : State, s.SeqInv → step s = .next t → t.SeqInv

/-- 70_reset_and_hazards.md R260: the sequencer's invariant holds after reset. -/
def Obligations.ResetHasSequencerInvariant : Prop := State.reset.SeqInv

/-- Every step keeps memory, and every older memory a host may see, in the canonical form. That form is the
model's representation of the memory of 20_memory.md R60 (log 3), and the older memories are log 10. -/
def Obligations.StepKeepsMemoryCanonical : Prop :=
  ∀ s t : State, s.MemInv → step s = .next t → t.MemInv

/-- The canonical form holds after reset, whose memory lists nothing (log 3). -/
def Obligations.ResetMemoryCanonical : Prop := State.reset.MemInv

/-- 45_decrypt.md R207: release only after authentication, kept by every step. -/
def Obligations.StepKeepsReleaseRule : Prop :=
  (∀ s t : State, s.SeqInv → s.ReleaseInv → step s = .next t → t.ReleaseInv) ∧
  State.reset.ReleaseInv

/-- 45_decrypt.md R207: the engine writes memory in no phase but ENC and DEC2, and issues no write request
in any other. -/
def Obligations.OnlyEncAndDec2WriteMemory : Prop :=
  ∀ s t : State, s.inputs = [] → step s = .next t → s.st.phase ≠ .enc → s.st.phase ≠ .dec2 →
    t.mem = s.mem ∧ ∃ new : List MemRequest, t.requests = new ++ s.requests ∧ new.length ≤ 1 ∧
      ∀ r ∈ new, r.kind = .rd

/-- 40_commands.md R102 and 41_nonce_formatter.md R136: while BUSY = 1 no step but a reset changes CTRL or a
data register, except that the FINAL step of an ENCRYPT writes TAG0..TAG3. STATUS does change. -/
def Obligations.RegistersStableWhileBusy : Prop :=
  ∀ s t : State, s.st.phase ≠ .idle → step s = .next t →
    (∀ rest, s.inputs ≠ .reset :: rest ∧ s.inputs ≠ .resetCut :: rest) →
    t.ctrl = s.ctrl ∧
    (∀ r, r ≠ .tag0 → r ≠ .tag1 → r ≠ .tag2 → r ≠ .tag3 → t.data.get r = s.data.get r) ∧
    (t.data ≠ s.data → s.st.phase = .final ∧ s.st.op = .enc)

/-- 40_commands.md R110: the next phase of every engine step. -/
def Obligations.SequencerControlFlow : Prop :=
  ∀ s t : State, s.SeqInv → s.inputs = [] → step s = .next t →
    let entry : Phase := if msgBlocks s.mlen = 0 then .final
      else if s.st.op = .enc then .enc else .dec1
    (s.st.phase = .idle → t.st.phase = .idle) ∧
    (s.st.phase = .check → (s.ContractOk → t.st.phase = .b0) ∧
      (¬ s.ContractOk → t.st.phase = .wipe)) ∧
    (s.st.phase = .b0 → t.st.phase = if 0 < s.alen then .aad else entry) ∧
    (s.st.phase = .aad → t.st.phase =
      if s.busOk (s.aadRequest s.st.aj.toNat) = false then .wipe
      else if t.st.aj.toNat < aadBlocks s.alen then .aad else entry) ∧
    (s.st.phase = .enc → t.st.phase =
      if s.busOk (s.readRequest s.st.ctr.toNat) = false ∨
        s.busOk (s.writeRequest s.st.ctr.toNat) = false then .wipe
      else if t.st.ctr.toNat ≤ msgBlocks s.mlen then .enc else .final) ∧
    (s.st.phase = .dec1 → t.st.phase =
      if s.busOk (s.readRequest s.st.ctr.toNat) = false then .wipe
      else if t.st.ctr.toNat ≤ msgBlocks s.mlen then .dec1 else .final) ∧
    (s.st.phase = .final → t.st.phase = if s.st.op = .enc then .wipe else .verify) ∧
    (s.st.phase = .verify → t.st.phase =
      if s.st.cand = s.tagReg ∧ 0 < msgBlocks s.mlen then .dec2 else .wipe) ∧
    (s.st.phase = .dec2 → t.st.phase =
      if s.busOk (s.readRequest s.st.ctr.toNat) = false ∨
        s.busOk (s.writeRequest s.st.ctr.toNat) = false then .wipe
      else if t.st.ctr.toNat ≤ msgBlocks s.mlen then .dec2 else .wipe) ∧
    (s.st.phase = .wipe → t.st.phase = .idle)

/-- 70_reset_and_hazards.md R271 and 43_payload_encrypt.md R174: two engines that agree on the operation,
the lengths, the addresses and the bus responses, on the phase, the indices, the pending result, the
requests made and the number of cipher calls, and in VERIFY on the verdict, agree on all of these after
one step again, whatever their nonce, tag, memory and key. -/
def Obligations.ControlIndependentOfData : Prop :=
  ∀ s t s' t' : State, s.SameControl t →
    (s.st.phase = .verify → (s.st.cand = s.tagReg ↔ t.st.cand = t.tagReg)) →
    step s = .next s' → step t = .next t' → s'.SameControl t'

/-! ## Whole commands -/

/-- With no host access between the engine steps (40_commands.md R111, 43_payload_encrypt.md R172,
70_reset_and_hazards.md R270, the ENCRYPT row): an ENCRYPT whose checks pass and whose requests are all answered ok, with the output equal to the input
buffer or disjoint from it, ends after 4 + ablk + nblk engine steps with RESULT = OK, the tag and the
ciphertext of CCM_Enc over the bytes memory held at the start, every other byte of memory unchanged. -/
def Obligations.EncryptComputesCcm : Prop :=
  ∀ s t0 : State, s.st = Engine.idle → s.inputs = [] → s.ContractOk →
    (∀ j, j < aadBlocks s.alen → s.busOk (s.aadRequest j) = true) →
    (∀ i, 1 ≤ i → i ≤ msgBlocks s.mlen →
      s.busOk (s.readRequest i) = true ∧ s.busOk (s.writeRequest i) = true) →
    (s.outAddr = s.inAddr ∨
      ∀ a, inBuffer s.inAddr s.mlen a = true → inBuffer s.outAddr s.mlen a = false) →
    exec .encrypt s = .next t0 →
    let A := Memory.readBytes s.mem s.aadAddr s.alen
    let P := Memory.readBytes s.mem s.inAddr s.mlen
    let R := ccmEnc (Config.cipher s.key) s.nonce A P
    ∃ t, Host.Core.run core (4 + aadBlocks s.alen + msgBlocks s.mlen) t0 = .next t ∧
      t.st = Engine.idle ∧ t.status.done = true ∧ t.status.result = .ok ∧ t.tagReg = R.2 ∧
      Memory.readBytes t.mem s.outAddr s.mlen = R.1 ∧
      (∀ a, inBuffer s.outAddr s.mlen a = false → Memory.byte t.mem a = Memory.byte s.mem a) ∧
      t.calls.length = 2 + aadBlocks s.alen + 2 * msgBlocks s.mlen ∧
      t.requests.reverse = (List.range (aadBlocks s.alen)).map s.aadRequest ++
        (List.range (msgBlocks s.mlen)).flatMap fun i =>
          [s.readRequest (i + 1), s.writeRequest (i + 1)]

/-- With no host access between the engine steps (40_commands.md R112, 45_decrypt.md R207, R208,
70_reset_and_hazards.md R270, the two DECRYPT rows): a DECRYPT under the same conditions ends with OK and the plaintext when the computed tag is the tag
supplied, and with AUTHENTICATION_FAILURE and every byte of memory unchanged when it is not; the data
registers, the tag among them, are as they were. -/
def Obligations.DecryptComputesCcm : Prop :=
  ∀ s t0 : State, s.st = Engine.idle → s.inputs = [] → s.ContractOk →
    (∀ j, j < aadBlocks s.alen → s.busOk (s.aadRequest j) = true) →
    (∀ i, 1 ≤ i → i ≤ msgBlocks s.mlen →
      s.busOk (s.readRequest i) = true ∧ s.busOk (s.writeRequest i) = true) →
    (s.outAddr = s.inAddr ∨
      ∀ a, inBuffer s.inAddr s.mlen a = true → inBuffer s.outAddr s.mlen a = false) →
    exec .decrypt s = .next t0 →
    let A := Memory.readBytes s.mem s.aadAddr s.alen
    let C := Memory.readBytes s.mem s.inAddr s.mlen
    (∀ P, ccmDec (Config.cipher s.key) s.nonce A C s.tagReg = some P →
      ∃ t, Host.Core.run core (5 + aadBlocks s.alen + 2 * msgBlocks s.mlen) t0 = .next t ∧
        t.st = Engine.idle ∧ t.status.done = true ∧ t.status.result = .ok ∧ t.data = s.data ∧
        Memory.readBytes t.mem s.outAddr s.mlen = P ∧
        (∀ a, inBuffer s.outAddr s.mlen a = false → Memory.byte t.mem a = Memory.byte s.mem a) ∧
        t.calls.length = 2 + aadBlocks s.alen + 3 * msgBlocks s.mlen ∧
        t.requests.reverse = (List.range (aadBlocks s.alen)).map s.aadRequest ++
          (List.range (msgBlocks s.mlen)).map (fun i => s.readRequest (i + 1)) ++
          (List.range (msgBlocks s.mlen)).flatMap fun i =>
            [s.readRequest (i + 1), s.writeRequest (i + 1)]) ∧
    (ccmDec (Config.cipher s.key) s.nonce A C s.tagReg = none →
      ∃ t, Host.Core.run core (5 + aadBlocks s.alen + msgBlocks s.mlen) t0 = .next t ∧
        t.st = Engine.idle ∧ t.status.done = true ∧ t.status.result = .authenticationFailure ∧
        t.data = s.data ∧ t.mem = s.mem ∧
        t.calls.length = 2 + aadBlocks s.alen + 2 * msgBlocks s.mlen ∧
        t.requests.reverse = (List.range (aadBlocks s.alen)).map s.aadRequest ++
          (List.range (msgBlocks s.mlen)).map fun i => s.readRequest (i + 1))

/-- 40_commands.md R113 (round trip): CCM_Dec of what CCM_Enc gives is the plaintext, for every E. -/
def Obligations.CcmRoundTrip : Prop :=
  ∀ (E : Block → Block) (nonce A P : List Byte),
    ccmDec E nonce A (ccmEnc E nonce A P).1 (ccmEnc E nonce A P).2 = some P

/-- 60_exceptions.md R230, R232, R241 and 70_reset_and_hazards.md R270 (the contract violation row): a
command that violates the contract ends after two engine steps with the code of the first test that
fails, no request, no cipher call, and registers and memory untouched. -/
def Obligations.ContractViolationLeaksNothing : Prop :=
  ∀ (s t0 : State) (i : Instr), i = .encrypt ∨ i = .decrypt → s.st = Engine.idle → s.inputs = [] →
    ¬ s.ContractOk → exec i s = .next t0 →
    ∃ t, Host.Core.run core 2 t0 = .next t ∧ t.st = Engine.idle ∧ t.data = s.data ∧
      t.ctrl = s.ctrl ∧ t.mem = s.mem ∧ t.requests = [] ∧ t.calls = [] ∧ t.steps = 2 ∧
      t.status = { s.status with
        done := true
        result := if s.nonceLen < 7 ∨ 13 < s.nonceLen then .invalidNonceLength
          else if 2 ^ (8 * s.lenSize) ≤ s.mlen then .messageTooLarge else .aadTooLarge }

/-- 40_commands.md R109 and 70_reset_and_hazards.md R270: from every busy state the rules can reach, with no
other agent moving, the command completes within 5 + ablk + 2*nblk engine steps. -/
def Obligations.BusyCommandCompletes : Prop :=
  ∀ s : State, s.SeqInv → s.st.phase ≠ .idle → s.inputs = [] →
    ∃ k t, k ≤ 5 + aadBlocks s.alen + 2 * msgBlocks s.mlen ∧ Host.Core.run core k s = .next t ∧
      t.st = Engine.idle ∧ t.status.done = true

/-! ## Memory -/

/-- 20_memory.md R62, R65, R67: a byte string written at an address is byte k at (a + k) mod 2^64, and no
other byte changes. -/
def Obligations.ByteStringsInMemory : Prop :=
  ∀ (m : Memory) (a : Addr) (w : List Byte), w.length ≤ 16 →
    (∀ k (h : k < w.length), Memory.byte (Memory.writeBytes m a w) (a + BitVec.ofNat 64 k) = w[k]) ∧
    (∀ x, inBuffer a w.length x = false →
      Memory.byte (Memory.writeBytes m a w) x = Memory.byte m x) ∧
    Memory.readBytes (Memory.writeBytes m a w) a w.length = w

/-! ## The other agents during a command -/

/-- 20_memory.md R74, 70_reset_and_hazards.md R266: a store to an output byte while BUSY = 1 is a race. The
byte holds the value stored or, where the engine has written it or the store is put off past the next
move, what it held; other bytes are as before; a load may return the byte stored and whatever it could
return before. When such a store lands is log 23. -/
def Obligations.OutputStoreRaces : Prop :=
  ∀ (s : State) (rest : List Input) (a : Addr) (b : Byte), s.inputs = .store a b :: rest →
    s.busy = true → inBuffer s.aadAddr s.alen a = false → inBuffer s.inAddr s.mlen a = false →
    inBuffer s.outAddr s.mlen a = true →
    ∃ m vs l, step s = .next { s with mem := m, views := vs, inputs := l, draws := s.draws + 1 } ∧
      (Memory.byte m a = b ∧ l = rest ∨
        Memory.byte m a = Memory.byte s.mem a ∧
          (s.engineWrote a = true ∧ l = rest ∨
            s.engineWrote a = false ∧ l = putOff (.store a b) rest)) ∧
      (∀ x, x ≠ a → Memory.byte m x = Memory.byte s.mem x) ∧
      ∀ x c, ({ s with mem := m, views := vs } : State).Admits x c ↔
        s.Admits x c ∨ (x = a ∧ c = b)

/-- 40_commands.md R102, R109, 70_reset_and_hazards.md R265 to R267: any number of host accesses, loads, stores
and irq samples may come between two engine steps of a command; none of them changes the engine state,
what the engine reads (CTRL, the data registers, the AAD and input bytes, the key and the bus responses)
or what it has put on its ports. -/
def Obligations.OtherAgentsLeaveCommandAlone : Prop :=
  ∀ (s t : State) (x : Input) (rest : List Input), s.busy = true → s.inputs = x :: rest →
    x ≠ .engine → x ≠ .reset → x ≠ .resetCut → (∀ errs, x ≠ .answer errs) → step s = .next t →
    t.st = s.st ∧ t.ctrl = s.ctrl ∧ t.data = s.data ∧ t.key = s.key ∧ t.busErr = s.busErr ∧
      t.requests = s.requests ∧ t.calls = s.calls ∧ t.status.result = s.status.result ∧
      ∀ a, inBuffer s.aadAddr s.alen a = true ∨ inBuffer s.inAddr s.mlen a = true →
        Memory.byte t.mem a = Memory.byte s.mem a
end

