-- ==== Sys2Proof/Laws/State.lean ====
section
/-! SUPPORT. What each shared update of the state does to each field, one lemma per field, so that no later
proof unfolds a record update. -/

namespace Sys2Proof.Machine

/-! ## State.logRequest -/

@[simp] theorem State.logRequest_ctrl (r : MemRequest) (s : State) : (s.logRequest r).ctrl = s.ctrl := rfl
@[simp] theorem State.logRequest_status (r : MemRequest) (s : State) : (s.logRequest r).status = s.status := rfl
@[simp] theorem State.logRequest_data (r : MemRequest) (s : State) : (s.logRequest r).data = s.data := rfl
@[simp] theorem State.logRequest_st (r : MemRequest) (s : State) : (s.logRequest r).st = s.st := rfl
@[simp] theorem State.logRequest_mem (r : MemRequest) (s : State) : (s.logRequest r).mem = s.mem := rfl
@[simp] theorem State.logRequest_busErr (r : MemRequest) (s : State) : (s.logRequest r).busErr = s.busErr := rfl
@[simp] theorem State.logRequest_key (r : MemRequest) (s : State) : (s.logRequest r).key = s.key := rfl
@[simp] theorem State.logRequest_inputs (r : MemRequest) (s : State) : (s.logRequest r).inputs = s.inputs := rfl
@[simp] theorem State.logRequest_rdata (r : MemRequest) (s : State) : (s.logRequest r).rdata = s.rdata := rfl
@[simp] theorem State.logRequest_views (r : MemRequest) (s : State) : (s.logRequest r).views = s.views := rfl
@[simp] theorem State.logRequest_hostByte (r : MemRequest) (s : State) : (s.logRequest r).hostByte = s.hostByte := rfl
@[simp] theorem State.logRequest_draws (r : MemRequest) (s : State) : (s.logRequest r).draws = s.draws := rfl
@[simp] theorem State.logRequest_requests (r : MemRequest) (s : State) : (s.logRequest r).requests = r :: s.requests := rfl
@[simp] theorem State.logRequest_calls (r : MemRequest) (s : State) : (s.logRequest r).calls = s.calls := rfl
@[simp] theorem State.logRequest_steps (r : MemRequest) (s : State) : (s.logRequest r).steps = s.steps := rfl
@[simp] theorem State.logRequest_nonceLen (r : MemRequest) (s : State) : (s.logRequest r).nonceLen = s.nonceLen := rfl
@[simp] theorem State.logRequest_lenSize (r : MemRequest) (s : State) : (s.logRequest r).lenSize = s.lenSize := rfl
@[simp] theorem State.logRequest_nonce (r : MemRequest) (s : State) : (s.logRequest r).nonce = s.nonce := rfl
@[simp] theorem State.logRequest_aadAddr (r : MemRequest) (s : State) : (s.logRequest r).aadAddr = s.aadAddr := rfl
@[simp] theorem State.logRequest_inAddr (r : MemRequest) (s : State) : (s.logRequest r).inAddr = s.inAddr := rfl
@[simp] theorem State.logRequest_outAddr (r : MemRequest) (s : State) : (s.logRequest r).outAddr = s.outAddr := rfl
@[simp] theorem State.logRequest_alen (r : MemRequest) (s : State) : (s.logRequest r).alen = s.alen := rfl
@[simp] theorem State.logRequest_mlen (r : MemRequest) (s : State) : (s.logRequest r).mlen = s.mlen := rfl

/-! ## raise -/

@[simp] theorem raise_ctrl (c : Result) (s : State) : (raise c s).ctrl = s.ctrl := rfl
@[simp] theorem raise_status (c : Result) (s : State) : (raise c s).status = s.status := rfl
@[simp] theorem raise_data (c : Result) (s : State) : (raise c s).data = s.data := rfl
@[simp] theorem raise_mem (c : Result) (s : State) : (raise c s).mem = s.mem := rfl
@[simp] theorem raise_busErr (c : Result) (s : State) : (raise c s).busErr = s.busErr := rfl
@[simp] theorem raise_key (c : Result) (s : State) : (raise c s).key = s.key := rfl
@[simp] theorem raise_inputs (c : Result) (s : State) : (raise c s).inputs = s.inputs := rfl
@[simp] theorem raise_rdata (c : Result) (s : State) : (raise c s).rdata = s.rdata := rfl
@[simp] theorem raise_views (c : Result) (s : State) : (raise c s).views = s.views := rfl
@[simp] theorem raise_hostByte (c : Result) (s : State) : (raise c s).hostByte = s.hostByte := rfl
@[simp] theorem raise_draws (c : Result) (s : State) : (raise c s).draws = s.draws := rfl
@[simp] theorem raise_requests (c : Result) (s : State) : (raise c s).requests = s.requests := rfl
@[simp] theorem raise_calls (c : Result) (s : State) : (raise c s).calls = s.calls := rfl
@[simp] theorem raise_steps (c : Result) (s : State) : (raise c s).steps = s.steps := rfl
@[simp] theorem raise_st_phase (c : Result) (s : State) : (raise c s).st.phase = .wipe := rfl
@[simp] theorem raise_st_op (c : Result) (s : State) : (raise c s).st.op = s.st.op := rfl
@[simp] theorem raise_st_ctr (c : Result) (s : State) : (raise c s).st.ctr = s.st.ctr := rfl
@[simp] theorem raise_st_aj (c : Result) (s : State) : (raise c s).st.aj = s.st.aj := rfl
@[simp] theorem raise_st_pend (c : Result) (s : State) : (raise c s).st.pend = c := rfl
@[simp] theorem raise_st_mac (c : Result) (s : State) : (raise c s).st.mac = s.st.mac := rfl
@[simp] theorem raise_st_s0 (c : Result) (s : State) : (raise c s).st.s0 = s.st.s0 := rfl
@[simp] theorem raise_st_ks (c : Result) (s : State) : (raise c s).st.ks = s.st.ks := rfl
@[simp] theorem raise_st_blk (c : Result) (s : State) : (raise c s).st.blk = s.st.blk := rfl
@[simp] theorem raise_st_cand (c : Result) (s : State) : (raise c s).st.cand = s.st.cand := rfl
@[simp] theorem raise_nonceLen (c : Result) (s : State) : (raise c s).nonceLen = s.nonceLen := rfl
@[simp] theorem raise_lenSize (c : Result) (s : State) : (raise c s).lenSize = s.lenSize := rfl
@[simp] theorem raise_nonce (c : Result) (s : State) : (raise c s).nonce = s.nonce := rfl
@[simp] theorem raise_aadAddr (c : Result) (s : State) : (raise c s).aadAddr = s.aadAddr := rfl
@[simp] theorem raise_inAddr (c : Result) (s : State) : (raise c s).inAddr = s.inAddr := rfl
@[simp] theorem raise_outAddr (c : Result) (s : State) : (raise c s).outAddr = s.outAddr := rfl
@[simp] theorem raise_alen (c : Result) (s : State) : (raise c s).alen = s.alen := rfl
@[simp] theorem raise_mlen (c : Result) (s : State) : (raise c s).mlen = s.mlen := rfl

/-! ## State.toPhase -/

@[simp] theorem State.toPhase_ctrl (p : Phase) (s : State) : (s.toPhase p).ctrl = s.ctrl := rfl
@[simp] theorem State.toPhase_status (p : Phase) (s : State) : (s.toPhase p).status = s.status := rfl
@[simp] theorem State.toPhase_data (p : Phase) (s : State) : (s.toPhase p).data = s.data := rfl
@[simp] theorem State.toPhase_mem (p : Phase) (s : State) : (s.toPhase p).mem = s.mem := rfl
@[simp] theorem State.toPhase_busErr (p : Phase) (s : State) : (s.toPhase p).busErr = s.busErr := rfl
@[simp] theorem State.toPhase_key (p : Phase) (s : State) : (s.toPhase p).key = s.key := rfl
@[simp] theorem State.toPhase_inputs (p : Phase) (s : State) : (s.toPhase p).inputs = s.inputs := rfl
@[simp] theorem State.toPhase_rdata (p : Phase) (s : State) : (s.toPhase p).rdata = s.rdata := rfl
@[simp] theorem State.toPhase_views (p : Phase) (s : State) : (s.toPhase p).views = s.views := rfl
@[simp] theorem State.toPhase_hostByte (p : Phase) (s : State) : (s.toPhase p).hostByte = s.hostByte := rfl
@[simp] theorem State.toPhase_draws (p : Phase) (s : State) : (s.toPhase p).draws = s.draws := rfl
@[simp] theorem State.toPhase_requests (p : Phase) (s : State) : (s.toPhase p).requests = s.requests := rfl
@[simp] theorem State.toPhase_calls (p : Phase) (s : State) : (s.toPhase p).calls = s.calls := rfl
@[simp] theorem State.toPhase_steps (p : Phase) (s : State) : (s.toPhase p).steps = s.steps := rfl
@[simp] theorem State.toPhase_st_phase (p : Phase) (s : State) : (s.toPhase p).st.phase = p := rfl
@[simp] theorem State.toPhase_st_op (p : Phase) (s : State) : (s.toPhase p).st.op = s.st.op := rfl
@[simp] theorem State.toPhase_st_ctr (p : Phase) (s : State) : (s.toPhase p).st.ctr = s.st.ctr := rfl
@[simp] theorem State.toPhase_st_aj (p : Phase) (s : State) : (s.toPhase p).st.aj = s.st.aj := rfl
@[simp] theorem State.toPhase_st_pend (p : Phase) (s : State) : (s.toPhase p).st.pend = s.st.pend := rfl
@[simp] theorem State.toPhase_st_mac (p : Phase) (s : State) : (s.toPhase p).st.mac = s.st.mac := rfl
@[simp] theorem State.toPhase_st_s0 (p : Phase) (s : State) : (s.toPhase p).st.s0 = s.st.s0 := rfl
@[simp] theorem State.toPhase_st_ks (p : Phase) (s : State) : (s.toPhase p).st.ks = s.st.ks := rfl
@[simp] theorem State.toPhase_st_blk (p : Phase) (s : State) : (s.toPhase p).st.blk = s.st.blk := rfl
@[simp] theorem State.toPhase_st_cand (p : Phase) (s : State) : (s.toPhase p).st.cand = s.st.cand := rfl
@[simp] theorem State.toPhase_nonceLen (p : Phase) (s : State) : (s.toPhase p).nonceLen = s.nonceLen := rfl
@[simp] theorem State.toPhase_lenSize (p : Phase) (s : State) : (s.toPhase p).lenSize = s.lenSize := rfl
@[simp] theorem State.toPhase_nonce (p : Phase) (s : State) : (s.toPhase p).nonce = s.nonce := rfl
@[simp] theorem State.toPhase_aadAddr (p : Phase) (s : State) : (s.toPhase p).aadAddr = s.aadAddr := rfl
@[simp] theorem State.toPhase_inAddr (p : Phase) (s : State) : (s.toPhase p).inAddr = s.inAddr := rfl
@[simp] theorem State.toPhase_outAddr (p : Phase) (s : State) : (s.toPhase p).outAddr = s.outAddr := rfl
@[simp] theorem State.toPhase_alen (p : Phase) (s : State) : (s.toPhase p).alen = s.alen := rfl
@[simp] theorem State.toPhase_mlen (p : Phase) (s : State) : (s.toPhase p).mlen = s.mlen := rfl

/-! ## absorb -/

@[simp] theorem absorb_ctrl (E : Block → Block) (x : Block) (s : State) : (absorb E x s).ctrl = s.ctrl := rfl
@[simp] theorem absorb_status (E : Block → Block) (x : Block) (s : State) : (absorb E x s).status = s.status := rfl
@[simp] theorem absorb_data (E : Block → Block) (x : Block) (s : State) : (absorb E x s).data = s.data := rfl
@[simp] theorem absorb_mem (E : Block → Block) (x : Block) (s : State) : (absorb E x s).mem = s.mem := rfl
@[simp] theorem absorb_busErr (E : Block → Block) (x : Block) (s : State) : (absorb E x s).busErr = s.busErr := rfl
@[simp] theorem absorb_key (E : Block → Block) (x : Block) (s : State) : (absorb E x s).key = s.key := rfl
@[simp] theorem absorb_inputs (E : Block → Block) (x : Block) (s : State) : (absorb E x s).inputs = s.inputs := rfl
@[simp] theorem absorb_rdata (E : Block → Block) (x : Block) (s : State) : (absorb E x s).rdata = s.rdata := rfl
@[simp] theorem absorb_views (E : Block → Block) (x : Block) (s : State) : (absorb E x s).views = s.views := rfl
@[simp] theorem absorb_hostByte (E : Block → Block) (x : Block) (s : State) : (absorb E x s).hostByte = s.hostByte := rfl
@[simp] theorem absorb_draws (E : Block → Block) (x : Block) (s : State) : (absorb E x s).draws = s.draws := rfl
@[simp] theorem absorb_requests (E : Block → Block) (x : Block) (s : State) : (absorb E x s).requests = s.requests := rfl
@[simp] theorem absorb_calls (E : Block → Block) (x : Block) (s : State) : (absorb E x s).calls = xorBlock s.st.mac x :: s.calls := rfl
@[simp] theorem absorb_steps (E : Block → Block) (x : Block) (s : State) : (absorb E x s).steps = s.steps := rfl
@[simp] theorem absorb_st_phase (E : Block → Block) (x : Block) (s : State) : (absorb E x s).st.phase = s.st.phase := rfl
@[simp] theorem absorb_st_op (E : Block → Block) (x : Block) (s : State) : (absorb E x s).st.op = s.st.op := rfl
@[simp] theorem absorb_st_ctr (E : Block → Block) (x : Block) (s : State) : (absorb E x s).st.ctr = s.st.ctr := rfl
@[simp] theorem absorb_st_aj (E : Block → Block) (x : Block) (s : State) : (absorb E x s).st.aj = s.st.aj := rfl
@[simp] theorem absorb_st_pend (E : Block → Block) (x : Block) (s : State) : (absorb E x s).st.pend = s.st.pend := rfl
@[simp] theorem absorb_st_mac (E : Block → Block) (x : Block) (s : State) : (absorb E x s).st.mac = E (xorBlock s.st.mac x) := rfl
@[simp] theorem absorb_st_s0 (E : Block → Block) (x : Block) (s : State) : (absorb E x s).st.s0 = s.st.s0 := rfl
@[simp] theorem absorb_st_ks (E : Block → Block) (x : Block) (s : State) : (absorb E x s).st.ks = s.st.ks := rfl
@[simp] theorem absorb_st_blk (E : Block → Block) (x : Block) (s : State) : (absorb E x s).st.blk = x := rfl
@[simp] theorem absorb_st_cand (E : Block → Block) (x : Block) (s : State) : (absorb E x s).st.cand = s.st.cand := rfl
@[simp] theorem absorb_nonceLen (E : Block → Block) (x : Block) (s : State) : (absorb E x s).nonceLen = s.nonceLen := rfl
@[simp] theorem absorb_lenSize (E : Block → Block) (x : Block) (s : State) : (absorb E x s).lenSize = s.lenSize := rfl
@[simp] theorem absorb_nonce (E : Block → Block) (x : Block) (s : State) : (absorb E x s).nonce = s.nonce := rfl
@[simp] theorem absorb_aadAddr (E : Block → Block) (x : Block) (s : State) : (absorb E x s).aadAddr = s.aadAddr := rfl
@[simp] theorem absorb_inAddr (E : Block → Block) (x : Block) (s : State) : (absorb E x s).inAddr = s.inAddr := rfl
@[simp] theorem absorb_outAddr (E : Block → Block) (x : Block) (s : State) : (absorb E x s).outAddr = s.outAddr := rfl
@[simp] theorem absorb_alen (E : Block → Block) (x : Block) (s : State) : (absorb E x s).alen = s.alen := rfl
@[simp] theorem absorb_mlen (E : Block → Block) (x : Block) (s : State) : (absorb E x s).mlen = s.mlen := rfl

/-! ## keystream -/

@[simp] theorem keystream_ctrl (E : Block → Block) (i : Nat) (s : State) : (keystream E i s).ctrl = s.ctrl := rfl
@[simp] theorem keystream_status (E : Block → Block) (i : Nat) (s : State) : (keystream E i s).status = s.status := rfl
@[simp] theorem keystream_data (E : Block → Block) (i : Nat) (s : State) : (keystream E i s).data = s.data := rfl
@[simp] theorem keystream_mem (E : Block → Block) (i : Nat) (s : State) : (keystream E i s).mem = s.mem := rfl
@[simp] theorem keystream_busErr (E : Block → Block) (i : Nat) (s : State) : (keystream E i s).busErr = s.busErr := rfl
@[simp] theorem keystream_key (E : Block → Block) (i : Nat) (s : State) : (keystream E i s).key = s.key := rfl
@[simp] theorem keystream_inputs (E : Block → Block) (i : Nat) (s : State) : (keystream E i s).inputs = s.inputs := rfl
@[simp] theorem keystream_rdata (E : Block → Block) (i : Nat) (s : State) : (keystream E i s).rdata = s.rdata := rfl
@[simp] theorem keystream_views (E : Block → Block) (i : Nat) (s : State) : (keystream E i s).views = s.views := rfl
@[simp] theorem keystream_hostByte (E : Block → Block) (i : Nat) (s : State) : (keystream E i s).hostByte = s.hostByte := rfl
@[simp] theorem keystream_draws (E : Block → Block) (i : Nat) (s : State) : (keystream E i s).draws = s.draws := rfl
@[simp] theorem keystream_requests (E : Block → Block) (i : Nat) (s : State) : (keystream E i s).requests = s.requests := rfl
@[simp] theorem keystream_calls (E : Block → Block) (i : Nat) (s : State) : (keystream E i s).calls = ctrBlock s.nonce i :: s.calls := rfl
@[simp] theorem keystream_steps (E : Block → Block) (i : Nat) (s : State) : (keystream E i s).steps = s.steps := rfl
@[simp] theorem keystream_st_phase (E : Block → Block) (i : Nat) (s : State) : (keystream E i s).st.phase = s.st.phase := rfl
@[simp] theorem keystream_st_op (E : Block → Block) (i : Nat) (s : State) : (keystream E i s).st.op = s.st.op := rfl
@[simp] theorem keystream_st_ctr (E : Block → Block) (i : Nat) (s : State) : (keystream E i s).st.ctr = s.st.ctr := rfl
@[simp] theorem keystream_st_aj (E : Block → Block) (i : Nat) (s : State) : (keystream E i s).st.aj = s.st.aj := rfl
@[simp] theorem keystream_st_pend (E : Block → Block) (i : Nat) (s : State) : (keystream E i s).st.pend = s.st.pend := rfl
@[simp] theorem keystream_st_mac (E : Block → Block) (i : Nat) (s : State) : (keystream E i s).st.mac = s.st.mac := rfl
@[simp] theorem keystream_st_s0 (E : Block → Block) (i : Nat) (s : State) : (keystream E i s).st.s0 = s.st.s0 := rfl
@[simp] theorem keystream_st_ks (E : Block → Block) (i : Nat) (s : State) : (keystream E i s).st.ks = E (ctrBlock s.nonce i) := rfl
@[simp] theorem keystream_st_blk (E : Block → Block) (i : Nat) (s : State) : (keystream E i s).st.blk = s.st.blk := rfl
@[simp] theorem keystream_st_cand (E : Block → Block) (i : Nat) (s : State) : (keystream E i s).st.cand = s.st.cand := rfl
@[simp] theorem keystream_nonceLen (E : Block → Block) (i : Nat) (s : State) : (keystream E i s).nonceLen = s.nonceLen := rfl
@[simp] theorem keystream_lenSize (E : Block → Block) (i : Nat) (s : State) : (keystream E i s).lenSize = s.lenSize := rfl
@[simp] theorem keystream_nonce (E : Block → Block) (i : Nat) (s : State) : (keystream E i s).nonce = s.nonce := rfl
@[simp] theorem keystream_aadAddr (E : Block → Block) (i : Nat) (s : State) : (keystream E i s).aadAddr = s.aadAddr := rfl
@[simp] theorem keystream_inAddr (E : Block → Block) (i : Nat) (s : State) : (keystream E i s).inAddr = s.inAddr := rfl
@[simp] theorem keystream_outAddr (E : Block → Block) (i : Nat) (s : State) : (keystream E i s).outAddr = s.outAddr := rfl
@[simp] theorem keystream_alen (E : Block → Block) (i : Nat) (s : State) : (keystream E i s).alen = s.alen := rfl
@[simp] theorem keystream_mlen (E : Block → Block) (i : Nat) (s : State) : (keystream E i s).mlen = s.mlen := rfl

/-! ## complete -/

@[simp] theorem complete_ctrl (s : State) : (complete s).ctrl = s.ctrl := rfl
@[simp] theorem complete_status (s : State) : (complete s).status = { s.status with result := s.st.pend, done := true } := rfl
@[simp] theorem complete_data (s : State) : (complete s).data = s.data := rfl
@[simp] theorem complete_st (s : State) : (complete s).st = Engine.idle := rfl
@[simp] theorem complete_mem (s : State) : (complete s).mem = s.mem := rfl
@[simp] theorem complete_busErr (s : State) : (complete s).busErr = s.busErr := rfl
@[simp] theorem complete_key (s : State) : (complete s).key = s.key := rfl
@[simp] theorem complete_inputs (s : State) : (complete s).inputs = s.inputs := rfl
@[simp] theorem complete_rdata (s : State) : (complete s).rdata = s.rdata := rfl
@[simp] theorem complete_views (s : State) : (complete s).views = s.views := rfl
@[simp] theorem complete_hostByte (s : State) : (complete s).hostByte = s.hostByte := rfl
@[simp] theorem complete_draws (s : State) : (complete s).draws = s.draws := rfl
@[simp] theorem complete_requests (s : State) : (complete s).requests = s.requests := rfl
@[simp] theorem complete_calls (s : State) : (complete s).calls = s.calls := rfl
@[simp] theorem complete_steps (s : State) : (complete s).steps = s.steps := rfl
@[simp] theorem complete_nonceLen (s : State) : (complete s).nonceLen = s.nonceLen := rfl
@[simp] theorem complete_lenSize (s : State) : (complete s).lenSize = s.lenSize := rfl
@[simp] theorem complete_nonce (s : State) : (complete s).nonce = s.nonce := rfl
@[simp] theorem complete_aadAddr (s : State) : (complete s).aadAddr = s.aadAddr := rfl
@[simp] theorem complete_inAddr (s : State) : (complete s).inAddr = s.inAddr := rfl
@[simp] theorem complete_outAddr (s : State) : (complete s).outAddr = s.outAddr := rfl
@[simp] theorem complete_alen (s : State) : (complete s).alen = s.alen := rfl
@[simp] theorem complete_mlen (s : State) : (complete s).mlen = s.mlen := rfl

/-! ## startCommand -/

@[simp] theorem startCommand_ctrl (op : Op) (s : State) : (startCommand op s).ctrl = s.ctrl := rfl
@[simp] theorem startCommand_status (op : Op) (s : State) : (startCommand op s).status = { s.status with done := false, result := .ok } := rfl
@[simp] theorem startCommand_data (op : Op) (s : State) : (startCommand op s).data = s.data := rfl
@[simp] theorem startCommand_mem (op : Op) (s : State) : (startCommand op s).mem = s.mem := rfl
@[simp] theorem startCommand_busErr (op : Op) (s : State) : (startCommand op s).busErr = s.busErr := rfl
@[simp] theorem startCommand_key (op : Op) (s : State) : (startCommand op s).key = s.key := rfl
@[simp] theorem startCommand_inputs (op : Op) (s : State) : (startCommand op s).inputs = s.inputs := rfl
@[simp] theorem startCommand_rdata (op : Op) (s : State) : (startCommand op s).rdata = s.rdata := rfl
@[simp] theorem startCommand_views (op : Op) (s : State) : (startCommand op s).views = s.mem :: s.views := rfl
@[simp] theorem startCommand_hostByte (op : Op) (s : State) : (startCommand op s).hostByte = s.hostByte := rfl
@[simp] theorem startCommand_draws (op : Op) (s : State) : (startCommand op s).draws = s.draws := rfl
@[simp] theorem startCommand_requests (op : Op) (s : State) : (startCommand op s).requests = [] := rfl
@[simp] theorem startCommand_calls (op : Op) (s : State) : (startCommand op s).calls = [] := rfl
@[simp] theorem startCommand_steps (op : Op) (s : State) : (startCommand op s).steps = 0 := rfl
@[simp] theorem startCommand_st_phase (op : Op) (s : State) : (startCommand op s).st.phase = .check := rfl
@[simp] theorem startCommand_st_op (op : Op) (s : State) : (startCommand op s).st.op = op := rfl
@[simp] theorem startCommand_st_ctr (op : Op) (s : State) : (startCommand op s).st.ctr = 1 := rfl
@[simp] theorem startCommand_st_aj (op : Op) (s : State) : (startCommand op s).st.aj = 0 := rfl
@[simp] theorem startCommand_st_pend (op : Op) (s : State) : (startCommand op s).st.pend = .ok := rfl
@[simp] theorem startCommand_st_mac (op : Op) (s : State) : (startCommand op s).st.mac = s.st.mac := rfl
@[simp] theorem startCommand_st_s0 (op : Op) (s : State) : (startCommand op s).st.s0 = s.st.s0 := rfl
@[simp] theorem startCommand_st_ks (op : Op) (s : State) : (startCommand op s).st.ks = s.st.ks := rfl
@[simp] theorem startCommand_st_blk (op : Op) (s : State) : (startCommand op s).st.blk = s.st.blk := rfl
@[simp] theorem startCommand_st_cand (op : Op) (s : State) : (startCommand op s).st.cand = s.st.cand := rfl
@[simp] theorem startCommand_nonceLen (op : Op) (s : State) : (startCommand op s).nonceLen = s.nonceLen := rfl
@[simp] theorem startCommand_lenSize (op : Op) (s : State) : (startCommand op s).lenSize = s.lenSize := rfl
@[simp] theorem startCommand_nonce (op : Op) (s : State) : (startCommand op s).nonce = s.nonce := rfl
@[simp] theorem startCommand_aadAddr (op : Op) (s : State) : (startCommand op s).aadAddr = s.aadAddr := rfl
@[simp] theorem startCommand_inAddr (op : Op) (s : State) : (startCommand op s).inAddr = s.inAddr := rfl
@[simp] theorem startCommand_outAddr (op : Op) (s : State) : (startCommand op s).outAddr = s.outAddr := rfl
@[simp] theorem startCommand_alen (op : Op) (s : State) : (startCommand op s).alen = s.alen := rfl
@[simp] theorem startCommand_mlen (op : Op) (s : State) : (startCommand op s).mlen = s.mlen := rfl

/-! ## illegalCommand -/

@[simp] theorem illegalCommand_ctrl (s : State) : (illegalCommand s).ctrl = s.ctrl := rfl
@[simp] theorem illegalCommand_status (s : State) : (illegalCommand s).status = { s.status with result := .illegalCommand, done := true } := rfl
@[simp] theorem illegalCommand_data (s : State) : (illegalCommand s).data = s.data := rfl
@[simp] theorem illegalCommand_st (s : State) : (illegalCommand s).st = s.st := rfl
@[simp] theorem illegalCommand_mem (s : State) : (illegalCommand s).mem = s.mem := rfl
@[simp] theorem illegalCommand_busErr (s : State) : (illegalCommand s).busErr = s.busErr := rfl
@[simp] theorem illegalCommand_key (s : State) : (illegalCommand s).key = s.key := rfl
@[simp] theorem illegalCommand_inputs (s : State) : (illegalCommand s).inputs = s.inputs := rfl
@[simp] theorem illegalCommand_rdata (s : State) : (illegalCommand s).rdata = s.rdata := rfl
@[simp] theorem illegalCommand_views (s : State) : (illegalCommand s).views = s.views := rfl
@[simp] theorem illegalCommand_hostByte (s : State) : (illegalCommand s).hostByte = s.hostByte := rfl
@[simp] theorem illegalCommand_draws (s : State) : (illegalCommand s).draws = s.draws := rfl
@[simp] theorem illegalCommand_requests (s : State) : (illegalCommand s).requests = s.requests := rfl
@[simp] theorem illegalCommand_calls (s : State) : (illegalCommand s).calls = s.calls := rfl
@[simp] theorem illegalCommand_steps (s : State) : (illegalCommand s).steps = s.steps := rfl
@[simp] theorem illegalCommand_nonceLen (s : State) : (illegalCommand s).nonceLen = s.nonceLen := rfl
@[simp] theorem illegalCommand_lenSize (s : State) : (illegalCommand s).lenSize = s.lenSize := rfl
@[simp] theorem illegalCommand_nonce (s : State) : (illegalCommand s).nonce = s.nonce := rfl
@[simp] theorem illegalCommand_aadAddr (s : State) : (illegalCommand s).aadAddr = s.aadAddr := rfl
@[simp] theorem illegalCommand_inAddr (s : State) : (illegalCommand s).inAddr = s.inAddr := rfl
@[simp] theorem illegalCommand_outAddr (s : State) : (illegalCommand s).outAddr = s.outAddr := rfl
@[simp] theorem illegalCommand_alen (s : State) : (illegalCommand s).alen = s.alen := rfl
@[simp] theorem illegalCommand_mlen (s : State) : (illegalCommand s).mlen = s.mlen := rfl

/-! ## statusWrite -/

@[simp] theorem statusWrite_ctrl (v : Word) (s : State) : (statusWrite v s).ctrl = s.ctrl := rfl
@[simp] theorem statusWrite_status (v : Word) (s : State) : (statusWrite v s).status = s.status.clearBits v := rfl
@[simp] theorem statusWrite_data (v : Word) (s : State) : (statusWrite v s).data = s.data := rfl
@[simp] theorem statusWrite_st (v : Word) (s : State) : (statusWrite v s).st = s.st := rfl
@[simp] theorem statusWrite_mem (v : Word) (s : State) : (statusWrite v s).mem = s.mem := rfl
@[simp] theorem statusWrite_busErr (v : Word) (s : State) : (statusWrite v s).busErr = s.busErr := rfl
@[simp] theorem statusWrite_key (v : Word) (s : State) : (statusWrite v s).key = s.key := rfl
@[simp] theorem statusWrite_inputs (v : Word) (s : State) : (statusWrite v s).inputs = s.inputs := rfl
@[simp] theorem statusWrite_rdata (v : Word) (s : State) : (statusWrite v s).rdata = s.rdata := rfl
@[simp] theorem statusWrite_views (v : Word) (s : State) : (statusWrite v s).views = s.views := rfl
@[simp] theorem statusWrite_hostByte (v : Word) (s : State) : (statusWrite v s).hostByte = s.hostByte := rfl
@[simp] theorem statusWrite_draws (v : Word) (s : State) : (statusWrite v s).draws = s.draws := rfl
@[simp] theorem statusWrite_requests (v : Word) (s : State) : (statusWrite v s).requests = s.requests := rfl
@[simp] theorem statusWrite_calls (v : Word) (s : State) : (statusWrite v s).calls = s.calls := rfl
@[simp] theorem statusWrite_steps (v : Word) (s : State) : (statusWrite v s).steps = s.steps := rfl
@[simp] theorem statusWrite_nonceLen (v : Word) (s : State) : (statusWrite v s).nonceLen = s.nonceLen := rfl
@[simp] theorem statusWrite_lenSize (v : Word) (s : State) : (statusWrite v s).lenSize = s.lenSize := rfl
@[simp] theorem statusWrite_nonce (v : Word) (s : State) : (statusWrite v s).nonce = s.nonce := rfl
@[simp] theorem statusWrite_aadAddr (v : Word) (s : State) : (statusWrite v s).aadAddr = s.aadAddr := rfl
@[simp] theorem statusWrite_inAddr (v : Word) (s : State) : (statusWrite v s).inAddr = s.inAddr := rfl
@[simp] theorem statusWrite_outAddr (v : Word) (s : State) : (statusWrite v s).outAddr = s.outAddr := rfl
@[simp] theorem statusWrite_alen (v : Word) (s : State) : (statusWrite v s).alen = s.alen := rfl
@[simp] theorem statusWrite_mlen (v : Word) (s : State) : (statusWrite v s).mlen = s.mlen := rfl

/-! ## droppedWrite -/

@[simp] theorem droppedWrite_ctrl (s : State) : (droppedWrite s).ctrl = s.ctrl := rfl
@[simp] theorem droppedWrite_status (s : State) : (droppedWrite s).status = { s.status with dropped := true } := rfl
@[simp] theorem droppedWrite_data (s : State) : (droppedWrite s).data = s.data := rfl
@[simp] theorem droppedWrite_st (s : State) : (droppedWrite s).st = s.st := rfl
@[simp] theorem droppedWrite_mem (s : State) : (droppedWrite s).mem = s.mem := rfl
@[simp] theorem droppedWrite_busErr (s : State) : (droppedWrite s).busErr = s.busErr := rfl
@[simp] theorem droppedWrite_key (s : State) : (droppedWrite s).key = s.key := rfl
@[simp] theorem droppedWrite_inputs (s : State) : (droppedWrite s).inputs = s.inputs := rfl
@[simp] theorem droppedWrite_rdata (s : State) : (droppedWrite s).rdata = s.rdata := rfl
@[simp] theorem droppedWrite_views (s : State) : (droppedWrite s).views = s.views := rfl
@[simp] theorem droppedWrite_hostByte (s : State) : (droppedWrite s).hostByte = s.hostByte := rfl
@[simp] theorem droppedWrite_draws (s : State) : (droppedWrite s).draws = s.draws := rfl
@[simp] theorem droppedWrite_requests (s : State) : (droppedWrite s).requests = s.requests := rfl
@[simp] theorem droppedWrite_calls (s : State) : (droppedWrite s).calls = s.calls := rfl
@[simp] theorem droppedWrite_steps (s : State) : (droppedWrite s).steps = s.steps := rfl
@[simp] theorem droppedWrite_nonceLen (s : State) : (droppedWrite s).nonceLen = s.nonceLen := rfl
@[simp] theorem droppedWrite_lenSize (s : State) : (droppedWrite s).lenSize = s.lenSize := rfl
@[simp] theorem droppedWrite_nonce (s : State) : (droppedWrite s).nonce = s.nonce := rfl
@[simp] theorem droppedWrite_aadAddr (s : State) : (droppedWrite s).aadAddr = s.aadAddr := rfl
@[simp] theorem droppedWrite_inAddr (s : State) : (droppedWrite s).inAddr = s.inAddr := rfl
@[simp] theorem droppedWrite_outAddr (s : State) : (droppedWrite s).outAddr = s.outAddr := rfl
@[simp] theorem droppedWrite_alen (s : State) : (droppedWrite s).alen = s.alen := rfl
@[simp] theorem droppedWrite_mlen (s : State) : (droppedWrite s).mlen = s.mlen := rfl

/-! ## State.acquire -/

@[simp] theorem State.acquire_ctrl (s : State) : (s.acquire).ctrl = s.ctrl := rfl
@[simp] theorem State.acquire_status (s : State) : (s.acquire).status = s.status := rfl
@[simp] theorem State.acquire_data (s : State) : (s.acquire).data = s.data := rfl
@[simp] theorem State.acquire_st (s : State) : (s.acquire).st = s.st := rfl
@[simp] theorem State.acquire_mem (s : State) : (s.acquire).mem = s.mem := rfl
@[simp] theorem State.acquire_busErr (s : State) : (s.acquire).busErr = s.busErr := rfl
@[simp] theorem State.acquire_key (s : State) : (s.acquire).key = s.key := rfl
@[simp] theorem State.acquire_inputs (s : State) : (s.acquire).inputs = s.inputs := rfl
@[simp] theorem State.acquire_rdata (s : State) : (s.acquire).rdata = s.rdata := rfl
@[simp] theorem State.acquire_views (s : State) : (s.acquire).views = [] := rfl
@[simp] theorem State.acquire_hostByte (s : State) : (s.acquire).hostByte = s.hostByte := rfl
@[simp] theorem State.acquire_draws (s : State) : (s.acquire).draws = s.draws := rfl
@[simp] theorem State.acquire_requests (s : State) : (s.acquire).requests = s.requests := rfl
@[simp] theorem State.acquire_calls (s : State) : (s.acquire).calls = s.calls := rfl
@[simp] theorem State.acquire_steps (s : State) : (s.acquire).steps = s.steps := rfl
@[simp] theorem State.acquire_nonceLen (s : State) : (s.acquire).nonceLen = s.nonceLen := rfl
@[simp] theorem State.acquire_lenSize (s : State) : (s.acquire).lenSize = s.lenSize := rfl
@[simp] theorem State.acquire_nonce (s : State) : (s.acquire).nonce = s.nonce := rfl
@[simp] theorem State.acquire_aadAddr (s : State) : (s.acquire).aadAddr = s.aadAddr := rfl
@[simp] theorem State.acquire_inAddr (s : State) : (s.acquire).inAddr = s.inAddr := rfl
@[simp] theorem State.acquire_outAddr (s : State) : (s.acquire).outAddr = s.outAddr := rfl
@[simp] theorem State.acquire_alen (s : State) : (s.acquire).alen = s.alen := rfl
@[simp] theorem State.acquire_mlen (s : State) : (s.acquire).mlen = s.mlen := rfl

/-! ## plainStore -/

@[simp] theorem plainStore_ctrl (a : Addr) (b : Byte) (s : State) : (plainStore a b s).ctrl = s.ctrl := rfl
@[simp] theorem plainStore_status (a : Addr) (b : Byte) (s : State) : (plainStore a b s).status = s.status := rfl
@[simp] theorem plainStore_data (a : Addr) (b : Byte) (s : State) : (plainStore a b s).data = s.data := rfl
@[simp] theorem plainStore_st (a : Addr) (b : Byte) (s : State) : (plainStore a b s).st = s.st := rfl
@[simp] theorem plainStore_mem (a : Addr) (b : Byte) (s : State) : (plainStore a b s).mem = Memory.write s.mem a.toNat b := rfl
@[simp] theorem plainStore_busErr (a : Addr) (b : Byte) (s : State) : (plainStore a b s).busErr = s.busErr := rfl
@[simp] theorem plainStore_key (a : Addr) (b : Byte) (s : State) : (plainStore a b s).key = s.key := rfl
@[simp] theorem plainStore_inputs (a : Addr) (b : Byte) (s : State) : (plainStore a b s).inputs = s.inputs := rfl
@[simp] theorem plainStore_rdata (a : Addr) (b : Byte) (s : State) : (plainStore a b s).rdata = s.rdata := rfl
@[simp] theorem plainStore_views (a : Addr) (b : Byte) (s : State) : (plainStore a b s).views = (if s.settled a then [] else [s.mem]) ++ s.views.map fun v => Memory.write v a.toNat b := rfl
@[simp] theorem plainStore_hostByte (a : Addr) (b : Byte) (s : State) : (plainStore a b s).hostByte = s.hostByte := rfl
@[simp] theorem plainStore_draws (a : Addr) (b : Byte) (s : State) : (plainStore a b s).draws = s.draws := rfl
@[simp] theorem plainStore_requests (a : Addr) (b : Byte) (s : State) : (plainStore a b s).requests = s.requests := rfl
@[simp] theorem plainStore_calls (a : Addr) (b : Byte) (s : State) : (plainStore a b s).calls = s.calls := rfl
@[simp] theorem plainStore_steps (a : Addr) (b : Byte) (s : State) : (plainStore a b s).steps = s.steps := rfl
@[simp] theorem plainStore_nonceLen (a : Addr) (b : Byte) (s : State) : (plainStore a b s).nonceLen = s.nonceLen := rfl
@[simp] theorem plainStore_lenSize (a : Addr) (b : Byte) (s : State) : (plainStore a b s).lenSize = s.lenSize := rfl
@[simp] theorem plainStore_nonce (a : Addr) (b : Byte) (s : State) : (plainStore a b s).nonce = s.nonce := rfl
@[simp] theorem plainStore_aadAddr (a : Addr) (b : Byte) (s : State) : (plainStore a b s).aadAddr = s.aadAddr := rfl
@[simp] theorem plainStore_inAddr (a : Addr) (b : Byte) (s : State) : (plainStore a b s).inAddr = s.inAddr := rfl
@[simp] theorem plainStore_outAddr (a : Addr) (b : Byte) (s : State) : (plainStore a b s).outAddr = s.outAddr := rfl
@[simp] theorem plainStore_alen (a : Addr) (b : Byte) (s : State) : (plainStore a b s).alen = s.alen := rfl
@[simp] theorem plainStore_mlen (a : Addr) (b : Byte) (s : State) : (plainStore a b s).mlen = s.mlen := rfl

/-! ## resetStep -/

@[simp] theorem resetStep_ctrl (s : State) : (resetStep s).ctrl = ⟨0, false⟩ := rfl
@[simp] theorem resetStep_status (s : State) : (resetStep s).status = ⟨false, false, .ok⟩ := rfl
@[simp] theorem resetStep_data (s : State) : (resetStep s).data = DataRegs.zero := rfl
@[simp] theorem resetStep_st (s : State) : (resetStep s).st = Engine.idle := rfl
@[simp] theorem resetStep_mem (s : State) : (resetStep s).mem = s.mem := rfl
@[simp] theorem resetStep_busErr (s : State) : (resetStep s).busErr = s.busErr := rfl
@[simp] theorem resetStep_key (s : State) : (resetStep s).key = s.key := rfl
@[simp] theorem resetStep_inputs (s : State) : (resetStep s).inputs = s.inputs := rfl
@[simp] theorem resetStep_rdata (s : State) : (resetStep s).rdata = s.rdata := rfl
@[simp] theorem resetStep_views (s : State) : (resetStep s).views = s.views := rfl
@[simp] theorem resetStep_hostByte (s : State) : (resetStep s).hostByte = s.hostByte := rfl
@[simp] theorem resetStep_draws (s : State) : (resetStep s).draws = s.draws := rfl
@[simp] theorem resetStep_requests (s : State) : (resetStep s).requests = s.requests := rfl
@[simp] theorem resetStep_calls (s : State) : (resetStep s).calls = s.calls := rfl
@[simp] theorem resetStep_steps (s : State) : (resetStep s).steps = s.steps := rfl

/-! ## The list of moves and the count of steps: what is computed from a state does not see them -/

@[simp] theorem State.busy_of_moves (l : List Input) (n : Nat) (s : State) :
    ({ s with inputs := l, steps := n } : State).busy = s.busy := rfl
@[simp] theorem State.irq_of_moves (l : List Input) (n : Nat) (s : State) :
    ({ s with inputs := l, steps := n } : State).irq = s.irq := rfl
@[simp] theorem State.statusWord_of_moves (l : List Input) (n : Nat) (s : State) :
    ({ s with inputs := l, steps := n } : State).statusWord = s.statusWord := rfl
@[simp] theorem State.ctrlWord_of_moves (l : List Input) (n : Nat) (s : State) :
    ({ s with inputs := l, steps := n } : State).ctrlWord = s.ctrlWord := rfl
@[simp] theorem State.tagReg_of_moves (l : List Input) (n : Nat) (s : State) :
    ({ s with inputs := l, steps := n } : State).tagReg = s.tagReg := rfl
@[simp] theorem State.nonceLen_of_moves (l : List Input) (n : Nat) (s : State) :
    ({ s with inputs := l, steps := n } : State).nonceLen = s.nonceLen := rfl
@[simp] theorem State.lenSize_of_moves (l : List Input) (n : Nat) (s : State) :
    ({ s with inputs := l, steps := n } : State).lenSize = s.lenSize := rfl
@[simp] theorem State.nonce_of_moves (l : List Input) (n : Nat) (s : State) :
    ({ s with inputs := l, steps := n } : State).nonce = s.nonce := rfl
@[simp] theorem State.aadAddr_of_moves (l : List Input) (n : Nat) (s : State) :
    ({ s with inputs := l, steps := n } : State).aadAddr = s.aadAddr := rfl
@[simp] theorem State.inAddr_of_moves (l : List Input) (n : Nat) (s : State) :
    ({ s with inputs := l, steps := n } : State).inAddr = s.inAddr := rfl
@[simp] theorem State.outAddr_of_moves (l : List Input) (n : Nat) (s : State) :
    ({ s with inputs := l, steps := n } : State).outAddr = s.outAddr := rfl
@[simp] theorem State.alen_of_moves (l : List Input) (n : Nat) (s : State) :
    ({ s with inputs := l, steps := n } : State).alen = s.alen := rfl
@[simp] theorem State.mlen_of_moves (l : List Input) (n : Nat) (s : State) :
    ({ s with inputs := l, steps := n } : State).mlen = s.mlen := rfl
@[simp] theorem State.tagByte_of_moves (l : List Input) (n : Nat) (k : Nat) (s : State) :
    ({ s with inputs := l, steps := n } : State).tagByte k = s.tagByte k := rfl
@[simp] theorem State.nonceByte_of_moves (l : List Input) (n : Nat) (k : Nat) (s : State) :
    ({ s with inputs := l, steps := n } : State).nonceByte k = s.nonceByte k := rfl
@[simp] theorem State.busOk_of_moves (l : List Input) (n : Nat) (k : MemRequest) (s : State) :
    ({ s with inputs := l, steps := n } : State).busOk k = s.busOk k := rfl
@[simp] theorem State.aadRequest_of_moves (l : List Input) (n : Nat) (k : Nat) (s : State) :
    ({ s with inputs := l, steps := n } : State).aadRequest k = s.aadRequest k := rfl
@[simp] theorem State.readRequest_of_moves (l : List Input) (n : Nat) (k : Nat) (s : State) :
    ({ s with inputs := l, steps := n } : State).readRequest k = s.readRequest k := rfl
@[simp] theorem State.writeRequest_of_moves (l : List Input) (n : Nat) (k : Nat) (s : State) :
    ({ s with inputs := l, steps := n } : State).writeRequest k = s.writeRequest k := rfl

end Sys2Proof.Machine
end

