-- ==== Sys2Proof/Laws/Bytes.lean ====
section
/-! SUPPORT. Byte strings, Blocks and the tag: lengths, bytes by index, exclusive or, and the packing of the
tag registers (spec 00_scope.md R12, R13; 10_state.md R25, R28). -/

namespace Sys2Proof.Machine

/-! ## Byte strings -/

@[simp] theorem length_be (v n : Nat) : (be v n).length = n := by simp [be]

theorem getElem_be (v n k : Nat) (h : k < (be v n).length) :
    (be v n)[k] = BitVec.ofNat 8 (v >>> (8 * (n - 1 - k))) := by simp [be]

@[simp] theorem getElem_pad16 (s : List Byte) (k : Nat) (h : k < 16) :
    (pad16 s)[k] = s.getD k 0 := by simp [pad16]

@[simp] theorem getElem_xorBlock (x y : Block) (k : Nat) (h : k < 16) :
    (xorBlock x y)[k] = x[k] ^^^ y[k] := by simp [xorBlock]

theorem length_xorBytes {s : List Byte} (K : Block) (h : s.length ≤ 16) :
    (xorBytes s K).length = s.length := by simp [xorBytes, h]

theorem getElem_xorBytes (s : List Byte) (K : Block) (k : Nat) (h : k < (xorBytes s K).length)
    (h1 : k < s.length) (h2 : k < 16) : (xorBytes s K)[k] = s[k] ^^^ K[k] := by
  simp [xorBytes]

/-- Masking twice with the same keystream gives the bytes back. -/
theorem xorBytes_xorBytes {s : List Byte} (K : Block) (h : s.length ≤ 16) :
    xorBytes (xorBytes s K) K = s := by
  refine List.ext_getElem (by rw [length_xorBytes _ (by rw [length_xorBytes _ h]; exact h),
    length_xorBytes _ h]) fun k h1 h2 => ?_
  have hk : k < (xorBytes s K).length := by rw [length_xorBytes _ h]; exact h2
  rw [getElem_xorBytes _ _ _ _ hk (by omega), getElem_xorBytes _ _ _ _ h2 (by omega),
    BitVec.xor_assoc, BitVec.xor_self, BitVec.xor_zero]

theorem xorBlock_zero_left (x : Block) : xorBlock Block.zero x = x := by
  refine Vector.ext fun k hk => ?_
  simp [Block.zero]

/-! ## The big-endian value of a byte string -/

theorem be_succ (v n : Nat) : be v (n + 1) = be (v / 256) n ++ [BitVec.ofNat 8 v] := by
  refine List.ext_getElem (by simp) fun k h1 h2 => ?_
  rw [getElem_be]
  rw [length_be] at h1
  rcases Nat.lt_or_eq_of_le (Nat.le_of_lt_succ h1) with h | h
  · rw [List.getElem_append_left (by simpa using h), getElem_be, Nat.shiftRight_eq_div_pow,
      Nat.shiftRight_eq_div_pow, Nat.div_div_eq_div_mul, show 256 = 2 ^ 8 by rfl, ← pow_add]
    congr 3
    omega
  · subst h
    rw [List.getElem_append_right (by simp)]
    simp

/-- The n-byte encoding of a value that fits holds that value (00_scope.md R12). -/
theorem value_be (n : Nat) :
    ∀ v, v < 2 ^ (8 * n) → (be v n).foldl (fun n b => 256 * n + b.toNat) 0 = v := by
  induction n with
  | zero =>
    intro v h
    have hv : v = 0 := by simpa using h
    subst hv
    rfl
  | succ n ih =>
    intro v h
    have hv : v / 256 < 2 ^ (8 * n) := by
      rw [Nat.div_lt_iff_lt_mul (by norm_num)]
      rw [show 8 * (n + 1) = 8 * n + 8 by ring, pow_add] at h
      simpa using h
    rw [be_succ, List.foldl_append, ih _ hv]
    simp only [List.foldl_cons, List.foldl_nil, BitVec.toNat_ofNat]
    omega

theorem toList_pad16 {l : List Byte} (h : l.length = 16) : (pad16 l).toList = l := by
  refine List.ext_getElem (by simp [h]) fun k h1 h2 => ?_
  rw [Vector.getElem_toList]
  simp [h2]

/-! ## The pieces of a byte string (40_commands.md R111) -/

theorem length_piece (s : List Byte) (j : Nat) : (piece s j).length = chunkLen s.length (j + 1) := by
  simp [piece, chunkLen]

/-- The pieces, joined, are the string. -/
theorem piece_flatten : ∀ (n : Nat) (s : List Byte), s.length ≤ 16 * n →
    (List.range n).flatMap (piece s) = s := by
  intro n
  induction n with
  | zero =>
    intro s h
    have hs : s = [] := by simpa using h
    subst hs
    rfl
  | succ n ih =>
    intro s h
    have hd : (List.range n).flatMap (fun j => piece s (j + 1)) =
        (List.range n).flatMap (piece (s.drop 16)) := by
      refine List.flatMap_congr fun j _ => ?_
      simp only [piece, List.drop_drop]
      congr 2
      omega
    rw [List.range_succ_eq_map, List.flatMap_cons, List.flatMap_map]
    simp only [Nat.succ_eq_add_one]
    rw [hd, ih _ (by simp; omega)]
    simp [piece]

/-- The pieces of strings joined, all of them 16 bytes long but the last, are those strings. -/
theorem piece_flatMap (n : Nat) : ∀ f : Nat → List Byte, (∀ j, j < n → (f j).length ≤ 16) →
    (∀ j, j + 1 < n → (f j).length = 16) →
    ∀ j, j < n → piece ((List.range n).flatMap f) j = f j := by
  induction n with
  | zero =>
    intro f _ _ j h
    omega
  | succ n ih =>
    intro f hl hf j hj
    rw [List.range_succ_eq_map, List.flatMap_cons, List.flatMap_map]
    cases j with
    | zero =>
      cases n with
      | zero => simp [piece, hl 0]
      | succ n =>
        have h0 := hf 0 (by omega)
        simp [piece, h0]
    | succ j =>
      have h0 := hf 0 (by omega)
      rw [← ih (fun j => f (j + 1)) (fun j h => hl _ (by omega)) (fun j h => hf _ (by omega)) j
        (by omega)]
      simp only [piece]
      rw [show 16 * (j + 1) = (f 0).length + 16 * j by omega, ← List.drop_drop, List.drop_left]

/-! ## Nonce and geometry -/

@[simp] theorem length_nonce (s : State) : s.nonce.length = s.nonceLen := by simp [State.nonce]

theorem nonceLen_le (s : State) : s.nonceLen ≤ 15 := by
  have := s.ctrl.nonceLen.isLt
  simp only [State.nonceLen]
  omega

theorem alen_lt (s : State) : s.alen < 2 ^ 64 := (hiLo _ _).isLt

theorem mlen_lt (s : State) : s.mlen < 2 ^ 64 := (hiLo _ _).isLt

theorem chunkLen_le (m i : Nat) : chunkLen m i ≤ 16 := Nat.min_le_left _ _

/-- Every chunk of the message holds 1 to 16 bytes (43_payload_encrypt.md R170). -/
theorem chunkLen_pos {m i : Nat} (h1 : 1 ≤ i) (h2 : i ≤ msgBlocks m) : 1 ≤ chunkLen m i := by
  simp only [msgBlocks, chunkLen] at *
  omega

/-- Every AAD block holds at least one AAD byte (42_mac_aad.md R154). -/
theorem aadSpan_pos {a j : Nat} (h : j < aadBlocks a) : aadFirst a j < aadEnd a j := by
  simp only [aadBlocks, aadFirst, aadEnd, prefixLen] at *
  split_ifs at * <;> omega

theorem aadSpan_le (a j : Nat) : aadEnd a j - aadFirst a j ≤ 16 := by
  simp only [aadFirst, aadEnd]
  omega

/-- The largest counter of a command fits the counter field (41_nonce_formatter.md R138). -/
theorem msgBlocks_lt {m k : Nat} (hk : 1 ≤ k) (h : m < 2 ^ (8 * k)) : msgBlocks m < 2 ^ (8 * k) := by
  have h1 : 2 ^ 8 ≤ 2 ^ (8 * k) := Nat.pow_le_pow_right (by omega) (by omega)
  simp only [msgBlocks]
  omega

/-! ## The tag -/

theorem wordByte_packWord (b0 b1 b2 b3 : Byte) :
    wordByte (packWord b0 b1 b2 b3) 0 = b0 ∧ wordByte (packWord b0 b1 b2 b3) 1 = b1 ∧
      wordByte (packWord b0 b1 b2 b3) 2 = b2 ∧ wordByte (packWord b0 b1 b2 b3) 3 = b3 := by
  simp only [wordByte, packWord]
  refine ⟨?_, ?_, ?_, ?_⟩ <;>
    (refine BitVec.eq_of_getLsbD_eq fun i hi => ?_
     simp only [BitVec.getLsbD_extractLsb', BitVec.getLsbD_cast, BitVec.getLsbD_append])
  · simp [hi, show ¬ 24 + i < 8 by omega, show ¬ 24 + i - 8 < 8 by omega,
      show ¬ 24 + i - 8 - 8 < 8 by omega, show 24 + i - 8 - 8 - 8 = i by omega]
  · simp [hi, show ¬ 16 + i < 8 by omega, show ¬ 16 + i - 8 < 8 by omega,
      show 16 + i - 8 - 8 = i by omega]
  · simp [hi, show ¬ 8 + i < 8 by omega]
  · simp [hi]

/-- The bytes of a packed word (30_encoding.md R91). -/
theorem wordByte_packedWord (bs : List Byte) (k j : Nat) (hj : j < 4) :
    wordByte (packedWord bs k) j = bs.getD (4 * k + j) 0 := by
  have h := wordByte_packWord (bs.getD (4 * k) 0) (bs.getD (4 * k + 1) 0) (bs.getD (4 * k + 2) 0)
    (bs.getD (4 * k + 3) 0)
  simp only [packedWord]
  interval_cases j
  · exact h.1
  · exact h.2.1
  · exact h.2.2.1
  · exact h.2.2.2

@[simp] theorem getElem_tagReg (s : State) (k : Nat) (h : k < 16) : s.tagReg[k] = s.tagByte k := by
  simp [State.tagReg]

/-- The tag registers read back the tag written to them (10_state.md R28). -/
theorem tagReg_of_withTag {s : State} {d : DataRegs} {t : Block} (h : s.data = d.withTag t) :
    s.tagReg = t := by
  refine Vector.ext fun k hk => ?_
  rw [getElem_tagReg]
  have hw := wordByte_packWord
  interval_cases k <;>
    simp [State.tagByte, State.tagWord, h, DataRegs.withTag, hw]

theorem foldl_or_eq_zero (f : Fin 16 → Byte) (l : List (Fin 16)) :
    ∀ d : Byte, l.foldl (fun d k => d ||| f k) d = 0 ↔ d = 0 ∧ ∀ k ∈ l, f k = 0 := by
  induction l with
  | nil => simp
  | cons k l ih =>
    intro d
    rw [List.foldl_cons, ih]
    simp [BitVec.or_eq_zero_iff, and_assoc]

theorem xor_eq_zero_iff_eq (a b : Byte) : a ^^^ b = 0 ↔ a = b := by
  constructor
  · intro h
    have := congrArg (· ^^^ b) h
    simpa [BitVec.xor_assoc] using this
  · rintro rfl
    exact BitVec.xor_self

/-- The OR of all byte differences is zero exactly when all 16 pairs are equal (45_decrypt.md R203). -/
theorem tagDifference_eq_zero (cand : Block) (tag : Nat → Byte) :
    tagDifference cand tag = 0 ↔ ∀ k (h : k < 16), cand[k] = tag k := by
  rw [tagDifference, foldl_or_eq_zero (fun k => cand[k] ^^^ tag k.val)]
  simp only [true_and, xor_eq_zero_iff_eq]
  exact ⟨fun h k hk => h ⟨k, hk⟩ (List.mem_finRange _), fun h k _ => h k.val k.isLt⟩

end Sys2Proof.Machine
end

