-- ==== Sys2Proof/Laws/Memory.lean ====
section
/-! SUPPORT. Memory laws: a read after a write, the bytes a string write changes and leaves, and that every
memory operation keeps the canonical form (spec 20_memory.md R62, R65 to R67). -/

namespace Sys2Proof.Machine

/-! ## One byte -/

theorem Memory.read_dropWhile (m : Memory) (a a' : Nat) (h : a < a') :
    Memory.read (m.dropWhile fun c => c.1 ≤ a) a' = Memory.read m a' := by
  induction m with
  | nil => rfl
  | cons c m ih =>
    obtain ⟨k, b⟩ := c
    by_cases hk : k ≤ a
    · rw [List.dropWhile_cons_of_pos (by simpa using hk), ih, Memory.read, if_neg (by omega),
        if_neg (by omega)]
    · rw [List.dropWhile_cons_of_neg (by simpa using hk)]

theorem Memory.read_dropWhile_below (m : Memory) (a a' : Nat) (h : a' ≤ a) :
    Memory.read (m.dropWhile fun c => c.1 ≤ a) a' = Memory.blank := by
  induction m with
  | nil => rfl
  | cons c m ih =>
    obtain ⟨k, b⟩ := c
    by_cases hk : k ≤ a
    · rw [List.dropWhile_cons_of_pos (by simpa using hk), ih]
    · rw [List.dropWhile_cons_of_neg (by simpa using hk), Memory.read, if_neg (by omega),
        if_pos (by omega)]

/-- A read after a write, in every memory, canonical or not. -/
theorem Memory.read_write (m : Memory) (a a' : Nat) (v : Byte) :
    Memory.read (Memory.write m a v) a' = if a' = a then v else Memory.read m a' := by
  induction m with
  | nil =>
    by_cases hv : v = Memory.blank
    · by_cases ha : a' = a <;> simp [Memory.write, Memory.read, hv]
    · by_cases ha : a' = a <;> simp [Memory.write, Memory.read, hv, ha]
  | cons c m ih =>
    obtain ⟨k, b⟩ := c
    rcases Nat.lt_trichotomy a k with h | h | h
    · by_cases hv : v = Memory.blank
      · simp only [Memory.write, if_pos h, if_pos hv, Memory.read]
        split_ifs <;> first | rfl | omega | simp_all
      · simp only [Memory.write, if_pos h, if_neg hv, Memory.read]
        split_ifs <;> first | rfl | omega
    · subst h
      by_cases hv : v = Memory.blank
      · simp only [Memory.write, lt_irrefl, if_false, if_true, if_pos hv]
        rcases Nat.lt_or_ge a a' with hlt | hge
        · rw [Memory.read_dropWhile _ _ _ hlt, Memory.read, if_neg (by omega), if_neg (by omega),
            if_neg (by omega)]
        · rw [Memory.read_dropWhile_below _ _ _ hge]
          rcases Nat.lt_or_eq_of_le hge with h' | h'
          · rw [if_neg (by omega), Memory.read, if_neg (by omega), if_pos h']
          · rw [if_pos h', hv]
      · simp only [Memory.write, lt_irrefl, if_false, if_true, if_neg hv, Memory.read]
        split_ifs <;> rfl
    · simp only [Memory.write, if_neg (Nat.lt_asymm h), if_neg (Nat.ne_of_gt h), Memory.read, ih]
      split_ifs <;> first | rfl | omega

theorem Memory.byte_write (m : Memory) (a x : Addr) (v : Byte) :
    Memory.byte (Memory.write m a.toNat v) x = if x = a then v else Memory.byte m x := by
  simp [Memory.byte, Memory.read_write, BitVec.toNat_inj]

/-! ## The canonical form -/

theorem Memory.wf_nil : Memory.wf [] = true := by simp [Memory.wf]

theorem Memory.wf_cons_iff (k : Nat) (b : Byte) (m : Memory) :
    Memory.wf ((k, b) :: m) = true ↔
      ((∀ c ∈ m, k < c.1) ∧ k < 2 ^ 64 ∧ b ≠ Memory.blank) ∧ Memory.wf m = true := by
  simp only [Memory.wf, List.pairwise_cons, List.all_cons, Bool.and_eq_true, decide_eq_true_eq,
    bne_iff_ne]
  tauto

theorem Memory.mem_write {m : Memory} {a : Nat} {v : Byte} {c : Host.Cell}
    (h : c ∈ Memory.write m a v) : c = (a, v) ∨ c ∈ m := by
  induction m with
  | nil => by_cases hv : v = Memory.blank <;> simp_all [Memory.write]
  | cons d m ih =>
    obtain ⟨k, b⟩ := d
    simp only [Memory.write] at h
    split_ifs at h with h1 h2 h3 h4
    · exact .inr h
    · simpa using h
    · exact .inr (List.mem_cons_of_mem _ ((List.dropWhile_sublist _).subset h))
    · rcases List.mem_cons.1 h with h | h
      · exact .inl h
      · exact .inr (List.mem_cons_of_mem _ h)
    · rcases List.mem_cons.1 h with h | h
      · exact .inr (h ▸ List.mem_cons_self)
      · rcases ih h with h | h
        · exact .inl h
        · exact .inr (List.mem_cons_of_mem _ h)

theorem Memory.wf_dropWhile {m : Memory} (p : Host.Cell → Bool) (h : Memory.wf m = true) :
    Memory.wf (m.dropWhile p) = true := by
  simp only [Memory.wf, Bool.and_eq_true, decide_eq_true_eq, List.all_eq_true] at h ⊢
  exact ⟨h.1.sublist (List.dropWhile_sublist _),
    fun c hc => h.2 c ((List.dropWhile_sublist _).subset hc)⟩

/-- A write to an address of the space keeps the canonical form. -/
theorem Memory.wf_write {m : Memory} {a : Nat} {v : Byte} (ha : a < 2 ^ 64)
    (h : Memory.wf m = true) : Memory.wf (Memory.write m a v) = true := by
  induction m with
  | nil => by_cases hv : v = Memory.blank <;> simp_all [Memory.write, Memory.wf]
  | cons d m ih =>
    obtain ⟨k, b⟩ := d
    have hm := (Memory.wf_cons_iff k b m).1 h
    simp only [Memory.write]
    split_ifs with h1 h2 h3 h4
    · exact h
    · refine (Memory.wf_cons_iff _ _ _).2 ⟨⟨fun c hc => ?_, ha, h2⟩, h⟩
      rcases List.mem_cons.1 hc with rfl | hc
      · exact h1
      · exact h1.trans (hm.1.1 c hc)
    · exact Memory.wf_dropWhile _ hm.2
    · exact (Memory.wf_cons_iff _ _ _).2 ⟨⟨h3 ▸ hm.1.1, ha, h4⟩, hm.2⟩
    · refine (Memory.wf_cons_iff _ _ _).2 ⟨⟨fun c hc => ?_, hm.1.2⟩, ih hm.2⟩
      rcases Memory.mem_write hc with rfl | hc
      · show k < a
        omega
      · exact hm.1.1 c hc

theorem Memory.wf_writeWhere (lands : Nat → Bool) (bs : List Byte) :
    ∀ (m : Memory) (a : Addr) (k : Nat), Memory.wf m = true →
      Memory.wf (Memory.writeWhere lands m a k bs) = true := by
  induction bs with
  | nil => exact fun m a k h => h
  | cons b bs ih =>
    intro m a k h
    refine ih _ _ _ ?_
    split_ifs
    · exact Memory.wf_write a.isLt h
    · exact h

theorem Memory.wf_writeBytes (m : Memory) (a : Addr) (bs : List Byte) (h : Memory.wf m = true) :
    Memory.wf (Memory.writeBytes m a bs) = true :=
  Memory.wf_writeWhere _ _ _ _ _ h

/-! ## Byte strings -/

@[simp] theorem Memory.length_readBytes (m : Memory) (a : Addr) (n : Nat) :
    (Memory.readBytes m a n).length = n := by simp [Memory.readBytes]

theorem Memory.getElem_readBytes (m : Memory) (a : Addr) (n k : Nat)
    (h : k < (Memory.readBytes m a n).length) :
    (Memory.readBytes m a n)[k] = Memory.byte m (a + BitVec.ofNat 64 k) := by
  simp [Memory.readBytes]

/-- Reading a string depends on its own bytes only. -/
theorem Memory.readBytes_congr {m m' : Memory} {a : Addr} {n : Nat}
    (h : ∀ k, k < n → Memory.byte m (a + BitVec.ofNat 64 k) = Memory.byte m' (a + BitVec.ofNat 64 k)) :
    Memory.readBytes m a n = Memory.readBytes m' a n :=
  List.map_congr_left fun k hk => h k (List.mem_range.1 hk)

/-- A part of a string read from memory is a string read from memory. -/
theorem Memory.take_drop_readBytes (m : Memory) (a : Addr) (n k c : Nat) (h : k + c ≤ n) :
    ((Memory.readBytes m a n).drop k).take c = Memory.readBytes m (a + BitVec.ofNat 64 k) c := by
  refine List.ext_getElem (by simp; omega) fun i h1 h2 => ?_
  rw [List.getElem_take, List.getElem_drop, Memory.getElem_readBytes, Memory.getElem_readBytes]
  rw [BitVec.add_assoc, ← BitVec.ofNat_add]

theorem addr_sub_succ (x a : Addr) (h : x ≠ a) :
    (x - (a + 1)).toNat + 1 = (x - a).toNat := by
  have : x - a ≠ 0 := fun h' => h (by simpa [BitVec.sub_eq_iff_eq_add] using h')
  bv_omega

/-- Every byte after a string write, landed byte by landed byte. -/
theorem Memory.byte_writeWhere (lands : Nat → Bool) (bs : List Byte) :
    ∀ (m : Memory) (a : Addr) (k : Nat) (x : Addr), bs.length ≤ 2 ^ 64 →
      Memory.byte (Memory.writeWhere lands m a k bs) x =
        if lands (k + (x - a).toNat) then bs.getD (x - a).toNat (Memory.byte m x)
        else Memory.byte m x := by
  induction bs with
  | nil => intro m a k x _; simp [Memory.writeWhere]
  | cons b bs ih =>
    intro m a k x hl
    simp only [List.length_cons] at hl
    rw [Memory.writeWhere, ih _ _ _ _ (by omega)]
    by_cases hx : x = a
    · subst hx
      have h1 : (x - (x + 1)).toNat = 2 ^ 64 - 1 := by bv_omega
      have hnone : bs[2 ^ 64 - 1]? = none := List.getElem?_eq_none (by omega)
      have hb : Memory.byte (if lands k then Memory.write m x.toNat b else m) x =
          if lands k then b else Memory.byte m x := by
        by_cases hk : lands k
        · simp only [hk, if_true, Memory.byte_write]
        · simp only [hk]; rfl
      simp only [h1, List.getD_eq_getElem?_getD, hnone, Option.getD_none, ite_self, hb]
      simp
    · have hb : Memory.byte (if lands k then Memory.write m a.toNat b else m) x = Memory.byte m x := by
        by_cases hk : lands k
        · simp only [hk, if_true, Memory.byte_write, if_neg hx]
        · simp only [hk]; rfl
      rw [hb]
      have h1 := addr_sub_succ x a hx
      rw [← h1, show k + 1 + (x - (a + 1)).toNat = k + ((x - (a + 1)).toNat + 1) by omega]
      simp [List.getD_eq_getElem?_getD]

/-- Every byte after a whole string write. -/
theorem Memory.byte_writeBytes (m : Memory) (a x : Addr) (bs : List Byte) (h : bs.length ≤ 2 ^ 64) :
    Memory.byte (Memory.writeBytes m a bs) x = bs.getD (x - a).toNat (Memory.byte m x) := by
  rw [Memory.writeBytes, Memory.byte_writeWhere _ _ _ _ _ _ h, if_pos rfl]

/-- Bytes outside the written string are unchanged. -/
theorem Memory.byte_writeBytes_outside {m : Memory} {a x : Addr} {bs : List Byte}
    (hl : bs.length ≤ 2 ^ 64) (h : bs.length ≤ (x - a).toNat) :
    Memory.byte (Memory.writeBytes m a bs) x = Memory.byte m x := by
  rw [Memory.byte_writeBytes _ _ _ _ hl, List.getD_eq_getElem?_getD, List.getElem?_eq_none h]
  rfl

/-- The bytes of the written string read back. -/
theorem Memory.readBytes_writeBytes (m : Memory) (a : Addr) (bs : List Byte) (h : bs.length ≤ 2 ^ 64) :
    Memory.readBytes (Memory.writeBytes m a bs) a bs.length = bs := by
  refine List.ext_getElem (by simp) fun k h1 h2 => ?_
  have hk : (a + BitVec.ofNat 64 k - a).toNat = k := by
    rw [BitVec.add_comm, BitVec.add_sub_cancel, BitVec.toNat_ofNat, Nat.mod_eq_of_lt (by omega)]
  rw [Memory.getElem_readBytes, Memory.byte_writeBytes _ _ _ _ h, hk]
  simp [List.getD_eq_getElem?_getD, h2]

end Sys2Proof.Machine
end

