-- ==== Sys2Proof/Laws/Ops.lean ====
section
/-! SUPPORT. One lemma per shared operation that says everything it can do. -/

namespace Sys2Proof.Machine

/-! ## Registers (spec 10_state.md R22) -/

theorem DataRegs.get_set (d : DataRegs) (r r' : DataReg) (v : Word) :
    (d.set r v).get r' = if r' = r then v else d.get r' := by
  cases r <;> cases r' <;> rfl

theorem Reg.ofOffset_offset (r : Reg) : Reg.ofOffset r.offset = some r := by
  cases r with
  | data d => cases d <;> rfl
  | _ => rfl

theorem aligned_offset (r : Reg) : aligned r.offset = true := by
  cases r with
  | data d => cases d <;> rfl
  | _ => rfl

theorem withTag_get (d : DataRegs) (t : Block) (r : DataReg)
    (h : r ≠ .tag0 ∧ r ≠ .tag1 ∧ r ≠ .tag2 ∧ r ≠ .tag3) : (d.withTag t).get r = d.get r := by
  cases r <;> simp_all [DataRegs.withTag, DataRegs.get]

theorem busy_iff (s : State) : s.busy = true ↔ s.st.phase ≠ .idle := by
  simp [State.busy]

theorem not_busy_iff (s : State) : s.busy = false ↔ s.st.phase = .idle := by
  simp [State.busy]

theorem decodePhase_code (p : Phase) :
    decodePhase p.code = match p with
      | .idle => .reject .idlePhase
      | .check => .instr .check
      | .b0 => .instr .b0
      | .aad => .instr .aad
      | .enc => .instr .enc
      | .dec1 => .instr .dec1
      | .final => .instr .final
      | .verify => .instr .verify
      | .dec2 => .instr .dec2
      | .wipe => .instr .wipe := by
  cases p <;> rfl

/-! ## Host writes (spec 40_commands.md R101, R102, R104) -/

theorem hostWrite_busy {off : BitVec 8} {s : State} (v : Word) (hb : s.st.phase ≠ .idle)
    (ho : off ≠ 0x08) : hostWrite off v s = droppedWrite s := by
  rw [hostWrite, if_pos ⟨(busy_iff s).2 hb, ho⟩]

/-- What a write of a register does while BUSY = 0. -/
theorem hostWrite_idle {s : State} (r : Reg) (v : Word) (hb : s.st.phase = .idle) :
    hostWrite r.offset v s = match r with
      | .ctrl => { s with ctrl := ctrlOfWord v }
      | .cmd => cmdWrite v s
      | .status => statusWrite v s
      | .data d => { s with data := s.data.set d v } := by
  have h : s.busy = false := (not_busy_iff s).2 hb
  simp only [hostWrite, h, Bool.false_eq_true, false_and, if_false, Reg.ofOffset_offset]
  cases r <;> rfl

/-- Every host write, in any state and at any offset: a drop, a STATUS write, or one of the writes of an
idle machine. -/
theorem hostWrite_cases (off : BitVec 8) (v : Word) (s : State) :
    (s.st.phase ≠ .idle ∧ hostWrite off v s = droppedWrite s) ∨
    hostWrite off v s = statusWrite v s ∨
    (s.st.phase = .idle ∧ (hostWrite off v s = { s with ctrl := ctrlOfWord v } ∨
      hostWrite off v s = s ∨ (∃ op, op ≠ .none ∧ hostWrite off v s = startCommand op s) ∨
      hostWrite off v s = illegalCommand s ∨
      ∃ r, hostWrite off v s = { s with data := s.data.set r v })) := by
  by_cases hd : s.busy = true ∧ off ≠ 0x08
  · exact .inl ⟨(busy_iff s).1 hd.1, by rw [hostWrite, if_pos hd]⟩
  · by_cases ho : off = 0x08
    · subst ho
      exact .inr (.inl (by rw [hostWrite, if_neg hd]; rfl))
    · have hi : s.st.phase = .idle := by
        by_contra hne
        exact hd ⟨(busy_iff s).2 hne, ho⟩
      refine .inr ?_
      rw [hostWrite, if_neg hd]
      cases hr : Reg.ofOffset off with
      | none => exact .inr ⟨hi, .inr (.inl rfl)⟩
      | some r =>
        cases r with
        | ctrl => exact .inr ⟨hi, .inl rfl⟩
        | status => exact .inl rfl
        | data d => exact .inr ⟨hi, .inr (.inr (.inr (.inr ⟨d, rfl⟩)))⟩
        | cmd =>
          refine .inr ⟨hi, ?_⟩
          simp only [cmdWrite]
          split_ifs
          · exact .inr (.inl rfl)
          · exact .inr (.inr (.inl ⟨.enc, by decide, rfl⟩))
          · exact .inr (.inr (.inl ⟨.dec, by decide, rfl⟩))
          · exact .inr (.inr (.inr (.inl rfl)))

/-! ## The memory port (spec 20_memory.md R69) -/

theorem memRead_ok {r : MemRequest} {s : State} (h : s.busOk r = true) :
    memRead r s = (some (Memory.readBytes s.mem r.addr r.n), s.logRequest r) := by
  simp [memRead, h]

theorem memRead_err {r : MemRequest} {s : State} (h : s.busOk r = false) :
    memRead r s = (none, s.logRequest r) := by
  simp [memRead, h]

theorem memWrite_ok {r : MemRequest} {s : State} (free : Nat → BitVec 16) (w : List Byte)
    (h : s.busOk r = true) :
    memWrite free r w s = (true, { s.logRequest r with mem := Memory.writeBytes s.mem r.addr w }) := by
  simp [memWrite, h]

theorem memWrite_err {r : MemRequest} {s : State} (free : Nat → BitVec 16) (w : List Byte)
    (h : s.busOk r = false) :
    memWrite free r w s = (false, { s.logRequest r with
      mem := Memory.writeWhere (fun k => (free s.draws).getLsbD k) s.mem r.addr 0 w
      draws := s.draws + 1 }) := by
  simp [memWrite, h]

@[simp] theorem busOk_logRequest (r r' : MemRequest) (s : State) :
    (s.logRequest r').busOk r = s.busOk r := rfl

@[simp] theorem busOk_absorb (r : MemRequest) (E : Block → Block) (x : Block) (s : State) :
    (absorb E x s).busOk r = s.busOk r := rfl

@[simp] theorem busOk_keystream (r : MemRequest) (E : Block → Block) (i : Nat) (s : State) :
    (keystream E i s).busOk r = s.busOk r := rfl

/-! ## The sequencer (spec 40_commands.md R110) -/

theorem payloadEntry_eq (s : State) :
    payloadEntry s = s.toPhase (if msgBlocks s.mlen = 0 then .final
      else if s.st.op = .enc then .enc else .dec1) := by
  simp only [payloadEntry]
  split_ifs <;> rfl

theorem succ_toNat {i : BitVec 64} (h : i.toNat < 2 ^ 64 - 1) : (i + 1).toNat = i.toNat + 1 := by
  bv_omega

theorem msgBlocks_mlen_le (s : State) : msgBlocks s.mlen ≤ 2 ^ 60 := by
  have := mlen_lt s
  simp only [msgBlocks]
  omega

theorem aadBlocks_le {a : Nat} (h : a < 2 ^ 32) : aadBlocks a < 2 ^ 29 := by
  simp only [aadBlocks, prefixLen]
  split_ifs <;> omega

end Sys2Proof.Machine
end

