-- ==== Sys2Proof/Laws/Step.lean ====
section
/-! SUPPORT. What each engine step answers, case by case, what every step of the machine can be, and what the
engine's steps leave alone. Later proofs cite these and never unfold a step. -/

namespace Sys2Proof.Machine

/-! ## The chunk counter -/

theorem nextChunk_more {i : BitVec 64} {last : State → State} {s : State}
    (h : i.toNat < 2 ^ 64 - 1) (hn : i.toNat ≠ msgBlocks s.mlen) :
    nextChunk i last s = { s with st := { s.st with ctr := i + 1 } } := by
  simp only [nextChunk]
  rw [if_neg]
  rw [succ_toNat h]
  omega

theorem nextChunk_last {i : BitVec 64} {last : State → State} {s : State}
    (h : i.toNat < 2 ^ 64 - 1) (hn : i.toNat = msgBlocks s.mlen) :
    nextChunk i last s = last { s with st := { s.st with ctr := i + 1 } } := by
  simp only [nextChunk]
  rw [if_pos]
  rw [succ_toNat h]
  omega

theorem ctr_lt {s : State} (h : s.st.ctr.toNat ≤ msgBlocks s.mlen) :
    s.st.ctr.toNat < 2 ^ 64 - 1 := by
  have := msgBlocks_mlen_le s
  omega

theorem nextChunk_cases (i : BitVec 64) (last : State → State) (s : State) :
    nextChunk i last s = { s with st := { s.st with ctr := i + 1 } } ∨
    nextChunk i last s = last { s with st := { s.st with ctr := i + 1 } } := by
  simp only [nextChunk]
  split_ifs
  · exact .inr rfl
  · exact .inl rfl

/-! ## AAD (spec 42_mac_aad.md R155) -/

theorem stepAad_readError {s : State} (E : Block → Block)
    (h : s.busOk (s.aadRequest s.st.aj.toNat) = false) :
    stepAad E s = raise .busError (s.logRequest (s.aadRequest s.st.aj.toNat)) := by
  simp only [stepAad, memRead_err h]

/-- The state after an AAD step has absorbed its block, before the next phase is chosen. -/
def aadAbsorbed (E : Block → Block) (s : State) : State :=
  let q := s.aadRequest s.st.aj.toNat
  let u := absorb E (aadInput s.alen s.st.aj.toNat (Memory.readBytes s.mem q.addr q.n))
    (s.logRequest q)
  { u with st := { u.st with aj := s.st.aj + 1 } }

theorem stepAad_ok {s : State} (E : Block → Block)
    (h : s.busOk (s.aadRequest s.st.aj.toNat) = true) :
    stepAad E s = if (s.st.aj + 1).toNat = aadBlocks s.alen then payloadEntry (aadAbsorbed E s)
      else aadAbsorbed E s := by
  simp only [stepAad, memRead_ok h]
  rfl

/-- The block of AAD step j is piece j of `prefix || AAD`, padded (42_mac_aad.md R152 to R155). -/
theorem aadInput_eq_piece (s : State) (j : Nat) (hj : j < aadBlocks s.alen) :
    aadInput s.alen j (Memory.readBytes s.mem (s.aadRequest j).addr (s.aadRequest j).n) =
      pad16 (piece (aadPrefix s.alen ++ Memory.readBytes s.mem s.aadAddr s.alen) j) := by
  have hpos : 0 < s.alen := by
    by_contra h
    simp [aadBlocks, show s.alen = 0 by omega] at hj
  have hp : (aadPrefix s.alen).length = prefixLen s.alen := by
    simp only [aadPrefix, prefixLen]
    split_ifs <;> first | omega | simp
  have hp2 : prefixLen s.alen ≤ 6 ∧ 2 ≤ prefixLen s.alen := by
    simp only [prefixLen]
    split_ifs <;> omega
  have hb : 16 * j < prefixLen s.alen + s.alen := by
    simp only [aadBlocks] at hj
    rw [if_neg (by omega)] at hj
    omega
  simp only [aadInput, piece, State.aadRequest, aadFirst, aadEnd]
  by_cases h : j = 0
  · subst h
    rw [if_pos rfl]
    congr 1
    simp only [Nat.mul_zero, List.drop_zero, Nat.zero_add, Nat.zero_max, Nat.sub_self,
      BitVec.add_zero]
    rw [List.take_append, hp, List.take_of_length_le (by omega)]
    congr 1
    have hr := Memory.take_drop_readBytes s.mem s.aadAddr s.alen 0
      (min 16 (prefixLen s.alen + s.alen) - prefixLen s.alen) (by omega)
    simp only [List.drop_zero, BitVec.add_zero] at hr
    rw [← hr]
    by_cases h16 : 16 ≤ prefixLen s.alen + s.alen
    · rw [Nat.min_eq_left h16]
    · rw [List.take_of_length_le (by simp; omega), List.take_of_length_le (by simp; omega)]
  · rw [if_neg h]
    congr 1
    rw [List.drop_append, List.drop_of_length_le (by omega), hp, List.nil_append,
      Nat.max_eq_left (by omega)]
    rw [← Memory.take_drop_readBytes s.mem s.aadAddr s.alen (16 * j - prefixLen s.alen)
      (min (16 * j + 16) (prefixLen s.alen + s.alen) - 16 * j) (by omega)]
    by_cases h16 : 16 * j + 16 ≤ prefixLen s.alen + s.alen
    · congr 1
      omega
    · rw [List.take_of_length_le (by simp; omega), List.take_of_length_le (by simp; omega)]

/-! ## ENC, DEC1 and DEC2 (spec 43_payload_encrypt.md R171, 45_decrypt.md R201, R206) -/

/-- The bytes of the chunk that the current chunk step reads. -/
def chunkIn (s : State) : List Byte :=
  Memory.readBytes s.mem (chunkAddr s.inAddr s.st.ctr.toNat) (chunkLen s.mlen s.st.ctr.toNat)

/-- The keystream block of the current chunk step. -/
def chunkKey (E : Block → Block) (s : State) : Block := E (ctrBlock s.nonce s.st.ctr.toNat)

/-- The bytes that the current ENC or DEC2 step writes. -/
def chunkOut (E : Block → Block) (s : State) : List Byte := xorBytes (chunkIn s) (chunkKey E s)

@[simp] theorem length_chunkIn (s : State) :
    (chunkIn s).length = chunkLen s.mlen s.st.ctr.toNat := by simp [chunkIn]

@[simp] theorem length_chunkOut (E : Block → Block) (s : State) :
    (chunkOut E s).length = chunkLen s.mlen s.st.ctr.toNat := by
  rw [chunkOut, length_xorBytes _ (by simp [chunkLen_le]), length_chunkIn]

/-- ENC after its read, Absorb and keystream. -/
def encReady (E : Block → Block) (s : State) : State :=
  keystream E s.st.ctr.toNat
    (absorb E (pad16 (chunkIn s)) (s.logRequest (s.readRequest s.st.ctr.toNat)))

/-- DEC2 after its read and keystream. -/
def dec2Ready (E : Block → Block) (s : State) : State :=
  keystream E s.st.ctr.toNat (s.logRequest (s.readRequest s.st.ctr.toNat))

/-- DEC1 after its read, keystream and Absorb. -/
def dec1Ready (E : Block → Block) (s : State) : State :=
  absorb E (pad16 (chunkOut E s)) (dec2Ready E s)

/-- The current chunk written by a request that was answered ok. -/
def wrote (E : Block → Block) (s u : State) : State :=
  { u.logRequest (s.writeRequest s.st.ctr.toNat) with
    mem := Memory.writeBytes s.mem (chunkAddr s.outAddr s.st.ctr.toNat) (chunkOut E s) }

/-- The current chunk after a write request that got an error response. -/
def wroteSome (E : Block → Block) (free : Nat → BitVec 16) (s u : State) : State :=
  { u.logRequest (s.writeRequest s.st.ctr.toNat) with
    mem := Memory.writeWhere (fun k => (free s.draws).getLsbD k) s.mem
      (chunkAddr s.outAddr s.st.ctr.toNat) 0 (chunkOut E s)
    draws := s.draws + 1 }

/-- The bytes a whole write leaves. -/
theorem wrote_mem (E : Block → Block) (s u : State) :
    Memory.readBytes (wrote E s u).mem (chunkAddr s.outAddr s.st.ctr.toNat)
        (chunkLen s.mlen s.st.ctr.toNat) = chunkOut E s ∧
      ∀ a, inBuffer (chunkAddr s.outAddr s.st.ctr.toNat) (chunkLen s.mlen s.st.ctr.toNat) a = false →
        Memory.byte (wrote E s u).mem a = Memory.byte s.mem a := by
  have hc := chunkLen_le s.mlen s.st.ctr.toNat
  have hl : (chunkOut E s).length ≤ 2 ^ 64 := by
    rw [length_chunkOut]
    omega
  refine ⟨?_, fun a ha => ?_⟩
  · rw [← length_chunkOut E s]
    exact Memory.readBytes_writeBytes _ _ _ hl
  · simp only [inBuffer, decide_eq_false_iff_not, Nat.not_lt] at ha
    exact Memory.byte_writeBytes_outside hl (by rw [length_chunkOut]; exact ha)

/-- The bytes a failed write leaves: outside the request the old ones, inside it the old or the new
(20_memory.md R69). -/
theorem wroteSome_mem (E : Block → Block) (free : Nat → BitVec 16) (s u : State) :
    (∀ a, inBuffer (chunkAddr s.outAddr s.st.ctr.toNat) (chunkLen s.mlen s.st.ctr.toNat) a = false →
        Memory.byte (wroteSome E free s u).mem a = Memory.byte s.mem a) ∧
      ∀ a, Memory.byte (wroteSome E free s u).mem a = Memory.byte s.mem a ∨
        Memory.byte (wroteSome E free s u).mem a =
          (chunkOut E s).getD (a - chunkAddr s.outAddr s.st.ctr.toNat).toNat
            (Memory.byte s.mem a) := by
  have hc := chunkLen_le s.mlen s.st.ctr.toNat
  have hl : (chunkOut E s).length ≤ 2 ^ 64 := by
    rw [length_chunkOut]
    omega
  refine ⟨fun a ha => ?_, fun a => ?_⟩
  · simp only [wroteSome]
    rw [Memory.byte_writeWhere _ _ _ _ _ _ hl]
    simp only [inBuffer, decide_eq_false_iff_not, Nat.not_lt] at ha
    split_ifs
    · rw [List.getD_eq_getElem?_getD, List.getElem?_eq_none (by rw [length_chunkOut]; exact ha)]
      rfl
    · rfl
  · simp only [wroteSome]
    rw [Memory.byte_writeWhere _ _ _ _ _ _ hl]
    split_ifs
    · exact .inr rfl
    · exact .inl rfl

theorem stepEnc_readError {s : State} (E : Block → Block) (free : Nat → BitVec 16)
    (h : s.busOk (s.readRequest s.st.ctr.toNat) = false) :
    stepEnc E free s = raise .busError (s.logRequest (s.readRequest s.st.ctr.toNat)) := by
  simp only [stepEnc, memRead_err h]

theorem stepEnc_writeError {s : State} (E : Block → Block) (free : Nat → BitVec 16)
    (hr : s.busOk (s.readRequest s.st.ctr.toNat) = true)
    (hw : s.busOk (s.writeRequest s.st.ctr.toNat) = false) :
    stepEnc E free s = raise .busError (wroteSome E free s (encReady E s)) := by
  simp only [stepEnc, memRead_ok hr]
  rw [memWrite_err _ _ (by simpa using hw)]
  rfl

theorem stepEnc_ok {s : State} (E : Block → Block) (free : Nat → BitVec 16)
    (hr : s.busOk (s.readRequest s.st.ctr.toNat) = true)
    (hw : s.busOk (s.writeRequest s.st.ctr.toNat) = true) :
    stepEnc E free s =
      nextChunk s.st.ctr (State.toPhase .final) (wrote E s (encReady E s)) := by
  simp only [stepEnc, memRead_ok hr]
  rw [memWrite_ok _ _ (by simpa using hw)]
  rfl

theorem stepDec1_readError {s : State} (E : Block → Block)
    (h : s.busOk (s.readRequest s.st.ctr.toNat) = false) :
    stepDec1 E s = raise .busError (s.logRequest (s.readRequest s.st.ctr.toNat)) := by
  simp only [stepDec1, memRead_err h]

theorem stepDec1_ok {s : State} (E : Block → Block)
    (h : s.busOk (s.readRequest s.st.ctr.toNat) = true) :
    stepDec1 E s = nextChunk s.st.ctr (State.toPhase .final) (dec1Ready E s) := by
  simp only [stepDec1, memRead_ok h]
  rfl

theorem stepDec2_readError {s : State} (E : Block → Block) (free : Nat → BitVec 16)
    (h : s.busOk (s.readRequest s.st.ctr.toNat) = false) :
    stepDec2 E free s = raise .busError (s.logRequest (s.readRequest s.st.ctr.toNat)) := by
  simp only [stepDec2, memRead_err h]

theorem stepDec2_writeError {s : State} (E : Block → Block) (free : Nat → BitVec 16)
    (hr : s.busOk (s.readRequest s.st.ctr.toNat) = true)
    (hw : s.busOk (s.writeRequest s.st.ctr.toNat) = false) :
    stepDec2 E free s = raise .busError (wroteSome E free s (dec2Ready E s)) := by
  simp only [stepDec2, memRead_ok hr]
  rw [memWrite_err _ _ (by simpa using hw)]
  rfl

theorem stepDec2_ok {s : State} (E : Block → Block) (free : Nat → BitVec 16)
    (hr : s.busOk (s.readRequest s.st.ctr.toNat) = true)
    (hw : s.busOk (s.writeRequest s.st.ctr.toNat) = true) :
    stepDec2 E free s = nextChunk s.st.ctr (raise .ok) (wrote E s (dec2Ready E s)) := by
  simp only [stepDec2, memRead_ok hr]
  rw [memWrite_ok _ _ (by simpa using hw)]
  rfl

/-! ## VERIFY (spec 45_decrypt.md R203) -/

theorem tagDifference_eq_zero_iff (s : State) :
    tagDifference s.st.cand s.tagByte = 0 ↔ s.st.cand = s.tagReg := by
  rw [tagDifference_eq_zero]
  constructor
  · exact fun h => Vector.ext fun k hk => by rw [h k hk, getElem_tagReg]
  · intro h k hk
    rw [h, getElem_tagReg]

theorem stepVerify_match {s : State} (h : s.st.cand = s.tagReg) : stepVerify s = accept s := by
  rw [stepVerify, if_pos ((tagDifference_eq_zero_iff s).2 h)]

theorem stepVerify_differ {s : State} (h : s.st.cand ≠ s.tagReg) :
    stepVerify s = raise .authenticationFailure s := by
  rw [stepVerify, if_neg (mt (tagDifference_eq_zero_iff s).1 h)]

/-! ## CHECK (spec 41_nonce_formatter.md R131) -/

/-- The code that CHECK raises when the contract fails (60_exceptions.md R232). -/
def checkCode (s : State) : Result :=
  if s.nonceLen < 7 ∨ 13 < s.nonceLen then .invalidNonceLength
  else if 2 ^ (8 * s.lenSize) ≤ s.mlen then .messageTooLarge else .aadTooLarge

theorem stepCheck_pass {s : State} (h : s.ContractOk) : stepCheck s = s.toPhase .b0 := by
  obtain ⟨h1, h2, h3, h4⟩ := h
  rw [stepCheck, if_neg (by omega), if_neg (by omega), if_neg (by omega)]

theorem stepCheck_fail {s : State} (h : ¬ s.ContractOk) :
    stepCheck s = raise (checkCode s) s := by
  simp only [State.ContractOk] at h
  simp only [stepCheck, checkCode]
  split_ifs with h1 h2 h3
  · rfl
  · rfl
  · rfl
  · omega

theorem checkCode_ne_ok (s : State) :
    checkCode s ≠ .ok ∧ checkCode s ≠ .busError ∧ checkCode s ≠ .illegalCommand := by
  simp only [checkCode]
  split_ifs <;> decide

/-! ## The engine's turn and the step -/

/-- The engine's step of the current phase, on a state. -/
def phaseStep (s : State) : State :=
  match s.st.phase with
  | .idle => s
  | .check => stepCheck s
  | .b0 => stepB0 (Config.cipher s.key) s
  | .aad => stepAad (Config.cipher s.key) s
  | .enc => stepEnc (Config.cipher s.key) Config.freeSubset s
  | .dec1 => stepDec1 (Config.cipher s.key) s
  | .final => stepFinal (Config.cipher s.key) s
  | .verify => stepVerify s
  | .dec2 => stepDec2 (Config.cipher s.key) Config.freeSubset s
  | .wipe => complete s

/-- The engine's turn never stops; out of IDLE it counts a step and makes it. -/
theorem engineTurn_eq (s : State) :
    engineTurn s = .next (if s.st.phase = .idle then s
      else phaseStep { s with steps := s.steps + 1 }) := by
  have hd : decode s.busy (.phase s.st.phase.code) = decodePhase s.st.phase.code := rfl
  simp only [engineTurn, hd, decodePhase_code, phaseStep]
  cases h : s.st.phase <;> simp <;> rfl

theorem step_nil {s : State} (h : s.inputs = []) : step s = engineTurn s := by
  simp only [step, h]

theorem step_cons {s : State} {x : Input} {rest : List Input} (h : s.inputs = x :: rest) :
    step s = inputTurn x { s with inputs := rest } := by
  simp only [step, h]

/-- Whatever command a CMD value decodes to, it is the host write of that value (40_commands.md R104). -/
theorem exec_decodeCmd (v : Word) (s : State) :
    exec (decodeCmd v) s = .next (hostWrite 0x04 v s) := by
  simp only [decodeCmd]
  split_ifs with h1 h2 h3
  · rw [h1]; rfl
  · rw [h2]; rfl
  · rw [h3]; rfl
  · rfl

theorem hostWrite_status (v : Word) (s : State) : hostWrite 0x08 v s = statusWrite v s := by
  rw [hostWrite, if_neg (by simp)]
  rfl

/-- A read acquires or leaves the state as it is. -/
theorem acquireOnRead_cases (off : BitVec 8) (s : State) :
    acquireOnRead off s = s.acquire ∨ acquireOnRead off s = s := by
  simp only [acquireOnRead]
  split_ifs
  · exact .inl rfl
  · exact .inr rfl

/-- What a host access does: two refusals, a read, or one host write. -/
theorem accessTurn_cases (a : HostAccess) (s : State) :
    (a.bytes ≠ 4 ∧ accessTurn a s = .refused .subWordAccess) ∨
    (a.bytes = 4 ∧ aligned a.offset = false ∧ accessTurn a s = .refused .misalignedAccess) ∨
    (a.bytes = 4 ∧ aligned a.offset = true ∧ a.kind = .rd ∧
      accessTurn a s = .next { acquireOnRead a.offset s with rdata := hostRead a.offset s }) ∨
    (a.bytes = 4 ∧ aligned a.offset = true ∧ a.kind = .wr ∧
      accessTurn a s = .next (hostWrite a.offset a.data s)) := by
  obtain ⟨k, off, n, v⟩ := a
  by_cases hn : n = 4
  · subst hn
    cases hal : aligned off with
    | false => exact .inr (.inl ⟨rfl, rfl, by simp [accessTurn, decode, decodeAccess, hal]⟩)
    | true =>
      cases k with
      | rd =>
        exact .inr (.inr (.inl ⟨rfl, rfl, rfl, by
          simp [accessTurn, decode, decodeAccess, hal, exec, execRd]⟩))
      | wr =>
        refine .inr (.inr (.inr ⟨rfl, rfl, rfl, ?_⟩))
        simp only [accessTurn, decode, decodeAccess, hal, ne_eq, not_true_eq_false, if_false,
          Bool.not_true, Bool.false_eq_true]
        by_cases h8 : off = 0x08
        · subst h8
          rw [if_pos rfl, hostWrite_status]
          rfl
        · rw [if_neg h8]
          cases hb : s.busy with
          | true => exact if_pos hal
          | false =>
            rw [if_neg Bool.false_ne_true]
            by_cases h4 : off = 0x04
            · subst h4
              rw [if_pos rfl]
              exact exec_decodeCmd v s
            · rw [if_neg h4]
              exact if_pos hal
  · exact .inl ⟨hn, by simp [accessTurn, decode, decodeAccess, hn]⟩

/-- A host access that answers a next state has made a read or one host write. -/
theorem accessTurn_next {a : HostAccess} {s t : State} (h : accessTurn a s = .next t) :
    t = { acquireOnRead a.offset s with rdata := hostRead a.offset s } ∨
      ∃ off v, t = hostWrite off v s := by
  rcases accessTurn_cases a s with ⟨_, e⟩ | ⟨_, _, e⟩ | ⟨_, _, _, e⟩ | ⟨_, _, _, e⟩ <;>
    rw [e] at h
  · cases h
  · cases h
  · exact .inl (Host.Outcome.next.inj h).symm
  · exact .inr ⟨_, _, (Host.Outcome.next.inj h).symm⟩

end Sys2Proof.Machine
end

