-- ==== Sys2Proof/Laws/Run.lean ====
section
/-! SUPPORT. Runs of several steps: a first step, and a run in two parts. -/

namespace Sys2Proof.Machine

theorem run_succ {s t : State} (h : step s = .next t) (k : Nat) :
    Host.Core.run core (k + 1) s = Host.Core.run core k t := by
  have h' : core.step s = .next t := h
  simp only [Host.Core.run, h']

theorem run_add {s t : State} {k : Nat} (h : Host.Core.run core k s = .next t) (m : Nat) :
    Host.Core.run core (k + m) s = Host.Core.run core m t := by
  induction k generalizing s with
  | zero =>
    cases h
    rw [Nat.zero_add]
  | succ k ih =>
    cases hs : step s with
    | next u =>
      rw [run_succ hs] at h
      rw [show k + 1 + m = k + m + 1 by omega, run_succ hs, ih h]
    | fault e =>
      have hs' : core.step s = .fault e := hs
      simp only [Host.Core.run, hs'] at h
      cases h
    | refused e =>
      have hs' : core.step s = .refused e := hs
      simp only [Host.Core.run, hs'] at h
      cases h

/-- With no move listed, the engine runs alone. -/
theorem run_engine_succ {s : State} (hi : s.inputs = []) (hp : s.st.phase ≠ .idle) (k : Nat) :
    Host.Core.run core (k + 1) s =
      Host.Core.run core k (phaseStep { s with steps := s.steps + 1 }) :=
  run_succ (by rw [step_nil hi, engineTurn_eq, if_neg hp]) k

/-- WIPE is the last step of a command. -/
theorem run_wipe (s : State) (hi : s.inputs = []) (hp : s.st.phase = .wipe) :
    Host.Core.run core 1 s = .next (complete { s with steps := s.steps + 1 }) := by
  rw [run_engine_succ hi (by rw [hp]; decide)]
  simp only [phaseStep, hp]
  rfl

/-- A host write of a data register of an idle machine. -/
theorem step_writeData (s : State) (r : DataReg) (v : Word) (rest : List Input)
    (hi : s.inputs = .access (HostLine.wr (.data r) v).encode :: rest) (hp : s.st.phase = .idle) :
    step s = .next { s with inputs := rest, data := s.data.set r v } := by
  rw [step_cons hi]
  simp only [inputTurn]
  rcases accessTurn_cases (HostLine.wr (.data r) v).encode { s with inputs := rest } with
    ⟨a, _⟩ | ⟨_, a, _⟩ | ⟨_, _, a, _⟩ | ⟨_, _, _, e⟩
  · exact absurd rfl a
  · exact absurd ((aligned_offset (.data r)).symm.trans a) (by decide)
  · cases a
  · rw [e]
    show Host.Outcome.next (hostWrite (Reg.data r).offset v _) = _
    rw [hostWrite_idle (.data r) v (by exact hp)]

/-- A host read of a register by its name. -/
theorem step_read (s : State) (r : Reg) (rest : List Input)
    (hi : s.inputs = .access (HostLine.rd r).encode :: rest) :
    step s = .next { acquireOnRead r.offset { s with inputs := rest } with
      rdata := hostRead r.offset { s with inputs := rest } } := by
  rw [step_cons hi]
  simp only [inputTurn]
  rcases accessTurn_cases (HostLine.rd r).encode { s with inputs := rest } with
    ⟨a, _⟩ | ⟨_, a, _⟩ | ⟨_, _, _, e⟩ | ⟨_, _, a, _⟩
  · exact absurd rfl a
  · exact absurd ((aligned_offset r).symm.trans a) (by decide)
  · exact e
  · cases a

end Sys2Proof.Machine
end

