-- ==== Sys2Proof/Laws/Frame.lean ====
section
/-! SUPPORT. What an engine step leaves alone: the frame of `phaseStep`, said once for all nine phases. -/

namespace Sys2Proof.Machine

/-- `t` agrees with `s` on what no engine step touches. -/
structure Untouched (s t : State) : Prop where
  ctrl : t.ctrl = s.ctrl
  busErr : t.busErr = s.busErr
  key : t.key = s.key
  inputs : t.inputs = s.inputs
  rdata : t.rdata = s.rdata
  views : t.views = s.views
  hostByte : t.hostByte = s.hostByte
  steps : t.steps = s.steps

/-- `t` agrees with `s` on all but the chunk counter, the phase and the pending result. -/
structure Chunked (s t : State) : Prop extends Untouched s t where
  status : t.status = s.status
  data : t.data = s.data
  mem : t.mem = s.mem
  requests : t.requests = s.requests
  calls : t.calls = s.calls
  op : t.st.op = s.st.op
  mac : t.st.mac = s.st.mac

theorem nextChunk_toFinal (i : BitVec 64) (s : State) :
    Chunked s (nextChunk i (State.toPhase .final) s) := by
  rcases nextChunk_cases i (State.toPhase .final) s with e | e <;> rw [e] <;>
    exact ⟨⟨rfl, rfl, rfl, rfl, rfl, rfl, rfl, rfl⟩, rfl, rfl, rfl, rfl, rfl, rfl, rfl⟩

theorem nextChunk_toWipe (i : BitVec 64) (s : State) :
    Chunked s (nextChunk i (raise .ok) s) := by
  rcases nextChunk_cases i (raise .ok) s with e | e <;> rw [e] <;>
    exact ⟨⟨rfl, rfl, rfl, rfl, rfl, rfl, rfl, rfl⟩, rfl, rfl, rfl, rfl, rfl, rfl, rfl⟩

/-- No engine step changes CTRL, the parameters, the moves to come or the host side. -/
theorem phaseStep_untouched (s : State) :
    Untouched s (phaseStep s) := by
  simp only [phaseStep]
  cases hp : s.st.phase
  all_goals dsimp only
  · exact ⟨rfl, rfl, rfl, rfl, rfl, rfl, rfl, rfl⟩
  · simp only [stepCheck]
    split_ifs <;> exact ⟨rfl, rfl, rfl, rfl, rfl, rfl, rfl, rfl⟩
  · simp only [stepB0, payloadEntry]
    split_ifs <;> exact ⟨rfl, rfl, rfl, rfl, rfl, rfl, rfl, rfl⟩
  · cases hb : s.busOk (s.aadRequest s.st.aj.toNat)
    · rw [stepAad_readError _ hb]
      exact ⟨rfl, rfl, rfl, rfl, rfl, rfl, rfl, rfl⟩
    · rw [stepAad_ok _ hb]
      simp only [payloadEntry]
      split_ifs <;> exact ⟨rfl, rfl, rfl, rfl, rfl, rfl, rfl, rfl⟩
  · cases hb : s.busOk (s.readRequest s.st.ctr.toNat)
    · rw [stepEnc_readError _ _ hb]
      exact ⟨rfl, rfl, rfl, rfl, rfl, rfl, rfl, rfl⟩
    cases hw : s.busOk (s.writeRequest s.st.ctr.toNat)
    · rw [stepEnc_writeError _ _ hb hw]
      exact ⟨rfl, rfl, rfl, rfl, rfl, rfl, rfl, rfl⟩
    · rw [stepEnc_ok _ _ hb hw]
      have h := (nextChunk_toFinal s.st.ctr
        (wrote (Config.cipher s.key) s (encReady (Config.cipher s.key) s))).toUntouched
      exact ⟨h.1, h.2, h.3, h.4, h.5, h.6, h.7, h.8⟩
  · cases hb : s.busOk (s.readRequest s.st.ctr.toNat)
    · rw [stepDec1_readError _ hb]
      exact ⟨rfl, rfl, rfl, rfl, rfl, rfl, rfl, rfl⟩
    · rw [stepDec1_ok _ hb]
      have h := (nextChunk_toFinal s.st.ctr
        (dec1Ready (Config.cipher s.key) s)).toUntouched
      exact ⟨h.1, h.2, h.3, h.4, h.5, h.6, h.7, h.8⟩
  · simp only [stepFinal]
    split_ifs <;> exact ⟨rfl, rfl, rfl, rfl, rfl, rfl, rfl, rfl⟩
  · simp only [stepVerify, accept]
    split_ifs <;> exact ⟨rfl, rfl, rfl, rfl, rfl, rfl, rfl, rfl⟩
  · cases hb : s.busOk (s.readRequest s.st.ctr.toNat)
    · rw [stepDec2_readError _ _ hb]
      exact ⟨rfl, rfl, rfl, rfl, rfl, rfl, rfl, rfl⟩
    cases hw : s.busOk (s.writeRequest s.st.ctr.toNat)
    · rw [stepDec2_writeError _ _ hb hw]
      exact ⟨rfl, rfl, rfl, rfl, rfl, rfl, rfl, rfl⟩
    · rw [stepDec2_ok _ _ hb hw]
      have h := (nextChunk_toWipe s.st.ctr
        (wrote (Config.cipher s.key) s (dec2Ready (Config.cipher s.key) s))).toUntouched
      exact ⟨h.1, h.2, h.3, h.4, h.5, h.6, h.7, h.8⟩
  · exact ⟨rfl, rfl, rfl, rfl, rfl, rfl, rfl, rfl⟩

/-- Only WIPE changes STATUS, and only it ends the operation. -/
theorem phaseStep_status (s : State) (hw : s.st.phase ≠ .wipe) :
    (phaseStep s).status = s.status ∧ (phaseStep s).st.op = s.st.op := by
  simp only [phaseStep]
  cases hp : s.st.phase
  all_goals dsimp only
  · exact ⟨rfl, rfl⟩
  · simp only [stepCheck]
    split_ifs <;> exact ⟨rfl, rfl⟩
  · simp only [stepB0, payloadEntry]
    split_ifs <;> exact ⟨rfl, rfl⟩
  · cases hb : s.busOk (s.aadRequest s.st.aj.toNat)
    · rw [stepAad_readError _ hb]
      exact ⟨rfl, rfl⟩
    · rw [stepAad_ok _ hb]
      simp only [payloadEntry]
      split_ifs <;> exact ⟨rfl, rfl⟩
  · cases hb : s.busOk (s.readRequest s.st.ctr.toNat)
    · rw [stepEnc_readError _ _ hb]
      exact ⟨rfl, rfl⟩
    cases hw : s.busOk (s.writeRequest s.st.ctr.toNat)
    · rw [stepEnc_writeError _ _ hb hw]
      exact ⟨rfl, rfl⟩
    · rw [stepEnc_ok _ _ hb hw]
      have h := (nextChunk_toFinal s.st.ctr
        (wrote (Config.cipher s.key) s (encReady (Config.cipher s.key) s)))
      exact ⟨h.status, h.op⟩
  · cases hb : s.busOk (s.readRequest s.st.ctr.toNat)
    · rw [stepDec1_readError _ hb]
      exact ⟨rfl, rfl⟩
    · rw [stepDec1_ok _ hb]
      have h := (nextChunk_toFinal s.st.ctr
        (dec1Ready (Config.cipher s.key) s))
      exact ⟨h.status, h.op⟩
  · simp only [stepFinal]
    split_ifs <;> exact ⟨rfl, rfl⟩
  · simp only [stepVerify, accept]
    split_ifs <;> exact ⟨rfl, rfl⟩
  · cases hb : s.busOk (s.readRequest s.st.ctr.toNat)
    · rw [stepDec2_readError _ _ hb]
      exact ⟨rfl, rfl⟩
    cases hw : s.busOk (s.writeRequest s.st.ctr.toNat)
    · rw [stepDec2_writeError _ _ hb hw]
      exact ⟨rfl, rfl⟩
    · rw [stepDec2_ok _ _ hb hw]
      have h := (nextChunk_toWipe s.st.ctr
        (wrote (Config.cipher s.key) s (dec2Ready (Config.cipher s.key) s)))
      exact ⟨h.status, h.op⟩
  · exact absurd hp hw

/-- Only FINAL of an ENCRYPT changes a data register, and it writes the tag (44_tag_finalizer.md R190). -/
theorem phaseStep_data (s : State) :
    (phaseStep s).data = s.data ∨
      (s.st.phase = .final ∧ s.st.op = .enc ∧ ∃ x, (phaseStep s).data = s.data.withTag x) := by
  simp only [phaseStep]
  cases hp : s.st.phase
  all_goals dsimp only
  · exact .inl rfl
  · simp only [stepCheck]
    split_ifs <;> exact .inl rfl
  · simp only [stepB0, payloadEntry]
    split_ifs <;> exact .inl rfl
  · cases hb : s.busOk (s.aadRequest s.st.aj.toNat)
    · rw [stepAad_readError _ hb]
      exact .inl rfl
    · rw [stepAad_ok _ hb]
      simp only [payloadEntry]
      split_ifs <;> exact .inl rfl
  · cases hb : s.busOk (s.readRequest s.st.ctr.toNat)
    · rw [stepEnc_readError _ _ hb]
      exact .inl rfl
    cases hw : s.busOk (s.writeRequest s.st.ctr.toNat)
    · rw [stepEnc_writeError _ _ hb hw]
      exact .inl rfl
    · rw [stepEnc_ok _ _ hb hw]
      have h := (nextChunk_toFinal s.st.ctr
        (wrote (Config.cipher s.key) s (encReady (Config.cipher s.key) s)))
      exact .inl h.data
  · cases hb : s.busOk (s.readRequest s.st.ctr.toNat)
    · rw [stepDec1_readError _ hb]
      exact .inl rfl
    · rw [stepDec1_ok _ hb]
      have h := (nextChunk_toFinal s.st.ctr
        (dec1Ready (Config.cipher s.key) s))
      exact .inl h.data
  · simp only [stepFinal]
    split_ifs <;> first | exact .inl rfl | exact .inr ⟨trivial, ‹_›, _, rfl⟩
  · simp only [stepVerify, accept]
    split_ifs <;> exact .inl rfl
  · cases hb : s.busOk (s.readRequest s.st.ctr.toNat)
    · rw [stepDec2_readError _ _ hb]
      exact .inl rfl
    cases hw : s.busOk (s.writeRequest s.st.ctr.toNat)
    · rw [stepDec2_writeError _ _ hb hw]
      exact .inl rfl
    · rw [stepDec2_ok _ _ hb hw]
      have h := (nextChunk_toWipe s.st.ctr
        (wrote (Config.cipher s.key) s (dec2Ready (Config.cipher s.key) s)))
      exact .inl h.data
  · exact .inl rfl

/-- `t` has the memory of `s`, and at most one request more, a read. -/
def NoWrite (s t : State) : Prop :=
  t.mem = s.mem ∧ (t.requests = s.requests ∨ ∃ r, r.kind = .rd ∧ t.requests = r :: s.requests)

/-- No phase but ENC and DEC2 writes memory or asks to (45_decrypt.md R207). -/
theorem phaseStep_noWrite (s : State) (h1 : s.st.phase ≠ .enc) (h2 : s.st.phase ≠ .dec2) :
    NoWrite s (phaseStep s) := by
  simp only [phaseStep]
  cases hp : s.st.phase
  all_goals dsimp only
  · exact ⟨rfl, .inl rfl⟩
  · simp only [stepCheck]
    split_ifs <;> exact ⟨rfl, .inl rfl⟩
  · simp only [stepB0, payloadEntry]
    split_ifs <;> exact ⟨rfl, .inl rfl⟩
  · cases hb : s.busOk (s.aadRequest s.st.aj.toNat)
    · rw [stepAad_readError _ hb]
      exact ⟨rfl, .inr ⟨_, rfl, rfl⟩⟩
    · rw [stepAad_ok _ hb]
      simp only [payloadEntry]
      split_ifs <;> exact ⟨rfl, .inr ⟨s.aadRequest s.st.aj.toNat, rfl, rfl⟩⟩
  · exact absurd hp h1
  · cases hb : s.busOk (s.readRequest s.st.ctr.toNat)
    · rw [stepDec1_readError _ hb]
      exact ⟨rfl, .inr ⟨_, rfl, rfl⟩⟩
    · rw [stepDec1_ok _ hb]
      have h := (nextChunk_toFinal s.st.ctr
        (dec1Ready (Config.cipher s.key) s))
      exact ⟨h.mem, .inr ⟨_, rfl, h.requests⟩⟩
  · simp only [stepFinal]
    split_ifs <;> exact ⟨rfl, .inl rfl⟩
  · simp only [stepVerify, accept]
    split_ifs <;> exact ⟨rfl, .inl rfl⟩
  · exact absurd hp h2
  · exact ⟨rfl, .inl rfl⟩

/-- Every engine step keeps the canonical form of memory. -/
theorem phaseStep_memWf (s : State) (h : Memory.wf s.mem = true) :
    Memory.wf (phaseStep s).mem = true := by
  by_cases h1 : s.st.phase = .enc
  · simp only [phaseStep, h1]
    cases hb : s.busOk (s.readRequest s.st.ctr.toNat)
    · rw [stepEnc_readError _ _ hb]
      exact h
    cases hw : s.busOk (s.writeRequest s.st.ctr.toNat)
    · rw [stepEnc_writeError _ _ hb hw]
      exact Memory.wf_writeWhere _ _ _ _ _ h
    · rw [stepEnc_ok _ _ hb hw, (nextChunk_toFinal _ _).mem]
      exact Memory.wf_writeBytes _ _ _ h
  by_cases h2 : s.st.phase = .dec2
  · simp only [phaseStep, h2]
    cases hb : s.busOk (s.readRequest s.st.ctr.toNat)
    · rw [stepDec2_readError _ _ hb]
      exact h
    cases hw : s.busOk (s.writeRequest s.st.ctr.toNat)
    · rw [stepDec2_writeError _ _ hb hw]
      exact Memory.wf_writeWhere _ _ _ _ _ h
    · rw [stepDec2_ok _ _ hb hw, (nextChunk_toWipe _ _).mem]
      exact Memory.wf_writeBytes _ _ _ h
  · rw [(phaseStep_noWrite s h1 h2).1]
    exact h

/-- No engine step changes what the command works on: the nonce length, the lengths and the addresses. -/
theorem phaseStep_operands (s : State) :
    (phaseStep s).nonceLen = s.nonceLen ∧ (phaseStep s).mlen = s.mlen ∧
      (phaseStep s).alen = s.alen ∧ (phaseStep s).aadAddr = s.aadAddr ∧
      (phaseStep s).inAddr = s.inAddr ∧ (phaseStep s).outAddr = s.outAddr := by
  refine ⟨congrArg (fun c : Ctrl => c.nonceLen.toNat) (phaseStep_untouched s).ctrl, ?_⟩
  simp only [State.mlen, State.alen, State.aadAddr, State.inAddr, State.outAddr]
  rcases phaseStep_data s with e | ⟨_, _, x, e⟩ <;> rw [e] <;> exact ⟨rfl, rfl, rfl, rfl, rfl⟩

/-- After a reset every offset reads 0 (70_reset_and_hazards.md R260). -/
theorem hostRead_resetStep (off : BitVec 8) (s : State) : hostRead off (resetStep s) = 0 := by
  simp only [hostRead]
  cases Reg.ofOffset off with
  | none => rfl
  | some r =>
    cases r with
    | data d => cases d <;> rfl
    | cmd => rfl
    | ctrl => simp [State.ctrlWord]
    | status => simp [State.statusWord, Engine.idle, Phase.code, Result.code, State.busy]

end Sys2Proof.Machine
end

