-- ==== Sys2Proof/Laws/Moves.lean ====
section
/-! SUPPORT. What one step of the whole can be, said once: a move outside the core, an engine step, a host
write, or a reset. -/

namespace Sys2Proof.Machine

/-- `t` differs from `s` in nothing that CCM-CORE holds, nor in the record of its ports. -/
structure SameCore (s t : State) : Prop where
  ctrl : t.ctrl = s.ctrl
  status : t.status = s.status
  data : t.data = s.data
  st : t.st = s.st
  requests : t.requests = s.requests
  calls : t.calls = s.calls

/-- `t` has the registers and engine state that reset leaves. -/
structure WasReset (t : State) : Prop where
  ctrl : t.ctrl = ⟨0, false⟩
  status : t.status = ⟨false, false, .ok⟩
  data : t.data = DataRegs.zero
  st : t.st = Engine.idle

theorem resetCutTurn_eq (s : State) :
    ∃ v, (v = { s with busErr := cutRequest s :: s.busErr } ∨
        v = phaseStep { s with busErr := cutRequest s :: s.busErr, steps := s.steps + 1 }) ∧
      resetCutTurn s = .next { resetStep v with busErr := s.busErr, steps := s.steps } := by
  simp only [resetCutTurn, engineTurn_eq]
  split_ifs with h
  · exact ⟨_, .inl rfl, rfl⟩
  · exact ⟨_, .inr rfl, rfl⟩

theorem accessTurn_poll (r : Reg) (hi lo : Nat) (v : Word) (s : State) :
    accessTurn (HostLine.poll r hi lo v).encode s =
      .next { acquireOnRead r.offset s with rdata := hostRead r.offset s } := by
  rcases accessTurn_cases (HostLine.poll r hi lo v).encode s with
    ⟨a, _⟩ | ⟨_, a, _⟩ | ⟨_, _, _, e⟩ | ⟨_, _, a, _⟩
  · exact absurd rfl a
  · exact absurd ((aligned_offset r).symm.trans a) (by decide)
  · exact e
  · cases a

/-- Every step that answers a next state. -/
theorem step_next {s t : State} (h : step s = .next t) :
    SameCore s t ∨
    (s.st.phase ≠ .idle ∧
      ∃ l, t = phaseStep { s with inputs := l, steps := s.steps + 1 }) ∨
    (∃ l off v, t = hostWrite off v { s with inputs := l }) ∨
    ((∃ l, s.inputs = .reset :: l ∨ s.inputs = .resetCut :: l) ∧ WasReset t) := by
  cases hi : s.inputs with
  | nil =>
    rw [step_nil hi, engineTurn_eq] at h
    split_ifs at h with hp
    · cases h
      exact .inl ⟨rfl, rfl, rfl, rfl, rfl, rfl⟩
    · cases h
      exact .inr (.inl ⟨hp, s.inputs, rfl⟩)
  | cons x l =>
    rw [step_cons hi] at h
    cases x with
    | engine =>
      simp only [inputTurn, engineTurn_eq] at h
      split_ifs at h with hp
      · cases h
        exact .inl ⟨rfl, rfl, rfl, rfl, rfl, rfl⟩
      · cases h
        exact .inr (.inl ⟨hp, l, rfl⟩)
    | access a =>
      rcases accessTurn_next h with rfl | ⟨off, v, rfl⟩
      · refine .inl ?_
        simp only [acquireOnRead]
        split_ifs <;> exact ⟨rfl, rfl, rfl, rfl, rfl, rfl⟩
      · exact .inr (.inr (.inl ⟨l, off, v, rfl⟩))
    | poll r hi lo v =>
      simp only [inputTurn, pollTurn, accessTurn_poll] at h
      refine .inl ?_
      simp only [acquireOnRead] at h
      split_ifs at h <;> cases h <;> exact ⟨rfl, rfl, rfl, rfl, rfl, rfl⟩
    | reset =>
      cases h
      exact .inr (.inr (.inr ⟨⟨l, .inl rfl⟩, rfl, rfl, rfl, rfl⟩))
    | resetCut =>
      obtain ⟨v, _, e⟩ := resetCutTurn_eq { s with inputs := l }
      simp only [inputTurn, e] at h
      cases h
      exact .inr (.inr (.inr ⟨⟨l, .inr rfl⟩, rfl, rfl, rfl, rfl⟩))
    | store a b =>
      simp only [inputTurn, storeTurn] at h
      split_ifs at h <;> cases h <;> exact .inl ⟨rfl, rfl, rfl, rfl, rfl, rfl⟩
    | load a =>
      simp only [inputTurn, loadTurn] at h
      split_ifs at h <;> cases h <;> exact .inl ⟨rfl, rfl, rfl, rfl, rfl, rfl⟩
    | sampleIrq =>
      simp only [inputTurn, sampleTurn] at h
      split_ifs at h <;> cases h <;> exact .inl ⟨rfl, rfl, rfl, rfl, rfl, rfl⟩
    | rekey k =>
      simp only [inputTurn, rekeyTurn] at h
      split_ifs at h
      cases h
      exact .inl ⟨rfl, rfl, rfl, rfl, rfl, rfl⟩
    | answer errs =>
      cases h
      exact .inl ⟨rfl, rfl, rfl, rfl, rfl, rfl⟩

end Sys2Proof.Machine
end

