-- ==== Sys2Proof/Laws/Invariant.lean ====
section
/-! SUPPORT. The sequencer's invariant: it depends on the core alone, it holds of an idle engine, and every
engine step keeps it. -/

namespace Sys2Proof.Machine

/-! ## What the invariant depends on -/

theorem contractOk_congr {s t : State} (hc : t.ctrl = s.ctrl) (hd : t.data = s.data)
    (h : s.ContractOk) : t.ContractOk := by
  cases s
  cases t
  simp only at hc hd
  subst hc
  subst hd
  exact h

theorem mlen_congr {s t : State} (hd : t.data = s.data) : t.mlen = s.mlen := by
  simp only [State.mlen, hd]

theorem alen_congr {s t : State} (hd : t.data = s.data) : t.alen = s.alen := by
  simp only [State.alen, hd]

theorem seqInv_congr {s t : State} (hc : t.ctrl = s.ctrl) (hs : t.status.done = s.status.done)
    (hr : t.status.result = s.status.result) (hd : t.data = s.data) (he : t.st = s.st)
    (h : s.SeqInv) : t.SeqInv := by
  constructor
  · rw [he]
    exact h.op_none
  · rw [he]
    exact h.wiped
  · rw [he, hs, hr]
    exact h.no_result
  · rw [he]
    exact h.enc_op
  · rw [he]
    exact h.dec_op
  · rw [he]
    exact fun hp => contractOk_congr hc hd (h.contract hp)
  · rw [he, alen_congr hd]
    exact h.aad_index
  · rw [he, mlen_congr hd]
    exact h.chunk_index
  · rw [he, mlen_congr hd]
    exact h.ctr_le
  · rw [he, alen_congr hd]
    exact h.aj_le
  · rw [he]
    exact h.ctr_start
  · rw [he]
    exact h.aj_start
  · rw [he]
    exact h.pend_ok
  · rw [he]
    exact h.pend_legal

/-- An idle engine, whatever its registers. -/
theorem seqInv_idle {t : State} (h : t.st = Engine.idle) : t.SeqInv := by
  constructor <;> (rw [h]; simp [Engine.idle, Phase.working, Phase.chunked])

/-- A step of a busy engine to WIPE keeps the invariant. -/
theorem seqInv_wipe {s t : State} (h : s.SeqInv) (hp : s.st.phase ≠ .idle)
    (hs : t.status = s.status) (hop : t.st.op = s.st.op) (hph : t.st.phase = .wipe)
    (hctr : t.st.ctr.toNat ≤ msgBlocks t.mlen + 1) (haj : t.st.aj.toNat ≤ aadBlocks t.alen)
    (hpend : t.st.pend ≠ .illegalCommand) : t.SeqInv := by
  have h1 := h.op_none
  constructor <;> simp_all [Phase.working, Phase.chunked]
  exact h.no_result hp

/-- A step of a busy engine to the payload keeps the invariant (40_commands.md R110, PayloadEntry). -/
theorem seqInv_entry {s t : State} (h : s.SeqInv) (hp : s.st.phase ≠ .idle)
    (hs : t.status = s.status) (hop : t.st.op = s.st.op)
    (hph : t.st.phase = if msgBlocks t.mlen = 0 then .final
      else if t.st.op = .enc then .enc else .dec1)
    (hctr : t.st.ctr.toNat = 1) (haj : t.st.aj.toNat ≤ aadBlocks t.alen)
    (hpend : t.st.pend = .ok) (hc : t.ContractOk) : t.SeqInv := by
  have h1 := h.op_none
  have h2 := h.no_result hp
  have h3 : t.st.op ≠ .none := by
    rw [hop]
    simp_all
  rw [← hs] at h2
  split_ifs at hph with ha hb
  · constructor <;> simp_all [Phase.working, Phase.chunked]
  · constructor <;> simp_all [Phase.working, Phase.chunked]
    omega
  · have hd : t.st.op = .dec := by cases ho : t.st.op <;> simp_all
    constructor <;> simp_all [Phase.working, Phase.chunked]
    omega

/-- The chunk step of a chunk that is not the last keeps the invariant. -/
theorem seqInv_nextChunk {s t : State} (h : s.SeqInv) (hch : s.st.phase.chunked = true)
    (hn : s.st.ctr.toNat ≠ msgBlocks s.mlen) (hc : t.ctrl = s.ctrl) (hd : t.data = s.data)
    (hs : t.status = s.status) (hop : t.st.op = s.st.op) (hph : t.st.phase = s.st.phase)
    (haj : t.st.aj = s.st.aj) (hpe : t.st.pend = s.st.pend) (hctr : t.st.ctr = s.st.ctr + 1) :
    t.SeqInv := by
  have hi := h.chunk_index hch
  have hne : s.st.phase ≠ .idle ∧ s.st.phase ≠ .check ∧ s.st.phase ≠ .b0 ∧ s.st.phase ≠ .aad := by
    refine ⟨?_, ?_, ?_, ?_⟩ <;> (intro e; rw [e] at hch; cases hch)
  have hs1 : t.st.ctr.toNat = s.st.ctr.toNat + 1 := by rw [hctr, succ_toNat (ctr_lt hi.2)]
  constructor
  · rw [hop, hph]
    exact h.op_none
  · rw [hph]
    exact fun e => absurd e hne.1
  · rw [hs, hph]
    exact h.no_result
  · rw [hop, hph]
    exact h.enc_op
  · rw [hop, hph]
    exact h.dec_op
  · rw [hph]
    exact fun hw => contractOk_congr hc hd (h.contract hw)
  · rw [hph]
    exact fun e => absurd e hne.2.2.2
  · intro _
    rw [hs1, mlen_congr hd]
    omega
  · rw [hs1, mlen_congr hd]
    omega
  · rw [haj, alen_congr hd]
    exact h.aj_le
  · rw [hph]
    rintro (e | e | e)
    · exact absurd e hne.2.1
    · exact absurd e hne.2.2.1
    · exact absurd e hne.2.2.2
  · rw [hph]
    rintro (e | e)
    · exact absurd e hne.2.1
    · exact absurd e hne.2.2.1
  · rw [hph, hpe]
    exact h.pend_ok
  · rw [hpe]
    exact h.pend_legal

/-- A step of a busy engine to FINAL or VERIFY keeps the invariant. -/
theorem seqInv_toFinal {s t : State} (h : s.SeqInv) (hw : s.st.phase.working = true)
    (hc : t.ctrl = s.ctrl) (hd : t.data = s.data) (hs : t.status = s.status)
    (hop : t.st.op = s.st.op)
    (hph : t.st.phase = .final ∨ (t.st.phase = .verify ∧ s.st.op = .dec))
    (haj : t.st.aj = s.st.aj) (hpe : t.st.pend = s.st.pend)
    (hctr : t.st.ctr.toNat ≤ msgBlocks s.mlen + 1) : t.SeqInv := by
  have hp : s.st.phase ≠ .idle := by
    intro e
    rw [e] at hw
    cases hw
  have hpw : s.st.phase ≠ .wipe := by
    intro e
    rw [e] at hw
    cases hw
  have h1 := h.op_none
  have h2 := h.no_result hp
  have hk := contractOk_congr hc hd (h.contract hw)
  have h3 : t.st.pend = .ok := hpe.trans (h.pend_ok hpw)
  clear hpe
  have h4 : t.st.aj.toNat ≤ aadBlocks t.alen := by rw [haj, alen_congr hd]; exact h.aj_le
  have h5 : t.st.ctr.toNat ≤ msgBlocks t.mlen + 1 := by rw [mlen_congr hd]; exact hctr
  rcases hph with hph | ⟨hph, ho⟩ <;> constructor <;> simp_all [Phase.chunked]

/-- Every engine step keeps the invariant. -/
theorem seqInv_phaseStep {s : State} (h : s.SeqInv) (hp : s.st.phase ≠ .idle) :
    (phaseStep s).SeqInv := by
  have h1 := h.op_none
  have h2 := h.no_result hp
  have hop : s.st.op ≠ .none := by simp_all
  have hctr := h.ctr_le
  have haj := h.aj_le
  simp only [phaseStep]
  cases hph : s.st.phase
  all_goals dsimp only
  · exact absurd hph hp
  · have hc := h.ctr_start (.inl hph)
    have ha := h.aj_start (.inl hph)
    have hpo := h.pend_ok (by simp [hph])
    by_cases hk : s.ContractOk
    · rw [stepCheck_pass hk]
      constructor <;> simp_all [Phase.working, Phase.chunked]
      exact contractOk_congr rfl rfl hk
    · rw [stepCheck_fail hk]
      exact seqInv_wipe h hp rfl rfl rfl hctr haj (checkCode_ne_ok s).2.2
  · have hc := h.ctr_start (.inr (.inl hph))
    have hpo := h.pend_ok (by simp [hph])
    have hk := h.contract (by rw [hph]; rfl)
    simp only [stepB0, payloadEntry_eq]
    by_cases h0 : 0 < s.alen
    · rw [if_pos h0]
      have hb : 0 < aadBlocks s.alen := by
        simp only [aadBlocks]
        rw [if_neg (by omega)]
        omega
      constructor
      · exact ⟨fun e => absurd e hop, fun e => by cases e⟩
      · exact fun e => by cases e
      · exact fun _ => h2
      · exact fun e => by cases e
      · exact fun e => by rcases e with e | e | e <;> cases e
      · exact fun _ => contractOk_congr rfl rfl hk
      · exact fun _ => ⟨h0, hb⟩
      · exact fun e => by cases e
      · exact hctr
      · exact Nat.zero_le _
      · exact fun _ => hc
      · exact fun _ => rfl
      · exact fun _ => hpo
      · exact h.pend_legal
    · rw [if_neg h0]
      exact seqInv_entry h hp rfl rfl rfl hc haj hpo (contractOk_congr rfl rfl hk)
  · have hc := h.ctr_start (.inr (.inr hph))
    have hpo := h.pend_ok (by simp [hph])
    have hk := h.contract (by rw [hph]; rfl)
    have hi := h.aad_index hph
    cases hb : s.busOk (s.aadRequest s.st.aj.toNat)
    · rw [stepAad_readError _ hb]
      exact seqInv_wipe h hp rfl rfl rfl hctr haj (by simp)
    · rw [stepAad_ok _ hb, payloadEntry_eq]
      have hs1 : (s.st.aj + 1).toNat = s.st.aj.toNat + 1 := by
        have := aadBlocks_le hk.2.2.2
        exact succ_toNat (by omega)
      have hne : ∀ p, p ≠ .aad → (aadAbsorbed (Config.cipher s.key) s).st.phase ≠ p :=
        fun p hp e => hp (e.symm.trans hph)
      by_cases h0 : (s.st.aj + 1).toNat = aadBlocks s.alen
      · rw [if_pos h0]
        exact seqInv_entry h hp rfl rfl rfl hc (Nat.le_of_eq h0) hpo (contractOk_congr rfl rfl hk)
      · rw [if_neg h0]
        have hlt : (s.st.aj + 1).toNat < aadBlocks s.alen := by omega
        constructor
        · exact h1
        · exact fun e => absurd e (hne _ (by decide))
        · exact fun _ => h2
        · exact fun e => absurd e (hne _ (by decide))
        · rintro (e | e | e) <;> exact absurd e (hne _ (by decide))
        · exact fun _ => contractOk_congr rfl rfl hk
        · exact fun _ => ⟨hi.1, hlt⟩
        · intro e
          rw [show (aadAbsorbed (Config.cipher s.key) s).st.phase = .aad from hph] at e
          cases e
        · exact hctr
        · exact Nat.le_of_lt hlt
        · exact fun _ => hc
        · rintro (e | e) <;> exact absurd e (hne _ (by decide))
        · exact fun _ => hpo
        · exact h.pend_legal
  · have hch : s.st.phase.chunked = true := by rw [hph]; rfl
    have hi := h.chunk_index hch
    cases hb : s.busOk (s.readRequest s.st.ctr.toNat)
    · rw [stepEnc_readError _ _ hb]
      exact seqInv_wipe h hp rfl rfl rfl hctr haj (by simp)
    cases hw : s.busOk (s.writeRequest s.st.ctr.toNat)
    · rw [stepEnc_writeError _ _ hb hw]
      exact seqInv_wipe h hp rfl rfl rfl hctr haj (by simp)
    · rw [stepEnc_ok _ _ hb hw]
      by_cases hn : s.st.ctr.toNat = msgBlocks s.mlen
      · rw [nextChunk_last (s := wrote _ s (encReady (Config.cipher s.key) s)) (ctr_lt hi.2) hn]
        refine seqInv_toFinal h (by rw [hph]; rfl) rfl rfl rfl rfl (.inl rfl) rfl rfl ?_
        show (s.st.ctr + 1).toNat ≤ _
        rw [succ_toNat (ctr_lt hi.2), hn]
      · rw [nextChunk_more (s := wrote _ s (encReady (Config.cipher s.key) s)) (ctr_lt hi.2) hn]
        exact seqInv_nextChunk h hch hn rfl rfl rfl rfl rfl rfl rfl rfl
  · have hch : s.st.phase.chunked = true := by rw [hph]; rfl
    have hi := h.chunk_index hch
    cases hb : s.busOk (s.readRequest s.st.ctr.toNat)
    · rw [stepDec1_readError _ hb]
      exact seqInv_wipe h hp rfl rfl rfl hctr haj (by simp)
    · rw [stepDec1_ok _ hb]
      by_cases hn : s.st.ctr.toNat = msgBlocks s.mlen
      · rw [nextChunk_last (s := dec1Ready _ s) (ctr_lt hi.2) hn]
        refine seqInv_toFinal h (by rw [hph]; rfl) rfl rfl rfl rfl (.inl rfl) rfl rfl ?_
        show (s.st.ctr + 1).toNat ≤ _
        rw [succ_toNat (ctr_lt hi.2), hn]
      · rw [nextChunk_more (s := dec1Ready _ s) (ctr_lt hi.2) hn]
        exact seqInv_nextChunk h hch hn rfl rfl rfl rfl rfl rfl rfl rfl
  · have hpo := h.pend_ok (by simp [hph])
    simp only [stepFinal]
    split_ifs with he
    · exact seqInv_wipe h hp rfl rfl rfl hctr haj (by simp)
    · have ho : s.st.op = .dec := by cases hh : s.st.op <;> simp_all
      exact seqInv_toFinal h (by rw [hph]; rfl) rfl rfl rfl rfl (.inr ⟨rfl, ho⟩) rfl rfl hctr
  · have hk := h.contract (by rw [hph]; rfl)
    have ho := h.dec_op (.inr (.inl hph))
    have hpo := h.pend_ok (by simp [hph])
    simp only [stepVerify, accept]
    split_ifs with ha hb
    · exact seqInv_wipe h hp rfl rfl rfl (Nat.le_add_left 1 _) haj (by simp)
    · have hn : 1 ≤ msgBlocks s.mlen := by omega
      constructor <;> simp_all [Phase.working, Phase.chunked]
      · exact contractOk_congr rfl rfl hk
      · exact hn
      · exact haj
    · exact seqInv_wipe h hp rfl rfl rfl hctr haj (by simp)
  · have hch : s.st.phase.chunked = true := by rw [hph]; rfl
    have hi := h.chunk_index hch
    cases hb : s.busOk (s.readRequest s.st.ctr.toNat)
    · rw [stepDec2_readError _ _ hb]
      exact seqInv_wipe h hp rfl rfl rfl hctr haj (by simp)
    cases hw : s.busOk (s.writeRequest s.st.ctr.toNat)
    · rw [stepDec2_writeError _ _ hb hw]
      exact seqInv_wipe h hp rfl rfl rfl hctr haj (by simp)
    · rw [stepDec2_ok _ _ hb hw]
      by_cases hn : s.st.ctr.toNat = msgBlocks s.mlen
      · rw [nextChunk_last (s := wrote _ s (dec2Ready (Config.cipher s.key) s)) (ctr_lt hi.2) hn]
        refine seqInv_wipe h hp rfl rfl rfl ?_ haj (by simp)
        show (s.st.ctr + 1).toNat ≤ msgBlocks s.mlen + 1
        rw [succ_toNat (ctr_lt hi.2), hn]
      · rw [nextChunk_more (s := wrote _ s (dec2Ready (Config.cipher s.key) s)) (ctr_lt hi.2) hn]
        exact seqInv_nextChunk h hch hn rfl rfl rfl rfl rfl rfl rfl rfl
  · exact seqInv_idle rfl

end Sys2Proof.Machine
end

