-- ==== Sys2Proof/Laws/Loops.lean ====
section
/-! SUPPORT. The loops of a command, each induction once: the AAD, the chunks of ENC, of DEC1 and of DEC2, for a
command whose requests are all answered ok. -/

namespace Sys2Proof.Machine

/-! ## A command under way -/

/-- `u` is a state in the middle of the command that `s` has started: only the engine has moved. -/
structure InCommand (s u : State) : Prop where
  ctrl : u.ctrl = s.ctrl
  data : u.data = s.data
  key : u.key = s.key
  busErr : u.busErr = s.busErr
  inputs : u.inputs = []

/-- What is computed from the registers is the same throughout the command (41_nonce_formatter.md R136). -/
theorem InCommand.derived {s u : State} (h : InCommand s u) :
    u.mlen = s.mlen ∧ u.alen = s.alen ∧ u.nonce = s.nonce ∧ u.inAddr = s.inAddr ∧
      u.outAddr = s.outAddr ∧ u.aadAddr = s.aadAddr ∧ u.tagReg = s.tagReg ∧
      (∀ r, u.busOk r = s.busOk r) ∧ (∀ j, u.aadRequest j = s.aadRequest j) ∧
      (∀ j, u.readRequest j = s.readRequest j) ∧ ∀ j, u.writeRequest j = s.writeRequest j := by
  cases u
  cases s
  obtain ⟨h1, h2, h3, h4, _⟩ := h
  simp only at h1 h2 h3 h4
  subst h1 h2 h3 h4
  exact ⟨rfl, rfl, rfl, rfl, rfl, rfl, rfl, fun _ => rfl, fun _ => rfl, fun _ => rfl, fun _ => rfl⟩

/-- The engine state, the requests and the number of cipher calls that the command of `s` has reached in
`u`. -/
structure Reached (s : State) (op : Op) (ph : Phase) (ctr : Nat) (mac : Block) (u : State)
    (reqs : List MemRequest) (calls : Nat) : Prop where
  same : InCommand s u
  op : u.st.op = op
  phase : u.st.phase = ph
  ctr : u.st.ctr.toNat = ctr
  pend : u.st.pend = .ok
  mac : u.st.mac = mac
  req : u.requests.reverse = reqs
  calls : u.calls.length = calls

/-- The phase that PayloadEntry goes to (40_commands.md R110). -/
def entryPhase (s : State) (op : Op) : Phase :=
  if msgBlocks s.mlen = 0 then .final else if op = .enc then .enc else .dec1

theorem range_succ_map {α : Type} (f : Nat → α) (n : Nat) :
    (List.range (n + 1)).map f = (List.range n).map f ++ [f n] := by
  simp [List.range_succ]

/-! ## CHECK, B0 and the AAD -/

/-- The MAC after B0 and j AAD blocks (42_mac_aad.md R155). -/
def macAfterAad (s : State) (j : Nat) : Block :=
  let stream := aadPrefix s.alen ++ Memory.readBytes s.mem s.aadAddr s.alen
  (List.range j).foldl (fun mac j => macStep (Config.cipher s.key) mac (piece stream j))
    (Config.cipher s.key (b0Block s.nonce (0 < s.alen) s.mlen))

theorem macAfterAad_all (s : State) :
    macAfterAad s (aadBlocks s.alen) = ccmAadMac (Config.cipher s.key) s.nonce
      (Memory.readBytes s.mem s.aadAddr s.alen) s.mlen := by
  simp only [macAfterAad, ccmAadMac, Memory.length_readBytes]
  split_ifs with h
  · rfl
  · simp [aadBlocks, show s.alen = 0 by omega]

theorem macAfterAad_succ (s : State) (j : Nat) :
    macAfterAad s (j + 1) = Config.cipher s.key (xorBlock (macAfterAad s j)
      (pad16 (piece (aadPrefix s.alen ++ Memory.readBytes s.mem s.aadAddr s.alen) j))) := by
  simp only [macAfterAad, List.range_succ, List.foldl_append, List.foldl_cons, List.foldl_nil,
    macStep]

/-- One AAD step of a command whose requests are answered ok. -/
theorem reached_aadAbsorbed {s t : State} {op : Op} {j : Nat} (hm : t.mem = s.mem)
    (hj : j < aadBlocks s.alen) (haj : t.st.aj.toNat = j)
    (hat : Reached s op .aad 1 (macAfterAad s j) t ((List.range j).map s.aadRequest) (1 + j)) :
    Reached s op .aad 1 (macAfterAad s (j + 1))
      (aadAbsorbed (Config.cipher t.key) { t with steps := t.steps + 1 })
      ((List.range (j + 1)).map s.aadRequest) (1 + (j + 1)) := by
  obtain ⟨-, g2, -, -, -, g6, -, -, g9, -, -⟩ := hat.same.derived
  have hx := aadInput_eq_piece t j (by rw [g2]; exact hj)
  refine ⟨⟨hat.same.1, hat.same.2, hat.same.3, hat.same.4, hat.same.5⟩, hat.op, hat.phase,
    hat.ctr, hat.pend, ?_, ?_, ?_⟩
  · show Config.cipher t.key (xorBlock t.st.mac (aadInput t.alen t.st.aj.toNat
      (Memory.readBytes t.mem (t.aadRequest t.st.aj.toNat).addr (t.aadRequest t.st.aj.toNat).n))) = _
    rw [haj, hx, hat.mac, hat.same.key, hm, g2, g6, macAfterAad_succ]
  · show (t.aadRequest t.st.aj.toNat :: t.requests).reverse = _
    rw [List.reverse_cons, hat.req, range_succ_map, haj, g9]
  · show t.calls.length + 1 = _
    rw [hat.calls]
    omega

/-- CHECK, B0 and the AAD: from the command start to the payload. -/
theorem run_toPayload (s : State) (op : Op) (hin : s.inputs = []) (hk : s.ContractOk)
    (ha : ∀ j, j < aadBlocks s.alen → s.busOk (s.aadRequest j) = true) :
    ∃ t, Host.Core.run core (2 + aadBlocks s.alen) (startCommand op s) = .next t ∧ t.mem = s.mem ∧
      Reached s op (entryPhase s op) 1 (macAfterAad s (aadBlocks s.alen)) t
        ((List.range (aadBlocks s.alen)).map s.aadRequest) (1 + aadBlocks s.alen) := by
  have hsmall := aadBlocks_le hk.2.2.2
  let u0 : State := { startCommand op s with steps := 1 }
  let u1 : State := { u0.toPhase .b0 with steps := 2 }
  have hcheck : ∀ k, Host.Core.run core (k + 1) (startCommand op s) =
      Host.Core.run core k (u0.toPhase .b0) := by
    intro k
    rw [run_engine_succ (s := startCommand op s) hin (by simp)]
    congr 1
    exact stepCheck_pass (s := u0) hk
  have hb0 : Host.Core.run core 2 (startCommand op s) = .next (stepB0 (Config.cipher s.key) u1) := by
    rw [hcheck 1, run_engine_succ (s := u0.toPhase .b0) hin (by simp [u0])]
    rfl
  by_cases h0 : 0 < s.alen
  · have loop : ∀ j, j < aadBlocks s.alen →
        ∃ t, Host.Core.run core (2 + j) (startCommand op s) = .next t ∧ t.mem = s.mem ∧
          t.st.aj.toNat = j ∧ Reached s op .aad 1 (macAfterAad s j) t
            ((List.range j).map s.aadRequest) (1 + j) := by
      intro j
      induction j with
      | zero =>
        intro _
        refine ⟨_, hb0, ?_⟩
        simp only [stepB0]
        rw [if_pos (show 0 < u1.alen from h0)]
        exact ⟨rfl, rfl, ⟨rfl, rfl, rfl, rfl, hin⟩, rfl, rfl, rfl, rfl, rfl, rfl, rfl⟩
      | succ j ih =>
        intro hj
        obtain ⟨t, hr, hm, haj, hat⟩ := ih (by omega)
        obtain ⟨-, g2, -, -, -, -, -, g8, g9, -, -⟩ := hat.same.derived
        have hs1 : (t.st.aj + 1).toNat = j + 1 := by rw [succ_toNat (by omega), haj]
        have hb : t.busOk (t.aadRequest t.st.aj.toNat) = true := by
          rw [g8, g9, haj]
          exact ha j (by omega)
        refine ⟨aadAbsorbed (Config.cipher t.key) { t with steps := t.steps + 1 }, ?_, hm, hs1,
          reached_aadAbsorbed hm (by omega) haj hat⟩
        rw [show 2 + (j + 1) = (2 + j) + 1 by omega, run_add hr 1,
          run_engine_succ hat.same.inputs (by rw [hat.phase]; decide)]
        simp only [phaseStep, hat.phase]
        rw [stepAad_ok (s := { t with steps := t.steps + 1 }) _ hb, if_neg]
        · rfl
        · show ¬ (t.st.aj + 1).toNat = aadBlocks t.alen
          rw [g2]
          omega
    obtain ⟨n, hn⟩ : ∃ n, aadBlocks s.alen = n + 1 := by
      refine ⟨aadBlocks s.alen - 1, ?_⟩
      simp only [aadBlocks]
      rw [if_neg (by omega)]
      omega
    obtain ⟨t, hr, hm, haj, hat⟩ := loop n (by omega)
    obtain ⟨g1, g2, -, -, -, -, -, g8, g9, -, -⟩ := hat.same.derived
    have hb : t.busOk (t.aadRequest t.st.aj.toNat) = true := by
      rw [g8, g9, haj]
      exact ha n (by omega)
    have hz := reached_aadAbsorbed hm (by omega) haj hat
    rw [hn]
    refine ⟨payloadEntry (aadAbsorbed (Config.cipher t.key) { t with steps := t.steps + 1 }), ?_, ?_⟩
    · rw [show 2 + (n + 1) = (2 + n) + 1 by omega, run_add hr 1,
        run_engine_succ hat.same.inputs (by rw [hat.phase]; decide)]
      simp only [phaseStep, hat.phase]
      rw [stepAad_ok (s := { t with steps := t.steps + 1 }) _ hb, if_pos]
      · rfl
      · show (t.st.aj + 1).toNat = aadBlocks t.alen
        rw [succ_toNat (by omega), haj, g2, hn]
    · rw [payloadEntry_eq]
      refine ⟨hm, ⟨hz.same.1, hz.same.2, hz.same.3, hz.same.4, hz.same.5⟩, hz.op, ?_, hz.ctr,
        hz.pend, hz.mac, hz.req, hz.calls⟩
      show (if msgBlocks t.mlen = 0 then Phase.final
        else if t.st.op = .enc then .enc else .dec1) = _
      rw [g1, hat.op]
      rfl
  · have hz : aadBlocks s.alen = 0 := by simp [aadBlocks, show s.alen = 0 by omega]
    rw [hz]
    refine ⟨_, hb0, ?_⟩
    simp only [stepB0]
    rw [if_neg (show ¬ 0 < u1.alen from h0), payloadEntry_eq]
    exact ⟨rfl, ⟨rfl, rfl, rfl, rfl, hin⟩, rfl, rfl, rfl, rfl, rfl, rfl, rfl⟩

/-! ## The message and its chunks -/

/-- A message masked with the keystream of a command (40_commands.md R111, R112). -/
def masked (E : Block → Block) (nonce X : List Byte) : List Byte :=
  (List.range (msgBlocks X.length)).flatMap fun j => xorBytes (piece X j) (E (ctrBlock nonce (j + 1)))

theorem length_maskedPiece (E : Block → Block) (nonce X : List Byte) (j : Nat) :
    (xorBytes (piece X j) (E (ctrBlock nonce (j + 1)))).length = chunkLen X.length (j + 1) := by
  rw [length_xorBytes _ (by rw [length_piece]; exact chunkLen_le _ _), length_piece]

theorem length_masked (E : Block → Block) (nonce X : List Byte) :
    (masked E nonce X).length = X.length := by
  have h := congrArg List.length (piece_flatten (msgBlocks X.length) X (by
    simp only [msgBlocks]
    omega))
  simp only [List.length_flatMap, length_piece] at h
  simp only [masked, List.length_flatMap, length_maskedPiece]
  exact h

theorem piece_masked (E : Block → Block) (nonce X : List Byte) {j : Nat}
    (hj : j < msgBlocks X.length) :
    piece (masked E nonce X) j = xorBytes (piece X j) (E (ctrBlock nonce (j + 1))) := by
  refine piece_flatMap _ _ (fun j _ => ?_) (fun j h => ?_) j hj
  · rw [length_maskedPiece]
    exact chunkLen_le _ _
  · rw [length_maskedPiece]
    simp only [msgBlocks, chunkLen] at *
    omega

/-- Where the chunks lie in the message (43_payload_encrypt.md R170). -/
theorem chunk_le {m i : Nat} (h : i < msgBlocks m) : 16 * i + chunkLen m (i + 1) ≤ m := by
  simp only [chunkLen, msgBlocks] at *
  omega

/-- A chunk of the input is a piece of the message (43_payload_encrypt.md R170). -/
theorem chunkIn_piece (s : State) (i : Nat) (h : i < msgBlocks s.mlen) :
    Memory.readBytes s.mem (chunkAddr s.inAddr (i + 1)) (chunkLen s.mlen (i + 1)) =
      piece (Memory.readBytes s.mem s.inAddr s.mlen) i := by
  have hr := Memory.take_drop_readBytes s.mem s.inAddr s.mlen (16 * i) (chunkLen s.mlen (i + 1))
    (chunk_le h)
  simp only [chunkAddr, piece, Nat.add_sub_cancel]
  rw [← hr]
  by_cases h16 : 16 * i + 16 ≤ s.mlen
  · congr 1
    simp [chunkLen]
    omega
  · rw [List.take_of_length_le (by simp [chunkLen]; omega),
      List.take_of_length_le (by simp; omega)]

/-- The distance of an address from the base of a chunk. -/
theorem sub_chunkAddr (x a : Addr) (i : Nat) :
    x - chunkAddr a (i + 1) = (x - a) - BitVec.ofNat 64 (16 * i) := by
  simp only [chunkAddr, Nat.add_sub_cancel]
  ring

theorem toNat_sub_chunkAddr (x a : Addr) (i : Nat) (h : 16 * i ≤ (x - a).toNat) :
    (x - chunkAddr a (i + 1)).toNat = (x - a).toNat - 16 * i := by
  rw [sub_chunkAddr]
  generalize x - a = y at *
  have hy := y.isLt
  rw [BitVec.toNat_sub, BitVec.toNat_ofNat, Nat.mod_eq_of_lt (by omega : 16 * i < 2 ^ 64),
    show 2 ^ 64 - 16 * i + y.toNat = (y.toNat - 16 * i) + 2 ^ 64 by omega, Nat.add_mod_right,
    Nat.mod_eq_of_lt (by omega)]

/-- An address lies in chunk i + 1 of a buffer exactly when its distance from the base does. -/
theorem inChunk_iff (x a : Addr) (i n m : Nat) (hm : m < 2 ^ 64) (hn : 16 * i + n ≤ m) :
    (x - chunkAddr a (i + 1)).toNat < n ↔ 16 * i ≤ (x - a).toNat ∧ (x - a).toNat < 16 * i + n := by
  by_cases h : 16 * i ≤ (x - a).toNat
  · rw [toNat_sub_chunkAddr x a i h]
    omega
  · rw [sub_chunkAddr]
    generalize x - a = y at *
    rw [BitVec.toNat_sub, BitVec.toNat_ofNat, Nat.mod_eq_of_lt (by omega : 16 * i < 2 ^ 64),
      Nat.mod_eq_of_lt (by omega)]
    omega

/-! ## The output so far -/

/-- The memory of `s` after the first i chunks of the output `W` have been written. -/
def Memory.Written (s : State) (W : List Byte) (i : Nat) (m : Memory) : Prop :=
  ∀ x, Memory.byte m x = if (x - s.outAddr).toNat < min (16 * i) s.mlen
    then W.getD (x - s.outAddr).toNat 0 else Memory.byte s.mem x

theorem written_zero {s : State} (W : List Byte) {m : Memory} (h : m = s.mem) :
    Memory.Written s W 0 m := by
  intro x
  rw [h, Nat.mul_zero, Nat.zero_min, if_neg (Nat.not_lt_zero _)]

/-- The output so far has not reached the next chunk of the input: the buffers are equal or disjoint. -/
theorem written_in {s : State} {W : List Byte} {i : Nat} {m : Memory} (h : Memory.Written s W i m)
    (hi : i < msgBlocks s.mlen)
    (hov : s.outAddr = s.inAddr ∨
      ∀ a, inBuffer s.inAddr s.mlen a = true → inBuffer s.outAddr s.mlen a = false) :
    Memory.readBytes m (chunkAddr s.inAddr (i + 1)) (chunkLen s.mlen (i + 1)) =
      piece (Memory.readBytes s.mem s.inAddr s.mlen) i := by
  rw [← chunkIn_piece s i hi]
  refine Memory.readBytes_congr fun k hk => ?_
  have hml := mlen_lt s
  have hc := chunk_le hi
  rw [h, if_neg]
  set x := chunkAddr s.inAddr (i + 1) + BitVec.ofNat 64 k
  have hx : (x - chunkAddr s.inAddr (i + 1)).toNat = k := by
    simp only [x]
    rw [BitVec.add_comm, BitVec.add_sub_cancel, BitVec.toNat_ofNat, Nat.mod_eq_of_lt (by omega)]
  have hin := (inChunk_iff x s.inAddr i _ s.mlen hml hc).1 (by rw [hx]; exact hk)
  rcases hov with e | hd
  · rw [e]
    omega
  · have hb := hd x (by
      simp only [inBuffer, decide_eq_true_eq]
      exact lt_of_lt_of_le hin.2 hc)
    simp only [inBuffer, decide_eq_false_iff_not] at hb
    exact fun h => hb (lt_of_lt_of_le h (min_le_right _ _))

theorem written_succ {s : State} {W : List Byte} {i : Nat} {m : Memory} (h : Memory.Written s W i m)
    (hi : i < msgBlocks s.mlen) (hW : W.length = s.mlen) :
    Memory.Written s W (i + 1)
      (Memory.writeBytes m (chunkAddr s.outAddr (i + 1)) (piece W i)) := by
  intro x
  have hml := mlen_lt s
  have hc := chunk_le hi
  have hlen : (piece W i).length = chunkLen s.mlen (i + 1) := by rw [length_piece, hW]
  have hcl := chunkLen_le s.mlen (i + 1)
  rw [Memory.byte_writeBytes _ _ _ _ (by omega), h x]
  have hs := inChunk_iff x s.outAddr i _ s.mlen hml hc
  by_cases hin : (x - chunkAddr s.outAddr (i + 1)).toNat < chunkLen s.mlen (i + 1)
  · have h2 := hs.1 hin
    rw [toNat_sub_chunkAddr x s.outAddr i h2.1] at hin ⊢
    have hlt : (x - s.outAddr).toNat < min (16 * (i + 1)) s.mlen := by
      simp only [chunkLen] at *
      omega
    rw [if_pos hlt]
    simp only [piece, List.getD_eq_getElem?_getD]
    rw [List.getElem?_take, if_pos (by omega), List.getElem?_drop,
      show 16 * i + ((x - s.outAddr).toNat - 16 * i) = (x - s.outAddr).toNat by omega,
      List.getElem?_eq_getElem (by omega)]
    rfl
  · rw [List.getD_eq_getElem?_getD, List.getElem?_eq_none (by omega)]
    have h2 := mt hs.2 hin
    simp only [Option.getD_none]
    by_cases h3 : (x - s.outAddr).toNat < min (16 * i) s.mlen
    · rw [if_pos h3, if_pos (by omega)]
    · rw [if_neg h3, if_neg]
      simp only [chunkLen] at *
      omega

/-- The whole output, and nothing else. -/
theorem written_all {s : State} {W : List Byte} {m : Memory}
    (h : Memory.Written s W (msgBlocks s.mlen) m) (hW : W.length = s.mlen) :
    Memory.readBytes m s.outAddr s.mlen = W ∧
      ∀ a, inBuffer s.outAddr s.mlen a = false → Memory.byte m a = Memory.byte s.mem a := by
  have hml := mlen_lt s
  have hmin : min (16 * msgBlocks s.mlen) s.mlen = s.mlen := by
    simp only [msgBlocks]
    omega
  refine ⟨List.ext_getElem (by simp [hW]) fun k h1 h2 => ?_, fun a ha => ?_⟩
  · rw [Memory.getElem_readBytes, h]
    have hk : (s.outAddr + BitVec.ofNat 64 k - s.outAddr).toNat = k := by
      rw [BitVec.add_comm, BitVec.add_sub_cancel, BitVec.toNat_ofNat, Nat.mod_eq_of_lt (by omega)]
    rw [hk, hmin, if_pos (by omega)]
    simp [List.getD_eq_getElem?_getD, h2]
  · rw [h, hmin, if_neg]
    simpa [inBuffer] using ha

/-! ## The chunk loops -/

/-- What a chunk step of the command reads, and the keystream it masks with. -/
theorem chunk_of_reached {s u : State} {op : Op} {ph : Phase} {i : Nat} {mac : Block}
    {reqs : List MemRequest} {calls : Nat} (hat : Reached s op ph (i + 1) mac u reqs calls)
    (hin : Memory.readBytes u.mem (chunkAddr s.inAddr (i + 1)) (chunkLen s.mlen (i + 1)) =
      piece (Memory.readBytes s.mem s.inAddr s.mlen) i) :
    chunkIn u = piece (Memory.readBytes s.mem s.inAddr s.mlen) i ∧
      chunkOut (Config.cipher u.key) u =
        xorBytes (piece (Memory.readBytes s.mem s.inAddr s.mlen) i)
          (Config.cipher s.key (ctrBlock s.nonce (i + 1))) := by
  obtain ⟨g1, -, g3, g4, -⟩ := hat.same.derived
  have hr : chunkIn u = piece (Memory.readBytes s.mem s.inAddr s.mlen) i := by
    rw [chunkIn, g1, g4, hat.ctr, hin]
  refine ⟨hr, ?_⟩
  rw [chunkOut, hr, chunkKey, hat.same.key, g3, hat.ctr]

theorem ctr_of_reached {s u : State} {op : Op} {ph : Phase} {i : Nat} {mac : Block}
    {reqs : List MemRequest} {calls : Nat} (hat : Reached s op ph (i + 1) mac u reqs calls)
    (hi : i + 1 ≤ msgBlocks s.mlen) :
    u.st.ctr.toNat < 2 ^ 64 - 1 ∧ (u.st.ctr + 1).toNat = i + 1 + 1 := by
  have hb := msgBlocks_mlen_le s
  have hc := hat.ctr
  exact ⟨by omega, by rw [succ_toNat (by omega), hc]⟩

/-- The ENC loop (43_payload_encrypt.md R171). -/
theorem run_encLoop {s t t0 : State} {k nc : Nat} {ab : List MemRequest} {m0 : Block}
    (hov : s.outAddr = s.inAddr ∨
      ∀ a, inBuffer s.inAddr s.mlen a = true → inBuffer s.outAddr s.mlen a = false)
    (hq : ∀ i, 1 ≤ i → i ≤ msgBlocks s.mlen →
      s.busOk (s.readRequest i) = true ∧ s.busOk (s.writeRequest i) = true)
    (hr : Host.Core.run core k t0 = .next t) (hm : t.mem = s.mem)
    (hat : Reached s .enc (entryPhase s .enc) 1 m0 t ab nc) (i : Nat) (hi : i ≤ msgBlocks s.mlen) :
    let P := Memory.readBytes s.mem s.inAddr s.mlen
    ∃ u, Host.Core.run core (k + i) t0 = .next u ∧
      Memory.Written s (masked (Config.cipher s.key) s.nonce P) i u.mem ∧
      Reached s .enc (if i = msgBlocks s.mlen then .final else .enc) (i + 1)
        ((List.range i).foldl (fun mac j => macStep (Config.cipher s.key) mac (piece P j)) m0) u
        (ab ++ (List.range i).flatMap fun i => [s.readRequest (i + 1), s.writeRequest (i + 1)])
        (nc + 2 * i) := by
  intro P
  have hPl : P.length = s.mlen := Memory.length_readBytes _ _ _
  induction i with
  | zero =>
    refine ⟨t, hr, written_zero _ hm, hat.same, hat.op, ?_, hat.ctr, hat.pend, hat.mac,
      by simp [hat.req], hat.calls⟩
    rw [hat.phase, entryPhase]
    by_cases hz : msgBlocks s.mlen = 0
    · rw [if_pos hz, if_pos hz.symm]
    · rw [if_neg hz, if_neg (Ne.symm hz), if_pos rfl]
  | succ i ih =>
    obtain ⟨u, hru, hmu, hau⟩ := ih (by omega)
    rw [if_neg (by omega)] at hau
    obtain ⟨g1, -, -, -, g5, -, -, g8, -, g10, g11⟩ := hau.same.derived
    obtain ⟨hb, hw⟩ := hq (i + 1) (by omega) hi
    obtain ⟨hin, hout⟩ := chunk_of_reached hau (written_in hmu (by omega) hov)
    obtain ⟨hlt, hctr⟩ := ctr_of_reached hau hi
    let v : State := { u with steps := u.steps + 1 }
    let z : State := wrote (Config.cipher v.key) v (encReady (Config.cipher v.key) v)
    have hs : phaseStep v = nextChunk v.st.ctr (State.toPhase .final) z := by
      simp only [phaseStep, show v.st.phase = .enc from hau.phase]
      refine stepEnc_ok _ _ ?_ ?_
      · show u.busOk (u.readRequest u.st.ctr.toNat) = true
        rw [g8, g10, hau.ctr, hb]
      · show u.busOk (u.writeRequest u.st.ctr.toNat) = true
        rw [g8, g11, hau.ctr, hw]
    have zmem : Memory.Written s (masked (Config.cipher s.key) s.nonce P) (i + 1) z.mem := by
      show Memory.Written s _ (i + 1) (Memory.writeBytes u.mem
        (chunkAddr u.outAddr u.st.ctr.toNat) (chunkOut (Config.cipher u.key) u))
      rw [hout, ← piece_masked _ _ _ (by rw [hPl]; omega), g5, hau.ctr]
      exact written_succ hmu (by omega) (by rw [length_masked, hPl])
    have zmac : z.st.mac = (List.range (i + 1)).foldl
        (fun mac j => macStep (Config.cipher s.key) mac (piece P j)) m0 := by
      show Config.cipher u.key (xorBlock u.st.mac (pad16 (chunkIn u))) = _
      rw [hin, hau.mac, hau.same.key, List.range_succ, List.foldl_append]
      rfl
    have zreq : z.requests.reverse = ab ++ (List.range (i + 1)).flatMap
        fun i => [s.readRequest (i + 1), s.writeRequest (i + 1)] := by
      show (u.writeRequest u.st.ctr.toNat :: u.readRequest u.st.ctr.toNat :: u.requests).reverse = _
      simp only [List.reverse_cons, hau.req, g10, g11, hau.ctr, List.range_succ, List.flatMap_append,
        List.flatMap_cons, List.flatMap_nil, List.append_assoc]
      rfl
    have zcalls : z.calls.length = nc + 2 * (i + 1) := by
      show u.calls.length + 1 + 1 = _
      rw [hau.calls]
      omega
    rw [show k + (i + 1) = (k + i) + 1 by omega, run_add hru 1,
      run_engine_succ hau.same.inputs (by rw [hau.phase]; decide)]
    refine ⟨phaseStep v, rfl, ?_⟩
    rw [hs]
    by_cases hn : i + 1 = msgBlocks s.mlen
    · rw [nextChunk_last (s := z) hlt
        (by show u.st.ctr.toNat = msgBlocks u.mlen; rw [hau.ctr, g1, hn]), if_pos hn]
      exact ⟨zmem, ⟨hau.same.1, hau.same.2, hau.same.3, hau.same.4, hau.same.5⟩, hau.op, rfl, hctr,
        hau.pend, zmac, zreq, zcalls⟩
    · rw [nextChunk_more (s := z) hlt
        (by show u.st.ctr.toNat ≠ msgBlocks u.mlen; rw [hau.ctr, g1]; exact hn), if_neg hn]
      exact ⟨zmem, ⟨hau.same.1, hau.same.2, hau.same.3, hau.same.4, hau.same.5⟩, hau.op, hau.phase,
        hctr, hau.pend, zmac, zreq, zcalls⟩

/-- The DEC1 loop (45_decrypt.md R201): memory is as it was. -/
theorem run_dec1Loop {s t t0 : State} {k nc : Nat} {ab : List MemRequest} {m0 : Block}
    (hq : ∀ i, 1 ≤ i → i ≤ msgBlocks s.mlen → s.busOk (s.readRequest i) = true)
    (hr : Host.Core.run core k t0 = .next t) (hm : t.mem = s.mem)
    (hat : Reached s .dec (entryPhase s .dec) 1 m0 t ab nc) (i : Nat) (hi : i ≤ msgBlocks s.mlen) :
    let C := Memory.readBytes s.mem s.inAddr s.mlen
    ∃ u, Host.Core.run core (k + i) t0 = .next u ∧ u.mem = s.mem ∧
      Reached s .dec (if i = msgBlocks s.mlen then .final else .dec1) (i + 1)
        ((List.range i).foldl (fun mac j => macStep (Config.cipher s.key) mac
          (xorBytes (piece C j) (Config.cipher s.key (ctrBlock s.nonce (j + 1))))) m0) u
        (ab ++ (List.range i).map fun i => s.readRequest (i + 1)) (nc + 2 * i) := by
  intro C
  induction i with
  | zero =>
    refine ⟨t, hr, hm, hat.same, hat.op, ?_, hat.ctr, hat.pend, hat.mac, by simp [hat.req],
      hat.calls⟩
    rw [hat.phase, entryPhase]
    by_cases hz : msgBlocks s.mlen = 0
    · rw [if_pos hz, if_pos hz.symm]
    · rw [if_neg hz, if_neg (Ne.symm hz), if_neg (by decide)]
  | succ i ih =>
    obtain ⟨u, hru, hmu, hau⟩ := ih (by omega)
    rw [if_neg (by omega)] at hau
    obtain ⟨g1, -, -, -, -, -, -, g8, -, g10, -⟩ := hau.same.derived
    obtain ⟨hin, hout⟩ := chunk_of_reached hau (by rw [hmu]; exact chunkIn_piece s i (by omega))
    obtain ⟨hlt, hctr⟩ := ctr_of_reached hau hi
    let v : State := { u with steps := u.steps + 1 }
    let z : State := dec1Ready (Config.cipher v.key) v
    have hs : phaseStep v = nextChunk v.st.ctr (State.toPhase .final) z := by
      simp only [phaseStep, show v.st.phase = .dec1 from hau.phase]
      refine stepDec1_ok _ ?_
      show u.busOk (u.readRequest u.st.ctr.toNat) = true
      rw [g8, g10, hau.ctr, hq (i + 1) (by omega) hi]
    have zmac : z.st.mac = (List.range (i + 1)).foldl (fun mac j => macStep (Config.cipher s.key) mac
        (xorBytes (piece C j) (Config.cipher s.key (ctrBlock s.nonce (j + 1))))) m0 := by
      show Config.cipher u.key (xorBlock u.st.mac (pad16 (chunkOut (Config.cipher u.key) u))) = _
      rw [hout, hau.mac, hau.same.key, List.range_succ, List.foldl_append]
      rfl
    have zreq : z.requests.reverse = ab ++ (List.range (i + 1)).map
        fun i => s.readRequest (i + 1) := by
      show (u.readRequest u.st.ctr.toNat :: u.requests).reverse = _
      simp only [List.reverse_cons, hau.req, g10, hau.ctr, List.range_succ, List.map_append,
        List.map_cons, List.map_nil, List.append_assoc]
    have zcalls : z.calls.length = nc + 2 * (i + 1) := by
      show u.calls.length + 1 + 1 = _
      rw [hau.calls]
      omega
    rw [show k + (i + 1) = (k + i) + 1 by omega, run_add hru 1,
      run_engine_succ hau.same.inputs (by rw [hau.phase]; decide)]
    refine ⟨phaseStep v, rfl, ?_⟩
    rw [hs]
    by_cases hn : i + 1 = msgBlocks s.mlen
    · rw [nextChunk_last (s := z) hlt
        (by show u.st.ctr.toNat = msgBlocks u.mlen; rw [hau.ctr, g1, hn]), if_pos hn]
      exact ⟨hmu, ⟨hau.same.1, hau.same.2, hau.same.3, hau.same.4, hau.same.5⟩, hau.op, rfl, hctr,
        hau.pend, zmac, zreq, zcalls⟩
    · rw [nextChunk_more (s := z) hlt
        (by show u.st.ctr.toNat ≠ msgBlocks u.mlen; rw [hau.ctr, g1]; exact hn), if_neg hn]
      exact ⟨hmu, ⟨hau.same.1, hau.same.2, hau.same.3, hau.same.4, hau.same.5⟩, hau.op, hau.phase,
        hctr, hau.pend, zmac, zreq, zcalls⟩

/-- The DEC2 loop (45_decrypt.md R206). -/
theorem run_dec2Loop {s t t0 : State} {k nc : Nat} {ab : List MemRequest} {m0 : Block}
    (hpos : 0 < msgBlocks s.mlen)
    (hov : s.outAddr = s.inAddr ∨
      ∀ a, inBuffer s.inAddr s.mlen a = true → inBuffer s.outAddr s.mlen a = false)
    (hq : ∀ i, 1 ≤ i → i ≤ msgBlocks s.mlen →
      s.busOk (s.readRequest i) = true ∧ s.busOk (s.writeRequest i) = true)
    (hr : Host.Core.run core k t0 = .next t) (hm : t.mem = s.mem)
    (hat : Reached s .dec .dec2 1 m0 t ab nc) (i : Nat) (hi : i ≤ msgBlocks s.mlen) :
    ∃ u, Host.Core.run core (k + i) t0 = .next u ∧
      Memory.Written s (masked (Config.cipher s.key) s.nonce
        (Memory.readBytes s.mem s.inAddr s.mlen)) i u.mem ∧
      Reached s .dec (if i = msgBlocks s.mlen then .wipe else .dec2) (i + 1) m0 u
        (ab ++ (List.range i).flatMap fun i => [s.readRequest (i + 1), s.writeRequest (i + 1)])
        (nc + i) := by
  have hPl : (Memory.readBytes s.mem s.inAddr s.mlen).length = s.mlen :=
    Memory.length_readBytes _ _ _
  induction i with
  | zero =>
    refine ⟨t, hr, written_zero _ hm, hat.same, hat.op, ?_, hat.ctr, hat.pend, hat.mac,
      by simp [hat.req], hat.calls⟩
    rw [hat.phase, if_neg (by omega)]
  | succ i ih =>
    obtain ⟨u, hru, hmu, hau⟩ := ih (by omega)
    rw [if_neg (by omega)] at hau
    obtain ⟨g1, -, -, -, g5, -, -, g8, -, g10, g11⟩ := hau.same.derived
    obtain ⟨hb, hw⟩ := hq (i + 1) (by omega) hi
    obtain ⟨-, hout⟩ := chunk_of_reached hau (written_in hmu (by omega) hov)
    obtain ⟨hlt, hctr⟩ := ctr_of_reached hau hi
    let v : State := { u with steps := u.steps + 1 }
    let z : State := wrote (Config.cipher v.key) v (dec2Ready (Config.cipher v.key) v)
    have hs : phaseStep v = nextChunk v.st.ctr (raise .ok) z := by
      simp only [phaseStep, show v.st.phase = .dec2 from hau.phase]
      refine stepDec2_ok _ _ ?_ ?_
      · show u.busOk (u.readRequest u.st.ctr.toNat) = true
        rw [g8, g10, hau.ctr, hb]
      · show u.busOk (u.writeRequest u.st.ctr.toNat) = true
        rw [g8, g11, hau.ctr, hw]
    have zmem : Memory.Written s (masked (Config.cipher s.key) s.nonce
        (Memory.readBytes s.mem s.inAddr s.mlen)) (i + 1) z.mem := by
      show Memory.Written s _ (i + 1) (Memory.writeBytes u.mem
        (chunkAddr u.outAddr u.st.ctr.toNat) (chunkOut (Config.cipher u.key) u))
      rw [hout, ← piece_masked _ _ _ (by rw [hPl]; omega), g5, hau.ctr]
      exact written_succ hmu (by omega) (by rw [length_masked, hPl])
    have zreq : z.requests.reverse = ab ++ (List.range (i + 1)).flatMap
        fun i => [s.readRequest (i + 1), s.writeRequest (i + 1)] := by
      show (u.writeRequest u.st.ctr.toNat :: u.readRequest u.st.ctr.toNat :: u.requests).reverse = _
      simp only [List.reverse_cons, hau.req, g10, g11, hau.ctr, List.range_succ, List.flatMap_append,
        List.flatMap_cons, List.flatMap_nil, List.append_assoc]
      rfl
    have zcalls : z.calls.length = nc + (i + 1) := by
      show u.calls.length + 1 = _
      rw [hau.calls]
      omega
    rw [show k + (i + 1) = (k + i) + 1 by omega, run_add hru 1,
      run_engine_succ hau.same.inputs (by rw [hau.phase]; decide)]
    refine ⟨phaseStep v, rfl, ?_⟩
    rw [hs]
    by_cases hn : i + 1 = msgBlocks s.mlen
    · rw [nextChunk_last (s := z) hlt
        (by show u.st.ctr.toNat = msgBlocks u.mlen; rw [hau.ctr, g1, hn]), if_pos hn]
      exact ⟨zmem, ⟨hau.same.1, hau.same.2, hau.same.3, hau.same.4, hau.same.5⟩, hau.op, rfl, hctr,
        rfl, hau.mac, zreq, zcalls⟩
    · rw [nextChunk_more (s := z) hlt
        (by show u.st.ctr.toNat ≠ msgBlocks u.mlen; rw [hau.ctr, g1]; exact hn), if_neg hn]
      exact ⟨zmem, ⟨hau.same.1, hau.same.2, hau.same.3, hau.same.4, hau.same.5⟩, hau.op, hau.phase,
        hctr, hau.pend, hau.mac, zreq, zcalls⟩

end Sys2Proof.Machine
end

