-- ==== Sys2Proof/Laws/PerInstr.lean ====
section
/-! SUPPORT. Statements made of every instruction, one lemma per constructor. -/

namespace Sys2Proof.Laws

/-- The encoding of a well-formed instruction lies inside the interface (30_encoding.md R80, R83, R92): a
whole, aligned access, or one of the phase codes 1 to 9. -/
def EncodesInside.Statement (i : Instr) : Prop :=
  i.wf = true →
    (∃ a, encode i = .access a ∧ a.wf = true) ∨
    ∃ c : BitVec 4, encode i = .phase c ∧ 1 ≤ c.toNat ∧ c.toNat ≤ 9

theorem EncodesInside.rd (off : BitVec 8) : EncodesInside.Statement (.rd off) :=
  fun h => .inl ⟨_, rfl, by simpa [HostAccess.wf, Instr.wf] using h⟩

theorem EncodesInside.wr (off : BitVec 8) (v : Word) : EncodesInside.Statement (.wr off v) := by
  intro h
  simp only [Instr.wf, Bool.and_eq_true] at h
  exact .inl ⟨_, rfl, by simpa [HostAccess.wf] using h.1.1⟩

theorem EncodesInside.wrBusy (off : BitVec 8) (v : Word) : EncodesInside.Statement (.wrBusy off v) := by
  intro h
  simp only [Instr.wf, Bool.and_eq_true] at h
  exact .inl ⟨_, rfl, by simpa [HostAccess.wf] using h.1⟩

theorem EncodesInside.wrStatus (v : Word) : EncodesInside.Statement (.wrStatus v) :=
  fun _ => .inl ⟨_, rfl, by simp [HostAccess.wf, aligned]⟩

theorem EncodesInside.nop : EncodesInside.Statement .nop := fun _ => .inl ⟨_, rfl, rfl⟩

theorem EncodesInside.encrypt : EncodesInside.Statement .encrypt := fun _ => .inl ⟨_, rfl, rfl⟩

theorem EncodesInside.decrypt : EncodesInside.Statement .decrypt := fun _ => .inl ⟨_, rfl, rfl⟩

theorem EncodesInside.illegal (code : Word) : EncodesInside.Statement (.illegal code) :=
  fun _ => .inl ⟨_, rfl, by simp [HostAccess.wf, aligned]⟩

theorem EncodesInside.check : EncodesInside.Statement .check :=
  fun _ => .inr ⟨_, rfl, by decide⟩

theorem EncodesInside.b0 : EncodesInside.Statement .b0 := fun _ => .inr ⟨_, rfl, by decide⟩

theorem EncodesInside.aad : EncodesInside.Statement .aad := fun _ => .inr ⟨_, rfl, by decide⟩

theorem EncodesInside.enc : EncodesInside.Statement .enc := fun _ => .inr ⟨_, rfl, by decide⟩

theorem EncodesInside.dec1 : EncodesInside.Statement .dec1 := fun _ => .inr ⟨_, rfl, by decide⟩

theorem EncodesInside.final : EncodesInside.Statement .final := fun _ => .inr ⟨_, rfl, by decide⟩

theorem EncodesInside.verify : EncodesInside.Statement .verify := fun _ => .inr ⟨_, rfl, by decide⟩

theorem EncodesInside.dec2 : EncodesInside.Statement .dec2 := fun _ => .inr ⟨_, rfl, by decide⟩

theorem EncodesInside.wipe : EncodesInside.Statement .wipe := fun _ => .inr ⟨_, rfl, by decide⟩

end Sys2Proof.Laws
end

