-- ==== Sys2Proof/Laws/Race.lean ====
section
/-! SUPPORT. Loads and stores of the other agents: what a load may return after a store, an acquire or an
engine step. -/

namespace Sys2Proof.Machine

theorem settled_iff (s : State) (a : Addr) :
    s.settled a = true ↔ ∀ v ∈ s.views, Memory.byte v a = Memory.byte s.mem a := by
  simp [State.settled]

theorem admits_mem (s : State) (a : Addr) : s.Admits a (Memory.byte s.mem a) := .inl rfl

theorem admits_of_settled {s : State} {a : Addr} (h : s.settled a = true) (c : Byte) :
    s.Admits a c ↔ c = Memory.byte s.mem a := by
  refine ⟨?_, .inl⟩
  rintro (e | ⟨v, hv, e⟩)
  · exact e
  · exact e.trans ((settled_iff s a).1 h v hv)

/-- After an acquire a load returns memory's byte. -/
theorem settled_of_views {s : State} (h : s.views = []) (a : Addr) : s.settled a = true := by
  simp [State.settled, h]

/-- After a store that is no race: at its address the byte stored, and the byte it replaced while that one was
still racing; elsewhere what was admitted before. -/
theorem admits_plainStore (a : Addr) (b : Byte) (s : State) (x : Addr) (c : Byte) :
    (plainStore a b s).Admits x c ↔
      if x = a then c = b ∨ (s.settled a = false ∧ c = Memory.byte s.mem a) else s.Admits x c := by
  have hb : ∀ v : Memory, Memory.byte (Memory.write v a.toNat b) x =
      if x = a then b else Memory.byte v x := fun v => Memory.byte_write _ _ _ _
  simp only [State.Admits, plainStore_mem, plainStore_views, List.mem_append, List.mem_map, hb]
  by_cases hx : x = a
  · subst hx
    simp only [if_true]
    cases hs : s.settled x
    · simp only [Bool.false_eq_true, if_false, List.mem_singleton, true_and]
      constructor
      · rintro (e | ⟨v, e | ⟨w, _, rfl⟩, e'⟩)
        · exact .inl e
        · exact .inr (e ▸ e')
        · exact .inl (e'.trans (by rw [hb, if_pos rfl]))
      · rintro (e | e)
        · exact .inl e
        · exact .inr ⟨_, .inl rfl, e⟩
    · simp only [if_true, List.not_mem_nil, false_or, Bool.true_eq_false, false_and, or_false]
      refine ⟨?_, .inl⟩
      rintro (e | ⟨v, ⟨w, _, rfl⟩, e'⟩)
      · exact e
      · exact e'.trans (by rw [hb, if_pos rfl])
  · simp only [if_neg hx]
    constructor
    · rintro (e | ⟨v, e | ⟨w, hw, rfl⟩, e'⟩)
      · exact .inl e
      · cases hs : s.settled a <;> simp only [hs] at e
        · have hv : v = s.mem := by simpa using e
          exact .inl (hv ▸ e')
        · simp at e
      · rw [hb, if_neg hx] at e'
        exact .inr ⟨w, hw, e'⟩
    · rintro (e | ⟨w, hw, e⟩)
      · exact .inl e
      · exact .inr ⟨_, .inr ⟨w, hw, rfl⟩, by rw [hb, if_neg hx]; exact e⟩

/-- What a racing store can be: it lands, the engine's write overtakes it, or it is put off. -/
theorem raceStore_cases (a : Addr) (b : Byte) (s : State) :
    raceStore a b s = { s with
      mem := Memory.write s.mem a.toNat b, views := s.mem :: s.views, draws := s.draws + 1 } ∨
    (s.engineWrote a = true ∧ raceStore a b s = { s with
      views := Memory.write s.mem a.toNat b :: s.views, draws := s.draws + 1 }) ∨
    (s.engineWrote a = false ∧ raceStore a b s = { s with
      views := Memory.write s.mem a.toNat b :: s.views
      inputs := putOff (.store a b) s.inputs, draws := s.draws + 1 }) := by
  simp only [raceStore]
  cases Config.freeBit s.draws
  · cases s.engineWrote a
    · exact .inr (.inr ⟨rfl, rfl⟩)
    · exact .inr (.inl ⟨rfl, rfl⟩)
  · exact .inl rfl

/-- After a racing store a load may return the byte stored, or whatever it could return before. -/
theorem admits_raceStore (a : Addr) (b : Byte) (s : State) (x : Addr) (c : Byte) :
    (raceStore a b s).Admits x c ↔ s.Admits x c ∨ (x = a ∧ c = b) := by
  have hb : Memory.byte (Memory.write s.mem a.toNat b) x =
      if x = a then b else Memory.byte s.mem x := Memory.byte_write _ _ _ _
  rcases raceStore_cases a b s with e | ⟨_, e⟩ | ⟨_, e⟩ <;> rw [e] <;>
    simp only [State.Admits, List.mem_cons, exists_eq_or_imp, hb] <;>
    by_cases hx : x = a <;> simp [hx, or_comm, or_left_comm]

/-- Stores keep the canonical form. -/
theorem memInv_plainStore (a : Addr) (b : Byte) {s : State} (h : s.MemInv) :
    (plainStore a b s).MemInv := by
  refine ⟨Memory.wf_write a.isLt h.1, fun v hv => ?_⟩
  simp only [plainStore_views, List.mem_append, List.mem_map] at hv
  rcases hv with hv | ⟨w, hw, rfl⟩
  · split_ifs at hv
    · cases hv
    · rw [List.mem_singleton.1 hv]
      exact h.1
  · exact Memory.wf_write a.isLt (h.2 w hw)

theorem memInv_raceStore (a : Addr) (b : Byte) {s : State} (h : s.MemInv) :
    (raceStore a b s).MemInv := by
  have hw : Memory.wf (Memory.write s.mem a.toNat b) = true := Memory.wf_write a.isLt h.1
  rcases raceStore_cases a b s with e | ⟨_, e⟩ | ⟨_, e⟩ <;> rw [e]
  · exact ⟨hw, List.forall_mem_cons.2 h⟩
  · exact ⟨h.1, List.forall_mem_cons.2 ⟨hw, h.2⟩⟩
  · exact ⟨h.1, List.forall_mem_cons.2 ⟨hw, h.2⟩⟩

/-- A load returns an admitted byte and changes nothing else but the count of draws. -/
theorem loadTurn_admits (a : Addr) (s : State) :
    ∃ c n, loadTurn a s = .next { s with hostByte := c, draws := n } ∧ s.Admits a c := by
  simp only [loadTurn]
  split_ifs
  · exact ⟨_, s.draws, rfl, admits_mem s a⟩
  · refine ⟨_, _, rfl, ?_⟩
    have hlt : Config.freePick s.draws % (s.views.length + 1) < (s.mem :: s.views).length := by
      simpa using Nat.mod_lt _ (Nat.succ_pos _)
    have hm := List.getElem_mem hlt
    rw [List.getD_eq_getElem _ _ hlt]
    rcases List.mem_cons.1 hm with e | e
    · exact .inl (congrArg (Memory.byte · a) e)
    · exact .inr ⟨_, e, rfl⟩

/-- After an acquire a load returns memory's byte. -/
theorem loadTurn_settled {s : State} {a : Addr} (h : s.settled a = true) :
    loadTurn a s = .next { s with hostByte := Memory.byte s.mem a } := if_pos h

/-- The older memories stay visible while the engine steps. -/
theorem admits_phaseStep (s : State) {a : Addr} {v : Memory} (h : v ∈ s.views) :
    (phaseStep s).Admits a (Memory.byte v a) :=
  .inr ⟨v, by rw [(phaseStep_untouched s).views]; exact h, rfl⟩

end Sys2Proof.Machine
end

