-- ==== Sys2Proof/Tests/Slice0.lean ====
section
/-! SUPPORT. Tests: the smoke test of well-formedness, words written out from the spec's encodings, single
steps on the vectors of 95_test_vectors.md, and a witness for the hypotheses of every statement. Expected
values are those of the spec's tables, never the model's own answers. -/

open Sys2Proof Sys2Proof.Machine

namespace Sys2Proof.Tests

/-! ## Helpers -/

/-- A byte string written as numbers. -/
def bytes (l : List Nat) : List Byte := l.map (BitVec.ofNat 8)

/-- A Block written as its bytes; missing bytes are 0. -/
def block (l : List Nat) : Block := pad16 (bytes l)

/-- A state with the sequencer at a phase. -/
def at' (p : Phase) (op : Op) (ctr aj : Nat) (s : State) : State :=
  { s with st := { s.st with
      phase := p, op := op, ctr := BitVec.ofNat 64 ctr, aj := BitVec.ofNat 64 aj } }

/-- A state with a running MAC. -/
def withMac (m : Block) (s : State) : State := { s with st := { s.st with mac := m } }

/-- A state with the next moves. -/
def withInputs (l : List Input) (s : State) : State := { s with inputs := l }

/-- Reset, then NONCE_LEN, MSG_LEN and AAD_LEN programmed, as the rows X1 to X10 have it. -/
def lengths (n : Nat) (mlen alen : Nat) : State :=
  { State.reset with
    ctrl := ⟨BitVec.ofNat 4 n, false⟩
    data := { DataRegs.zero with
      msgLenLo := BitVec.ofNat 32 mlen
      msgLenHi := BitVec.ofNat 32 (mlen / 2 ^ 32)
      aadLenLo := BitVec.ofNat 32 alen
      aadLenHi := BitVec.ofNat 32 (alen / 2 ^ 32) } }

/-- The registers of program P5: V-I2 with the AAD at 0x1000, the input at 0x2000, the output at 0x3000
and IE = 1. -/
def vi2 : State :=
  { State.reset with
    ctrl := ⟨7, true⟩
    data := { DataRegs.zero with
      nonce0 := 0x00010203
      nonce1 := 0x04050600
      aadAddrLo := 0x1000
      aadLenLo := 3
      inAddrLo := 0x2000
      outAddrLo := 0x3000
      msgLenLo := 18 }
    mem := [(0x1000, 0xAA), (0x1001, 0xBB), (0x1002, 0xCC), (0x2000, 0x10), (0x2001, 0x11),
      (0x2002, 0x12), (0x2003, 0x13), (0x2004, 0x14), (0x2005, 0x15), (0x2006, 0x16), (0x2007, 0x17),
      (0x2008, 0x18), (0x2009, 0x19), (0x200A, 0x1A), (0x200B, 0x1B), (0x200C, 0x1C), (0x200D, 0x1D),
      (0x200E, 0x1E), (0x200F, 0x1F), (0x2010, 0x20), (0x2011, 0x21)] }

/-- The same registers with V-I2's ciphertext as the input and its tag supplied. -/
def vi2Dec : State :=
  { vi2 with
    data := { vi2.data with
      tag0 := 0x4833B8A8, tag1 := 0xD8151617, tag2 := 0x18191A1B, tag3 := 0x1C1D1E0D }
    mem := [(0x1000, 0xAA), (0x1001, 0xBB), (0x1002, 0xCC), (0x2000, 0x17), (0x2001, 0x11),
      (0x2002, 0x13), (0x2003, 0x11), (0x2004, 0x17), (0x2005, 0x11), (0x2006, 0x13), (0x2007, 0x11),
      (0x2008, 0x18), (0x2009, 0x19), (0x200A, 0x1A), (0x200B, 0x1B), (0x200C, 0x1C), (0x200D, 0x1D),
      (0x200E, 0x1E), (0x200F, 0x1E), (0x2010, 0x27), (0x2011, 0x21)] }

/-- The identity cipher of 95_test_vectors.md section 3. -/
def idE : Block → Block := fun x => x

/-- No byte of a failed write lands, as in 95_test_vectors.md section 4.2. -/
def noneLand : Nat → BitVec 16 := fun _ => 0

/-- The next state of a step, if it has one. -/
def after (o : Host.Outcome State Fault Refusal) : Option State :=
  match o with
  | .next t => some t
  | .fault _ => none
  | .refused _ => none

/-! ## Well-formedness: each check refuses an ill-formed term -/

theorem test_wf_access_accepts : HostAccess.wf ⟨.rd, 0x54, 4, 0⟩ = true := by decide
theorem test_wf_access_refuses_sub_word : HostAccess.wf ⟨.rd, 0x54, 2, 0⟩ = false := by decide
theorem test_wf_access_refuses_misaligned : HostAccess.wf ⟨.wr, 0x56, 4, 0⟩ = false := by decide
theorem test_wf_rd_refuses_misaligned : Instr.wf (.rd 0x01) = false := by decide
theorem test_wf_wr_refuses_misaligned : Instr.wf (.wr 0x52 0) = false := by decide
theorem test_wf_wr_refuses_cmd : Instr.wf (.wr 0x04 1) = false := by decide
theorem test_wf_wr_refuses_status : Instr.wf (.wr 0x08 6) = false := by decide
theorem test_wf_wrBusy_refuses_misaligned : Instr.wf (.wrBusy 0x07 0) = false := by decide
theorem test_wf_wrBusy_refuses_status : Instr.wf (.wrBusy 0x08 6) = false := by decide
theorem test_wf_illegal_refuses_nop : Instr.wf (.illegal 0) = false := by decide
theorem test_wf_illegal_refuses_encrypt : Instr.wf (.illegal 1) = false := by decide
theorem test_wf_illegal_refuses_decrypt : Instr.wf (.illegal 2) = false := by decide
theorem test_wf_instr_accepts : Instr.wf (.wr 0x50 1) && Instr.wf (.wrBusy 0x04 2) &&
    Instr.wf (.illegal 0x101) && Instr.wf (.rd 0xFC) = true := by decide
theorem test_wf_nonce_refuses_17 : Pseudo.wf (.wrnonce (List.replicate 17 0)) = false := by decide
theorem test_wf_tag_refuses_17 : Pseudo.wf (.wrtag (List.replicate 17 0)) = false := by decide
theorem test_wf_nonce_accepts_16 : Pseudo.wf (.wrnonce (List.replicate 16 0)) = true := by decide
theorem test_wf_poll_refuses_empty : HostLine.wf (.poll .status 1 2 1) = false := by decide
theorem test_wf_poll_refuses_bit_32 : HostLine.wf (.poll .status 32 1 1) = false := by decide
theorem test_wf_poll_accepts : HostLine.wf (.poll .status 11 8 4) = true := by decide

/-! ## Decoding: words from 30_encoding.md R80 to R83 and 95_test_vectors.md section 5 -/

/-- P1 line 12, `R 0x08`. -/
theorem test_decode_rd : decode false (.access ⟨.rd, 0x08, 4, 0⟩) = .instr (.rd 0x08) := by decide
/-- P1 line 5, `W 0x1C 0x0C000000`. -/
theorem test_decode_wr :
    decode false (.access ⟨.wr, 0x1C, 4, 0x0C000000⟩) = .instr (.wr 0x1C 0x0C000000) := by decide
/-- P5 line 10, `W 0x50 0x00000001` while BUSY. -/
theorem test_decode_wr_busy :
    decode true (.access ⟨.wr, 0x50, 4, 1⟩) = .instr (.wrBusy 0x50 1) := by decide
/-- P5 line 11, `W 0x04 0x00000002` while BUSY. -/
theorem test_decode_cmd_busy :
    decode true (.access ⟨.wr, 0x04, 4, 2⟩) = .instr (.wrBusy 0x04 2) := by decide
/-- P5 line 15, `W 0x08 0x00000004`; the row does not depend on BUSY. -/
theorem test_decode_wr_status : decode false (.access ⟨.wr, 0x08, 4, 4⟩) = .instr (.wrStatus 4) ∧
    decode true (.access ⟨.wr, 0x08, 4, 4⟩) = .instr (.wrStatus 4) := by decide
theorem test_decode_nop : decode false (.access ⟨.wr, 0x04, 4, 0x00000000⟩) = .instr .nop := by decide
/-- P1 line 10. -/
theorem test_decode_encrypt :
    decode false (.access ⟨.wr, 0x04, 4, 0x00000001⟩) = .instr .encrypt := by decide
/-- P2 line 18. -/
theorem test_decode_decrypt :
    decode false (.access ⟨.wr, 0x04, 4, 0x00000002⟩) = .instr .decrypt := by decide
/-- P5 line 17 and row H9: all 32 bits decode. -/
theorem test_decode_illegal :
    decode false (.access ⟨.wr, 0x04, 4, 0x00000007⟩) = .instr (.illegal 7) ∧
    decode false (.access ⟨.wr, 0x04, 4, 0x00000101⟩) = .instr (.illegal 0x101) ∧
    decode false (.access ⟨.wr, 0x04, 4, 0x80000001⟩) = .instr (.illegal 0x80000001) := by decide
/-- The phase codes of R83. -/
theorem test_decode_phases : decodePhase 0b0001 = .instr .check ∧ decodePhase 0b0010 = .instr .b0 ∧
    decodePhase 0b0011 = .instr .aad ∧ decodePhase 0b0100 = .instr .enc ∧
    decodePhase 0b0101 = .instr .dec1 ∧ decodePhase 0b0110 = .instr .final ∧
    decodePhase 0b0111 = .instr .verify ∧ decodePhase 0b1000 = .instr .dec2 ∧
    decodePhase 0b1001 = .instr .wipe := by decide
theorem test_decode_phase_rejects : decodePhase 0b0000 = .reject .idlePhase ∧
    decodePhase 0b1010 = .reject .reservedPhase ∧ decodePhase 0b1111 = .reject .reservedPhase := by
  decide
theorem test_decode_access_rejects :
    decode false (.access ⟨.rd, 0x08, 1, 0⟩) = .reject .subWord ∧
    decode false (.access ⟨.wr, 0x06, 4, 1⟩) = .reject .misaligned := by decide
/-- The words the opcode table gives its rows. -/
theorem test_table_words : decodeTableWord 8 0x1 = some .check ∧ decodeTableWord 8 0x2 = some .b0 ∧
    decodeTableWord 8 0x3 = some .aad ∧ decodeTableWord 8 0x4 = some .enc ∧
    decodeTableWord 8 0x5 = some .dec1 ∧ decodeTableWord 8 0x6 = some .final ∧
    decodeTableWord 8 0x7 = some .verify ∧ decodeTableWord 8 0x8 = some .dec2 ∧
    decodeTableWord 8 0x9 = some .wipe ∧ decodeTableWord 32 0 = some .nop ∧
    decodeTableWord 32 1 = some .encrypt ∧ decodeTableWord 32 2 = some .decrypt ∧
    decodeTableWord 32 3 = some (.illegal 3) ∧ decodeTableWord 8 0x10 = some (.wrBusy 0x10 0) := by
  decide

/-! ## Host notation -/

/-- P1 lines 2 to 5. -/
theorem test_wrnonce : (Pseudo.wrnonce (bytes (List.range 13))).expand.map HostLine.encode =
    [⟨.wr, 0x10, 4, 0x00010203⟩, ⟨.wr, 0x14, 4, 0x04050607⟩, ⟨.wr, 0x18, 4, 0x08090A0B⟩,
      ⟨.wr, 0x1C, 4, 0x0C000000⟩] := by decide
/-- P2 lines 14 to 17 (V-A3's tag). -/
theorem test_wrtag : (Pseudo.wrtag (bytes [0x34, 0xB3, 0x9B, 0x6E, 0x07, 0x22, 0x57, 0xA0, 0x1E, 0x21,
    0xD0, 0x63, 0xB6, 0x64, 0x4C, 0xFE])).expand.map HostLine.encode =
    [⟨.wr, 0x20, 4, 0x34B39B6E⟩, ⟨.wr, 0x24, 4, 0x072257A0⟩, ⟨.wr, 0x28, 4, 0x1E21D063⟩,
      ⟨.wr, 0x2C, 4, 0xB6644CFE⟩] := by decide
/-- P2 lines 9 and 10. -/
theorem test_wr64 : (Pseudo.wr64 .inAddr 0x100000200).expand.map HostLine.encode =
    [⟨.wr, 0x40, 4, 0x00000200⟩, ⟨.wr, 0x44, 4, 0x00000001⟩] := by decide
/-- P1 lines 11, 13 to 17. -/
theorem test_wait_rdtag_ack : (Pseudo.wait.expand ++ Pseudo.rdtag.expand ++ Pseudo.ack.expand).map
    HostLine.encode = [⟨.rd, 0x08, 4, 0⟩, ⟨.rd, 0x20, 4, 0⟩, ⟨.rd, 0x24, 4, 0⟩, ⟨.rd, 0x28, 4, 0⟩,
      ⟨.rd, 0x2C, 4, 0⟩, ⟨.wr, 0x08, 4, 6⟩] := by decide

/-! ## Block formats (95_test_vectors.md sections 2.1, 2.2) -/

theorem test_b0_no_aad : b0Block (bytes (List.range 13)) false 4 =
    block [0x39, 0, 1, 2, 3, 4, 5, 6, 7, 8, 9, 0xA, 0xB, 0xC, 0, 4] := by decide
theorem test_b0_aad : b0Block (bytes [0x10, 0x11, 0x12, 0x13, 0x14, 0x15, 0x16]) true 4 =
    block [0x7F, 0x10, 0x11, 0x12, 0x13, 0x14, 0x15, 0x16, 0, 0, 0, 0, 0, 0, 0, 4] := by decide
theorem test_b0_longest : b0Block (bytes [0x10, 0x11, 0x12, 0x13, 0x14, 0x15, 0x16]) false
    (2 ^ 64 - 1) = block [0x3F, 0x10, 0x11, 0x12, 0x13, 0x14, 0x15, 0x16, 0xFF, 0xFF, 0xFF, 0xFF,
      0xFF, 0xFF, 0xFF, 0xFF] := by decide
theorem test_ctr_4096 : ctrBlock (bytes (List.range 13)) 4096 =
    block [0x01, 0, 1, 2, 3, 4, 5, 6, 7, 8, 9, 0xA, 0xB, 0xC, 0x10, 0] := by decide
theorem test_prefix_short : aadPrefix 0xFEFF = bytes [0xFE, 0xFF] ∧ prefixLen 0xFEFF = 2 ∧
    aadBlocks 0xFEFF = 4081 := by decide
theorem test_prefix_long : aadPrefix 0xFF00 = bytes [0xFF, 0xFE, 0, 0, 0xFF, 0] ∧
    prefixLen 0xFF00 = 6 ∧ aadBlocks 0xFF00 = 4081 := by decide
theorem test_prefix_longest : aadPrefix 0xFFFFFFFF = bytes [0xFF, 0xFE, 0xFF, 0xFF, 0xFF, 0xFF] ∧
    aadBlocks 0xFFFFFFFF = 268435457 := by decide
theorem test_block_counts : aadBlocks 0 = 0 ∧ aadBlocks 14 = 1 ∧ aadBlocks 15 = 2 ∧ aadBlocks 30 = 2 := by
  decide
/-- The "last AAD read" column. -/
theorem test_last_aad_read : (lengths 7 0 15).aadRequest 1 = ⟨.rd, 0xE, 1⟩ ∧
    (lengths 7 0 30).aadRequest 1 = ⟨.rd, 0xE, 16⟩ ∧
    (lengths 7 0 0xFEFF).aadRequest 4080 = ⟨.rd, 0xFEFE, 1⟩ ∧
    (lengths 7 0 0xFF00).aadRequest 4080 = ⟨.rd, 0xFEFA, 6⟩ ∧
    (lengths 7 0 0xFFFFFFFF).aadRequest 268435456 = ⟨.rd, 0xFFFFFFFA, 5⟩ := by decide
/-- Two message chunks of V-I2: 16 and 2 bytes. -/
theorem test_chunks : vi2.readRequest 1 = ⟨.rd, 0x2000, 16⟩ ∧ vi2.readRequest 2 = ⟨.rd, 0x2010, 2⟩ ∧
    vi2.writeRequest 2 = ⟨.wr, 0x3010, 2⟩ ∧ msgBlocks vi2.mlen = 2 ∧ msgBlocks 65535 = 4096 ∧
    chunkLen 65535 4096 = 15 := by decide

/-! ## Memory -/

theorem test_memory_removes_blank : Memory.write [(5, 1), (9, 2)] 5 0 = [(9, 2)] := by decide
theorem test_memory_keeps_order : Memory.write [(5, 1), (9, 2)] 7 3 = [(5, 1), (7, 3), (9, 2)] := by
  decide
/-- 20_memory.md R67: a request that runs past the top goes on at address 0. -/
theorem test_memory_wraps : Memory.writeBytes [] 0xFFFFFFFFFFFFFFFF (bytes [1, 2]) =
    [(0, 2), (2 ^ 64 - 1, 1)] := by decide

/-! ## Host accesses (95_test_vectors.md sections 4.1 and 5) -/

/-- P5 line 12: BUSY, PHASE = ENC, DROPPED = 1. -/
theorem test_rd_status : (after (exec (.rd 0x08) { at' .enc .enc 1 1 vi2 with
    status := ⟨false, true, .ok⟩ })).map State.rdata = some 0x00000405 := by decide
/-- P5 line 13 and H4: MSG_LEN_LO holds 18; CMD reads 0. -/
theorem test_rd_data : (after (exec (.rd 0x50) vi2)).map State.rdata = some 0x00000012 ∧
    (after (exec (.rd 0x04) { vi2 with rdata := 7 })).map State.rdata = some 0x00000000 := by decide
/-- H2, H3. -/
theorem test_wr_ctrl : (after (exec (.wr 0x00 0xFFFFFFFF) State.reset)).map (hostRead 0x00) =
    some 0x0000010F ∧ (after (exec (.wr 0x00 0x0000000E) State.reset)).map (hostRead 0x00) =
    some 0x0000000E := by decide
/-- H6, H5. -/
theorem test_wr_data : (after (exec (.wr 0x1C 0xDEADBEEF) State.reset)).map (hostRead 0x1C) =
    some 0xDEADBEEF ∧ after (exec (.wr 0x0C 0x12345678) State.reset) = some State.reset ∧
    after (exec (.wr 0x58 0xFFFFFFFF) State.reset) = some State.reset := by decide
/-- H13: the write of MSG_LEN_LO is dropped. -/
theorem test_wr_busy : (after (exec (.wrBusy 0x50 5) (at' .check .enc 1 0 (lengths 13 0 0)))).map
    (fun t => (t.statusWord, hostRead 0x50 t)) = some (0x00000105, 0x00000000) := by decide
/-- H7, and P5 lines 15 and 16. -/
theorem test_wr_status : after (exec (.wrStatus 0xFFFFFFFF) State.reset) = some State.reset ∧
    (after (exec (.wrStatus 4) { vi2 with status := ⟨true, true, .ok⟩ })).map State.statusWord =
      some 0x00000002 := by decide
/-- H10. -/
theorem test_nop : (after (exec .nop { State.reset with
    status := ⟨true, false, .illegalCommand⟩ })).map State.statusWord = some 0x00000062 := by decide
/-- H12; the counter starts at 1 (40_commands.md R106). -/
theorem test_encrypt : (after (exec .encrypt (lengths 13 0 0))).map
    (fun t => (t.statusWord, t.st.ctr, t.st.op)) = some (0x00000101, 1, .enc) := by decide
/-- P4 line 13: DONE and RESULT are cleared at the start. -/
theorem test_decrypt : (after (exec .decrypt { lengths 13 0 0 with
    status := ⟨true, false, .invalidNonceLength⟩ })).map (fun t => (t.statusWord, t.st.op)) =
    some (0x00000101, .dec) := by decide
/-- H8, H9. -/
theorem test_illegal : (after (exec (.illegal 3) State.reset)).map State.statusWord =
    some 0x00000062 ∧ (after (exec (.illegal 0x101) State.reset)).map State.statusWord =
    some 0x00000062 := by decide
/-- H11. -/
theorem test_ack_keeps_result : (after (exec (.wrStatus 2) { State.reset with
    status := ⟨true, false, .illegalCommand⟩ })).map State.statusWord = some 0x00000060 := by decide

/-! ## Engine steps (95_test_vectors.md sections 2.1, 3 and 4.2) -/

/-- X1, X2, X4, X6, X7, X9. -/
theorem test_check_raises :
    (stepCheck (at' .check .enc 1 0 (lengths 6 0 0))).st.pend = .invalidNonceLength ∧
    (stepCheck (at' .check .enc 1 0 (lengths 14 0 0))).st.pend = .invalidNonceLength ∧
    (stepCheck (at' .check .enc 1 0 (lengths 13 0x10000 0))).st.pend = .messageTooLarge ∧
    (stepCheck (at' .check .enc 1 0 (lengths 8 (2 ^ 56) 0))).st.pend = .messageTooLarge ∧
    (stepCheck (at' .check .enc 1 0 (lengths 7 0 (2 ^ 32)))).st.pend = .aadTooLarge ∧
    (stepCheck (at' .check .enc 1 0 (lengths 13 0x10000 (2 ^ 32)))).st.pend = .messageTooLarge := by
  decide
/-- X4b, X7b, X10. -/
theorem test_check_passes :
    (stepCheck (at' .check .enc 1 0 (lengths 13 0xFFFF 0))).statusWord = 0x00000201 ∧
    (stepCheck (at' .check .enc 1 0 (lengths 7 0 0xFFFFFFFF))).statusWord = 0x00000201 ∧
    (stepCheck (at' .check .enc 1 0 (lengths 7 (2 ^ 64 - 1) 0))).statusWord = 0x00000201 := by decide
/-- V-I2 step 2. -/
theorem test_b0 : (stepB0 idE (at' .b0 .enc 1 0 vi2)).statusWord = 0x00000301 ∧
    (stepB0 idE (at' .b0 .enc 1 0 vi2)).st.mac =
      block [0x7F, 0, 1, 2, 3, 4, 5, 6, 0, 0, 0, 0, 0, 0, 0, 0x12] := by decide
/-- V-I3 step 2: both lengths 0. -/
theorem test_b0_both_empty : (stepB0 idE (at' .b0 .enc 1 0 (lengths 13 0 0))).statusWord =
    0x00000601 := by decide
/-- V-I2's MAC after the B0 step. -/
def mac2 : Block := block [0x7F, 0, 1, 2, 3, 4, 5, 6, 0, 0, 0, 0, 0, 0, 0, 0x12]
/-- V-I2's MAC after the AAD step. -/
def mac3 : Block := block [0x7F, 0x03, 0xAB, 0xB9, 0xCF, 0x04, 0x05, 0x06, 0, 0, 0, 0, 0, 0, 0, 0x12]
/-- V-I2's MAC after chunk 1. -/
def mac4 : Block := block [0x6F, 0x12, 0xB9, 0xAA, 0xDB, 0x11, 0x13, 0x11, 0x18, 0x19, 0x1A, 0x1B, 0x1C,
  0x1D, 0x1E, 0x0D]
/-- V-I2's MAC after chunk 2. -/
def mac5 : Block := block [0x4F, 0x33, 0xB9, 0xAA, 0xDB, 0x11, 0x13, 0x11, 0x18, 0x19, 0x1A, 0x1B, 0x1C,
  0x1D, 0x1E, 0x0D]
/-- V-I2's tag. -/
def tag2 : Block := block [0x48, 0x33, 0xB8, 0xA8, 0xD8, 0x15, 0x16, 0x17, 0x18, 0x19, 0x1A, 0x1B, 0x1C,
  0x1D, 0x1E, 0x0D]
/-- V-I2 step 3. -/
theorem test_aad : (stepAad idE (withMac mac2 (at' .aad .enc 1 0 vi2))).statusWord = 0x00000401 ∧
    (stepAad idE (withMac mac2 (at' .aad .enc 1 0 vi2))).st.mac = mac3 ∧
    (stepAad idE (withMac mac2 (at' .aad .enc 1 0 vi2))).requests = [⟨.rd, 0x1000, 3⟩] := by decide
/-- B1. -/
theorem test_aad_bus_error : (stepAad idE (withMac mac2 { at' .aad .enc 1 0 vi2 with
    busErr := [⟨.rd, 0x1000, 3⟩] })).statusWord = 0x00000901 ∧
    (stepAad idE (withMac mac2 { at' .aad .enc 1 0 vi2 with
      busErr := [⟨.rd, 0x1000, 3⟩] })).st.pend = .busError := by decide
/-- V-I2 step 4. -/
theorem test_enc_full_chunk :
    (stepEnc idE noneLand (withMac mac3 (at' .enc .enc 1 1 vi2))).st.mac = mac4 ∧
    Memory.readBytes (stepEnc idE noneLand (withMac mac3 (at' .enc .enc 1 1 vi2))).mem 0x3000 16 =
      bytes [0x17, 0x11, 0x13, 0x11, 0x17, 0x11, 0x13, 0x11, 0x18, 0x19, 0x1A, 0x1B, 0x1C, 0x1D, 0x1E,
        0x1E] := by decide
/-- V-I2 step 5, and B3: the write of chunk 2 fails. -/
theorem test_enc_last_chunk :
    (stepEnc idE noneLand (withMac mac4 (at' .enc .enc 2 1 vi2))).statusWord = 0x00000601 ∧
    (stepEnc idE noneLand (withMac mac4 (at' .enc .enc 2 1 vi2))).st.mac = mac5 ∧
    Memory.readBytes (stepEnc idE noneLand (withMac mac4 (at' .enc .enc 2 1 vi2))).mem 0x3010 3 =
      bytes [0x27, 0x21, 0] ∧
    (stepEnc idE noneLand (withMac mac4 { at' .enc .enc 2 1 vi2 with
      busErr := [⟨.wr, 0x3010, 2⟩] })).mem = vi2.mem ∧
    (stepEnc idE noneLand (withMac mac4 { at' .enc .enc 2 1 vi2 with
      busErr := [⟨.wr, 0x3010, 2⟩] })).st.pend = .busError := by decide
/-- V-I2 step 6. -/
theorem test_final : (stepFinal idE (withMac mac5 (at' .final .enc 3 1 vi2))).statusWord = 0x00000901 ∧
    (stepFinal idE (withMac mac5 (at' .final .enc 3 1 vi2))).tagReg = tag2 ∧
    (stepFinal idE (withMac mac5 (at' .final .enc 3 1 vi2))).data.tag0 = 0x4833B8A8 := by decide
/-- 45_decrypt.md R202: DEC1 leaves the MAC that ENC leaves. -/
theorem test_dec1 : (stepDec1 idE (withMac mac3 (at' .dec1 .dec 1 1 vi2Dec))).st.mac = mac4 ∧
    (stepDec1 idE (withMac mac4 (at' .dec1 .dec 2 1 vi2Dec))).st.mac = mac5 ∧
    (stepDec1 idE (withMac mac4 (at' .dec1 .dec 2 1 vi2Dec))).statusWord = 0x00000601 := by decide
/-- The STATUS column of the V-A3 traces: FINAL of a DECRYPT leads to VERIFY. -/
theorem test_final_decrypt :
    (stepFinal idE (withMac mac5 (at' .final .dec 3 1 vi2Dec))).statusWord = 0x00000701 ∧
    (stepFinal idE (withMac mac5 (at' .final .dec 3 1 vi2Dec))).st.cand = tag2 := by decide
/-- B7 and B8. -/
theorem test_verify :
    (stepVerify { at' .verify .dec 3 1 vi2Dec with
      st := { (at' .verify .dec 3 1 vi2Dec).st with cand := tag2 } }).statusWord = 0x00000801 ∧
    (stepVerify { at' .verify .dec 3 1 vi2Dec with
      data := { vi2Dec.data with tag3 := 0x1C1D1E0C }
      st := { (at' .verify .dec 3 1 vi2Dec).st with cand := tag2 } }).st.pend =
        .authenticationFailure := by decide
/-- B7: the second chunk of the plaintext. -/
theorem test_dec2 : (stepDec2 idE noneLand (at' .dec2 .dec 2 1 vi2Dec)).statusWord = 0x00000901 ∧
    Memory.readBytes (stepDec2 idE noneLand (at' .dec2 .dec 2 1 vi2Dec)).mem 0x3010 3 =
      bytes [0x20, 0x21, 0] := by decide
/-- B6: the write of the second chunk fails. -/
theorem test_dec2_bus_error : (stepDec2 idE noneLand { at' .dec2 .dec 2 1 vi2Dec with
    busErr := [⟨.wr, 0x3010, 2⟩] }).st.pend = .busError := by decide
/-- V-I2 step 7 and B1: STATUS after WIPE. -/
theorem test_wipe : (after (exec .wipe (withMac mac5 (at' .wipe .enc 3 1 vi2)))).map
    (fun t => (t.statusWord, t.st, t.irq)) = some (0x00000002, Engine.idle, true) ∧
    (after (exec .wipe (raise .busError (at' .aad .enc 1 0 vi2)))).map State.statusWord =
      some 0x00000052 := by decide

/-! ## Steps of the whole -/

/-- 95_test_vectors.md section 4.3: reset during a command. -/
theorem test_reset : (after (step (withInputs [.reset] (at' .enc .enc 2 1 vi2)))).map
    (fun t => ([hostRead 0x00 t, t.statusWord, hostRead 0x10 t, hostRead 0x50 t], t.irq,
      t.mem == vi2.mem)) = some ([0, 0, 0, 0], false, true) := by decide
/-- P4: the CHECK step, taken with no move listed, refuses NONCE_LEN = 14. -/
theorem test_step_engine : (after (step (at' .check .enc 1 0 (lengths 14 4 0)))).map
    (fun t => (t.statusWord, t.st.pend, t.steps)) = some (0x00000901, .invalidNonceLength, 1) := by
  decide
/-- P1 line 11. -/
theorem test_wait : (after (step (withInputs (pseudoInputs .wait)
    { State.reset with status := ⟨true, false, .ok⟩ }))).map (fun t => (t.rdata, t.inputs)) =
    some (0x00000002, []) := by decide
/-- 30_encoding.md R80. -/
theorem test_refusals :
    step (withInputs [.access ⟨.rd, 0x08, 1, 0⟩] State.reset) = .refused .subWordAccess ∧
    step (withInputs [.access ⟨.wr, 0x02, 4, 0⟩] State.reset) = .refused .misalignedAccess := ⟨rfl, rfl⟩
/-- 70_reset_and_hazards.md R264, R265 (D40). -/
theorem test_forbidden_moves :
    step (withInputs [.store 0x1000 0] (at' .enc .enc 1 1 vi2)) = .fault .inputRace ∧
    step (withInputs [.rekey 1] (at' .enc .enc 1 1 vi2)) = .fault .keyChange := ⟨rfl, rfl⟩
/-- 70_reset_and_hazards.md R266, 20_memory.md R74: a store to an output byte while BUSY is a race, not a
stop, and the host may load the byte it stored. -/
theorem test_output_store_goes_on :
    (after (step (withInputs [.store 0x3011 5] (at' .enc .enc 1 1 vi2)))).map
      (fun t => t.statusWord) = some 0x00000401 := by decide
/-- 20_memory.md R70: a store while idle is what the engine reads. -/
theorem test_idle_store : (after (step (withInputs [.store 0x2000 5] vi2))).map
    (fun t => (Memory.byte t.mem 0x2000, t.views)) = some (5, []) := by decide
/-- 20_memory.md R72: the bytes of the command start stay old values, also those of a command no host has
acquired. -/
theorem test_old_values_kept : (after (exec .encrypt { vi2 with views := [[]] })).map State.views =
    some [vi2.mem, []] := by decide
/-- 20_memory.md R71: STATUS with DONE = 1 acquires; after an illegal command it is for no command. -/
theorem test_acquire : (after (exec (.rd 0x08) { vi2 with
    views := [[]], status := ⟨true, false, .busError⟩ })).map State.views = some [] ∧
    (after (exec (.rd 0x08) { vi2 with
      views := [[]], status := ⟨true, false, .illegalCommand⟩ })).map State.views = some [[]] := by decide
/-- 95_test_vectors.md B5: the platform answers a later read of the same bytes with an error. -/
theorem test_answer_changes : (after (step (withInputs [.answer [⟨.rd, 0x2000, 16⟩]]
    (at' .dec2 .dec 1 1 vi2Dec)))).map (fun t => t.busOk (t.readRequest 1)) = some false := by decide
/-- The word of ENCRYPT runs at once from reset; so does a phase word. -/
theorem test_fetch : (after (step (State.reset.withFetchWord 32 1))).map State.statusWord =
    some 0x00000101 ∧ (after (step (State.reset.withFetchWord 8 0x9))).map State.statusWord =
    some 0x00000002 ∧ (after (step (State.reset.withFetchWord 8 0x10))).map State.statusWord =
    some 0x00000105 := by decide

/-! ## Witnesses: concrete states and operands that meet the hypotheses of each statement -/

/-- A 20-byte AAD in place of V-I2's three bytes: two AAD blocks. -/
def twoAad : State := { vi2 with data := { vi2.data with aadLenLo := 20 } }

theorem witness_DecodeOfEncode :
    (Instr.wf (.wr 0x54 1) = true ∧ Instr.admitsBusy false (.wr 0x54 1) = true) ∧
    (Instr.wf (.wrBusy 0xFC 1) = true ∧ Instr.admitsBusy true (.wrBusy 0xFC 1) = true) ∧
    (Instr.wf (.illegal 3) = true ∧ Instr.admitsBusy false (.illegal 3) = true) ∧
    (Instr.wf .wipe = true ∧ Instr.admitsBusy true .wipe = true) := by decide
theorem witness_EncodeOfDecode :
    decode false (.access ⟨.wr, 0xFC, 4, 0xFFFFFFFF⟩) = .instr (.wr 0xFC 0xFFFFFFFF) ∧
    decode true (.access ⟨.rd, 0x00, 4, 5⟩) = .instr (.rd 0x00) ∧
    decode true (.phase 9) = .instr .wipe := by decide
/-- The values on either side of each bound. -/
theorem witness_RejectedEncodings :
    decode false (.access ⟨.rd, 0, 3, 0⟩) = .reject .subWord ∧
    decode false (.access ⟨.rd, 3, 4, 0⟩) = .reject .misaligned ∧
    decode false (.access ⟨.rd, 4, 4, 0⟩) = .instr (.rd 4) ∧
    decode false (.phase 0) = .reject .idlePhase ∧ decode false (.phase 1) = .instr .check ∧
    decode false (.phase 9) = .instr .wipe ∧ decode false (.phase 10) = .reject .reservedPhase := by
  decide
theorem witness_RegisterOffsets : Reg.ofOffset 0x00 = some .ctrl ∧
    Reg.ofOffset 0x54 = some (.data .msgLenHi) := by decide
theorem witness_B0BlockBytes :
    (7 ≤ (bytes (List.range 7)).length ∧ (bytes (List.range 7)).length ≤ 13 ∧
      2 ^ 64 - 1 < 2 ^ (8 * (15 - (bytes (List.range 7)).length))) ∧
    (7 ≤ (bytes (List.range 13)).length ∧ (bytes (List.range 13)).length ≤ 13 ∧
      65535 < 2 ^ (8 * (15 - (bytes (List.range 13)).length))) := by decide
theorem witness_CtrBlockBytes :
    7 ≤ (bytes (List.range 13)).length ∧ (bytes (List.range 13)).length ≤ 13 ∧
    65535 < 2 ^ (8 * (15 - (bytes (List.range 13)).length)) ∧
    ctrBlock (bytes (List.range 13)) 65535 = ctrBlock (bytes (List.range 13)) 65535 := by decide
/-- The smallest and the largest length of each form. -/
theorem witness_AadPrefixForms : (0 < 1 ∧ 1 < 2 ^ 32 ∧ 1 < 0xFF00) ∧
    (0 < 0xFEFF ∧ 0xFEFF < 2 ^ 32 ∧ 0xFEFF < 0xFF00) ∧
    (0 < 0xFF00 ∧ 0xFF00 < 2 ^ 32 ∧ 0xFF00 ≤ 0xFF00) ∧
    (0 < 2 ^ 32 - 1 ∧ 2 ^ 32 - 1 < 2 ^ 32 ∧ 0xFF00 ≤ 2 ^ 32 - 1) := by decide
/-- Every clause: CTRL, CMD, STATUS, the first and the last data register, and the reserved offsets. -/
theorem witness_ReadReturnsRegister : (0x00 : BitVec 8).toNat % 4 = 0 ∧ (0x04 : BitVec 8).toNat % 4 = 0 ∧
    (0x08 : BitVec 8).toNat % 4 = 0 ∧ (0x10 = DataReg.nonce0.offset ∧ (0x10 : BitVec 8).toNat % 4 = 0) ∧
    (0x54 = DataReg.msgLenHi.offset ∧ (0x54 : BitVec 8).toNat % 4 = 0) ∧
    (0x0C : BitVec 8).toNat % 4 = 0 ∧ (0x58 ≤ (0x58 : BitVec 8).toNat ∧ (0x58 : BitVec 8).toNat % 4 = 0) ∧
    (0x58 ≤ (0xFC : BitVec 8).toNat ∧ (0xFC : BitVec 8).toNat % 4 = 0) := by decide
theorem witness_WriteStoresDataRegister : vi2.st.phase = .idle ∧ DataReg.nonce1 ≠ DataReg.nonce0 := by
  decide
theorem witness_WriteCtrlAndReserved : vi2.st.phase = .idle ∧ (0x0C : BitVec 8).toNat % 4 = 0 ∧
    (0x58 : BitVec 8).toNat % 4 = 0 ∧ 0x58 ≤ (0x58 : BitVec 8).toNat := by decide
theorem witness_BusyWriteIsDropped : (at' .check .enc 1 0 vi2).st.phase ≠ .idle ∧
    (0x04 : BitVec 8).toNat % 4 = 0 ∧ (0x04 : BitVec 8) ≠ 0x08 := by decide
theorem witness_NopHasNoEffect : vi2.st.phase = .idle ∧ (at' .wipe .enc 3 1 vi2).st.phase ≠ .idle := by
  decide
theorem witness_CommandStart : vi2Dec.st.phase = .idle := by decide
theorem witness_IllegalCommandCompletes : vi2.st.phase = .idle ∧ (3 : Word) ≠ 0 ∧ (3 : Word) ≠ 1 ∧
    (3 : Word) ≠ 2 := by decide
theorem witness_CmdWriteRunsCommand : vi2.st.phase = .idle := by decide
theorem witness_AccessesOutsideRefused :
    ((withInputs [.access ⟨.rd, 0x08, 2, 0⟩] vi2).inputs = .access ⟨.rd, 0x08, 2, 0⟩ :: [] ∧
      (⟨.rd, 0x08, 2, 0⟩ : HostAccess).bytes ≠ 4) ∧
    ((withInputs [.access ⟨.wr, 0x51, 4, 0⟩] vi2).inputs = .access ⟨.wr, 0x51, 4, 0⟩ :: [] ∧
      (⟨.wr, 0x51, 4, 0⟩ : HostAccess).bytes = 4 ∧
      (⟨.wr, 0x51, 4, 0⟩ : HostAccess).offset.toNat % 4 ≠ 0) := by decide
/-- Each clause at the bounds of its range: X1, X2; X4; X7; X4b, X7b. -/
theorem witness_CheckTestsContract :
    (lengths 6 0 0).nonceLen < 7 ∧ 13 < (lengths 14 0 0).nonceLen ∧
    ((lengths 13 0x10000 0).nonceLen = 13 ∧ 2 ^ (8 * (15 - 13)) ≤ (lengths 13 0x10000 0).mlen) ∧
    ((lengths 7 0 (2 ^ 32)).nonceLen = 7 ∧ (lengths 7 0 (2 ^ 32)).mlen < 2 ^ (8 * (15 - 7)) ∧
      2 ^ 32 ≤ (lengths 7 0 (2 ^ 32)).alen) ∧
    ((lengths 13 0xFFFF 0xFFFFFFFF).mlen < 2 ^ (8 * (15 - 13)) ∧
      (lengths 13 0xFFFF 0xFFFFFFFF).alen < 2 ^ 32) := by decide
/-- The first, the last and the only AAD block. -/
theorem witness_AadStepAbsorbsBlock :
    ((at' .aad .enc 1 0 vi2).st.phase = .aad ∧ (at' .aad .enc 1 0 vi2).alen < 2 ^ 32 ∧
      (at' .aad .enc 1 0 vi2).st.aj.toNat < aadBlocks (at' .aad .enc 1 0 vi2).alen ∧
      (at' .aad .enc 1 0 vi2).busOk ((at' .aad .enc 1 0 vi2).aadRequest 0) = true) ∧
    ((at' .aad .enc 1 1 twoAad).st.phase = .aad ∧ (at' .aad .enc 1 1 twoAad).alen < 2 ^ 32 ∧
      (at' .aad .enc 1 1 twoAad).st.aj.toNat < aadBlocks (at' .aad .enc 1 1 twoAad).alen ∧
      (at' .aad .enc 1 1 twoAad).busOk ((at' .aad .enc 1 1 twoAad).aadRequest 1) = true) := by decide
theorem witness_AadRequestsCoverAad : twoAad.alen < 2 ^ 32 ∧ 1 < aadBlocks twoAad.alen ∧
    (lengths 7 0 0xFFFFFFFF).alen < 2 ^ 32 ∧
    268435456 < aadBlocks (lengths 7 0 0xFFFFFFFF).alen := by decide
/-- The first chunk and the last. -/
theorem witness_EncStepEncryptsChunk :
    ((at' .enc .enc 1 1 vi2).st.phase = .enc ∧ 1 ≤ (at' .enc .enc 1 1 vi2).st.ctr.toNat ∧
      (at' .enc .enc 1 1 vi2).st.ctr.toNat ≤ msgBlocks (at' .enc .enc 1 1 vi2).mlen ∧
      (at' .enc .enc 1 1 vi2).busOk ((at' .enc .enc 1 1 vi2).readRequest 1) = true ∧
      (at' .enc .enc 1 1 vi2).busOk ((at' .enc .enc 1 1 vi2).writeRequest 1) = true) ∧
    ((at' .enc .enc 2 1 vi2).st.ctr.toNat = msgBlocks (at' .enc .enc 2 1 vi2).mlen ∧
      (at' .enc .enc 2 1 vi2).busOk ((at' .enc .enc 2 1 vi2).readRequest 2) = true ∧
      (at' .enc .enc 2 1 vi2).busOk ((at' .enc .enc 2 1 vi2).writeRequest 2) = true) := by decide
theorem witness_Dec1StepAbsorbsPlaintext :
    (at' .dec1 .dec 1 1 vi2Dec).st.phase = .dec1 ∧ 1 ≤ (at' .dec1 .dec 1 1 vi2Dec).st.ctr.toNat ∧
      (at' .dec1 .dec 1 1 vi2Dec).st.ctr.toNat ≤ msgBlocks (at' .dec1 .dec 1 1 vi2Dec).mlen ∧
      (at' .dec1 .dec 1 1 vi2Dec).busOk ((at' .dec1 .dec 1 1 vi2Dec).readRequest 1) = true := by decide
/-- The first chunk and the last. -/
theorem witness_Dec2StepReleasesChunk :
    ((at' .dec2 .dec 1 1 vi2Dec).st.phase = .dec2 ∧ 1 ≤ (at' .dec2 .dec 1 1 vi2Dec).st.ctr.toNat ∧
      (at' .dec2 .dec 1 1 vi2Dec).st.ctr.toNat ≤ msgBlocks (at' .dec2 .dec 1 1 vi2Dec).mlen ∧
      (at' .dec2 .dec 1 1 vi2Dec).busOk ((at' .dec2 .dec 1 1 vi2Dec).readRequest 1) = true ∧
      (at' .dec2 .dec 1 1 vi2Dec).busOk ((at' .dec2 .dec 1 1 vi2Dec).writeRequest 1) = true) ∧
    ((at' .dec2 .dec 2 1 vi2Dec).st.ctr.toNat = msgBlocks (at' .dec2 .dec 2 1 vi2Dec).mlen ∧
      (at' .dec2 .dec 2 1 vi2Dec).busOk ((at' .dec2 .dec 2 1 vi2Dec).readRequest 2) = true ∧
      (at' .dec2 .dec 2 1 vi2Dec).busOk ((at' .dec2 .dec 2 1 vi2Dec).writeRequest 2) = true) := by decide
theorem witness_FinalWritesEncryptTag : (at' .final .enc 3 1 vi2).st.op = .enc ∧ 15 < 16 ∧
    DataReg.nonce0 ≠ .tag0 := by decide
theorem witness_FinalKeepsDecryptTag : (at' .final .dec 3 1 vi2Dec).st.op ≠ .enc := by decide
/-- Accept with a message, accept without one, and a mismatch in the last byte alone. -/
theorem witness_VerifyComparesTag :
    ((∀ k (h : k < 16), (lengths 13 1 0).st.cand[k] = (lengths 13 1 0).tagByte k) ∧
      msgBlocks (lengths 13 1 0).mlen ≠ 0) ∧
    ((∀ k (h : k < 16), (lengths 13 0 0).st.cand[k] = (lengths 13 0 0).tagByte k) ∧
      msgBlocks (lengths 13 0 0).mlen = 0) ∧
    ∃ k, ∃ h : k < 16, ({ State.reset with data := { DataRegs.zero with tag3 := 1 } } : State).st.cand[k] ≠
      ({ State.reset with data := { DataRegs.zero with tag3 := 1 } } : State).tagByte k :=
  ⟨⟨by decide, by decide⟩, ⟨by decide, by decide⟩, 15, by decide, by decide⟩
theorem witness_FailedReadRaisesBusError :
    ({ at' .aad .enc 1 0 vi2 with busErr := [⟨.rd, 0x1000, 3⟩] } : State).busOk
      (({ at' .aad .enc 1 0 vi2 with busErr := [⟨.rd, 0x1000, 3⟩] } : State).aadRequest 0) = false ∧
    ({ at' .enc .enc 2 1 vi2 with busErr := [⟨.rd, 0x2010, 2⟩] } : State).busOk
      (({ at' .enc .enc 2 1 vi2 with busErr := [⟨.rd, 0x2010, 2⟩] } : State).readRequest 2) = false := by
  decide
theorem witness_FailedWriteLandsAnySubset :
    ({ at' .enc .enc 2 1 vi2 with busErr := [⟨.wr, 0x3010, 2⟩] } : State).busOk
      (({ at' .enc .enc 2 1 vi2 with busErr := [⟨.wr, 0x3010, 2⟩] } : State).readRequest 2) = true ∧
    ({ at' .enc .enc 2 1 vi2 with busErr := [⟨.wr, 0x3010, 2⟩] } : State).busOk
      (({ at' .enc .enc 2 1 vi2 with busErr := [⟨.wr, 0x3010, 2⟩] } : State).writeRequest 2) = false := by
  decide
theorem witness_ResetZeroesEverything :
    (withInputs [.reset] (at' .enc .enc 2 1 vi2)).inputs = .reset :: [] := by decide
theorem witness_ResetCutsWrite :
    ((withInputs [.resetCut] (at' .enc .enc 2 1 vi2)).inputs = .resetCut :: []) ∧
    ((withInputs [.resetCut] (at' .aad .enc 1 0 vi2)).inputs = .resetCut :: [] ∧
      (withInputs [.resetCut] (at' .aad .enc 1 0 vi2)).st.phase ≠ .enc ∧
      (withInputs [.resetCut] (at' .aad .enc 1 0 vi2)).st.phase ≠ .dec2) ∧
    inBuffer (chunkAddr vi2.outAddr 2) (chunkLen vi2.mlen 2) 0x3012 = false := by decide
theorem witness_IrqFollowsDoneAndIe : vi2.st.phase = .idle := by decide
/-- Each clause at a first, a last or a next byte of a buffer, and both sides of the key load. -/
theorem witness_ForbiddenMovesStop :
    ((withInputs [.store 0x1002 0] (at' .enc .enc 1 1 vi2)).busy = true ∧
      inBuffer vi2.aadAddr vi2.alen 0x1002 = true) ∧
    (inBuffer vi2.aadAddr vi2.alen 0x2011 = false ∧ inBuffer vi2.inAddr vi2.mlen 0x2011 = true) ∧
    (inBuffer vi2.aadAddr vi2.alen 0x3012 = false ∧ inBuffer vi2.inAddr vi2.mlen 0x3012 = false ∧
      inBuffer vi2.outAddr vi2.mlen 0x3012 = false) ∧
    (withInputs [.store 0x1002 0] vi2).busy = false ∧
    (withInputs [.rekey 1] (at' .enc .enc 1 1 vi2)).busy = true ∧
    (withInputs [.rekey 1] vi2).inputs = .rekey 1 :: [] := by decide
/-- The first and the last output byte: one the engine has written, one it has not. -/
theorem witness_OutputStoreRaces :
    let s := { withInputs [.store 0x3000 7] (at' .enc .enc 2 1 vi2) with requests := [⟨.wr, 0x3000, 16⟩] }
    let t := withInputs [.store 0x3011 7] (at' .enc .enc 2 1 vi2)
    (s.inputs = .store 0x3000 7 :: [] ∧ s.busy = true ∧ inBuffer s.aadAddr s.alen 0x3000 = false ∧
      inBuffer s.inAddr s.mlen 0x3000 = false ∧ inBuffer s.outAddr s.mlen 0x3000 = true ∧
      s.engineWrote 0x3000 = true) ∧
    (t.inputs = .store 0x3011 7 :: [] ∧ t.busy = true ∧ inBuffer t.aadAddr t.alen 0x3011 = false ∧
      inBuffer t.inAddr t.mlen 0x3011 = false ∧ inBuffer t.outAddr t.mlen 0x3011 = true ∧
      t.engineWrote 0x3011 = false) := by decide
/-- A dropped write and a store to an output byte, each between two engine steps. -/
theorem witness_OtherAgentsLeaveCommandAlone :
    ((withInputs [.access ⟨.wr, 0x50, 4, 1⟩] (at' .enc .enc 2 1 vi2)).busy = true ∧
      (withInputs [.access ⟨.wr, 0x50, 4, 1⟩] (at' .enc .enc 2 1 vi2)).inputs =
        .access ⟨.wr, 0x50, 4, 1⟩ :: [] ∧
      ∃ t, step (withInputs [.access ⟨.wr, 0x50, 4, 1⟩] (at' .enc .enc 2 1 vi2)) = .next t) ∧
    ((withInputs [.store 0x3011 7] (at' .enc .enc 2 1 vi2)).busy = true ∧
      (withInputs [.store 0x3011 7] (at' .enc .enc 2 1 vi2)).inputs = .store 0x3011 7 :: [] ∧
      ∃ t, step (withInputs [.store 0x3011 7] (at' .enc .enc 2 1 vi2)) = .next t) ∧
    inBuffer vi2.inAddr vi2.mlen 0x2011 = true :=
  ⟨⟨by decide, by decide, _, rfl⟩, ⟨by decide, by decide, _, rfl⟩, by decide⟩
theorem witness_HostLoadsRaceUntilAcquire :
    (withInputs [.load 0x3000] vi2).inputs = .load 0x3000 :: [] ∧ vi2.st.phase = .idle ∧
    ({ at' .wipe .enc 3 1 vi2 with views := [[]] } : State).inputs = [] ∧
    ({ vi2 with status := ⟨true, false, .ok⟩ } : State).status.done = true ∧
    ({ vi2 with status := ⟨true, false, .ok⟩ } : State).status.result ≠ .illegalCommand ∧
    (({ vi2 with status := ⟨true, false, .ok⟩, inputs := [.sampleIrq] } : State).irq = true ∧
      ({ vi2 with status := ⟨true, false, .ok⟩, inputs := [.sampleIrq] } : State).inputs =
        .sampleIrq :: []) := by decide
theorem witness_StepRunsPhase :
    (decode (at' .wipe .enc 1 0 vi2).busy (.phase (at' .wipe .enc 1 0 vi2).st.phase.code) = .instr .wipe ∧
      (at' .wipe .enc 1 0 vi2).inputs = []) ∧
    (decode (at' .enc .enc 1 0 vi2).busy (.phase (at' .enc .enc 1 0 vi2).st.phase.code) = .instr .enc ∧
      (withInputs [.engine] (at' .enc .enc 1 0 vi2)).inputs = .engine :: []) := by decide
theorem witness_StepRunsAccess :
    (withInputs [.access ⟨.wr, 0x04, 4, 1⟩] vi2).inputs = .access ⟨.wr, 0x04, 4, 1⟩ :: [] ∧
    decode (withInputs [.access ⟨.wr, 0x04, 4, 1⟩] vi2).busy (.access ⟨.wr, 0x04, 4, 1⟩) =
      .instr .encrypt := by decide
theorem witness_IdleEngineTakesNoStep : (vi2.st.phase = .idle ∧ vi2.inputs = []) ∧
    (withInputs [.engine] vi2).inputs = .engine :: [] := by decide
theorem witness_PlacedWordRunsNext : decodeTableWord 32 1 = some .encrypt ∧
    decodeTableWord 8 9 = some .wipe := by decide
theorem witness_PseudoInstructionsExpand : vi2.st.phase = .idle ∧
    (bytes (List.range 16)).length ≤ 16 := by decide
theorem witness_WaitPollsDone :
    ((withInputs (pseudoInputs .wait ++ []) { vi2 with status := ⟨true, false, .ok⟩ }).inputs =
        pseudoInputs .wait ++ [] ∧
      (withInputs (pseudoInputs .wait ++ []) { vi2 with status := ⟨true, false, .ok⟩ }).status.done =
        true) ∧
    ((withInputs (pseudoInputs .wait ++ []) vi2).inputs = pseudoInputs .wait ++ [] ∧
      (withInputs (pseudoInputs .wait ++ []) vi2).status.done = false) := by decide

/-- A state with a given engine phase that meets the sequencer's invariant and has a next step. -/
def Lives (p : Phase) (s : State) : Prop :=
  s.st.phase = p ∧ s.SeqInv ∧ s.inputs = [] ∧ ∃ t, step s = .next t

theorem witness_SequencerControlFlow_idle : Lives .idle vi2 := by
  refine ⟨rfl, ?_, rfl, _, rfl⟩; constructor <;> first | decide | exact nofun
theorem witness_SequencerControlFlow_check : Lives .check (at' .check .enc 1 0 vi2) ∧
    (at' .check .enc 1 0 vi2).ContractOk := by
  refine ⟨⟨rfl, ?_, rfl, _, rfl⟩, by decide, by decide, by decide, by decide⟩
  constructor <;> first | decide | exact nofun
theorem witness_SequencerControlFlow_violation : Lives .check (at' .check .dec 1 0 (lengths 14 0 0)) ∧
    ¬ (at' .check .dec 1 0 (lengths 14 0 0)).ContractOk := by
  refine ⟨⟨rfl, ?_, rfl, _, rfl⟩, fun h => absurd h.2.1 (by decide)⟩
  constructor <;> first | decide | exact nofun
theorem contract_vi2 (p : Phase) (op : Op) (c j : Nat) : (at' p op c j vi2).ContractOk :=
  ⟨show 7 ≤ vi2.nonceLen by decide, show vi2.nonceLen ≤ 13 by decide,
    show vi2.mlen < 2 ^ (8 * vi2.lenSize) by decide, show vi2.alen < 2 ^ 32 by decide⟩
theorem witness_SequencerControlFlow_b0 : Lives .b0 (at' .b0 .enc 1 0 vi2) := by
  refine ⟨rfl, ?_, rfl, _, rfl⟩
  constructor <;> first | decide | exact fun _ => contract_vi2 _ _ _ _
theorem witness_SequencerControlFlow_aad : Lives .aad (at' .aad .enc 1 0 vi2) := by
  refine ⟨rfl, ?_, rfl, _, rfl⟩
  constructor <;> first | decide | exact fun _ => contract_vi2 _ _ _ _
theorem witness_SequencerControlFlow_enc : Lives .enc (at' .enc .enc 2 1 vi2) := by
  refine ⟨rfl, ?_, rfl, _, rfl⟩
  constructor <;> first | decide | exact fun _ => contract_vi2 _ _ _ _
theorem witness_SequencerControlFlow_dec1 : Lives .dec1 (at' .dec1 .dec 2 1 vi2) := by
  refine ⟨rfl, ?_, rfl, _, rfl⟩
  constructor <;> first | decide | exact fun _ => contract_vi2 _ _ _ _
theorem witness_SequencerControlFlow_final : Lives .final (at' .final .dec 3 1 vi2) := by
  refine ⟨rfl, ?_, rfl, _, rfl⟩
  constructor <;> first | decide | exact fun _ => contract_vi2 _ _ _ _
theorem witness_SequencerControlFlow_verify : Lives .verify (at' .verify .dec 3 1 vi2) ∧
    (at' .verify .dec 3 1 vi2).st.cand = (at' .verify .dec 3 1 vi2).tagReg ∧
    0 < msgBlocks (at' .verify .dec 3 1 vi2).mlen := by
  refine ⟨⟨rfl, ?_, rfl, _, rfl⟩, by decide, by decide⟩
  constructor <;> first | decide | exact fun _ => contract_vi2 _ _ _ _
theorem witness_SequencerControlFlow_dec2 : Lives .dec2 (at' .dec2 .dec 2 1 vi2) := by
  refine ⟨rfl, ?_, rfl, _, rfl⟩
  constructor <;> first | decide | exact fun _ => contract_vi2 _ _ _ _
theorem witness_SequencerControlFlow_wipe : Lives .wipe (at' .wipe .enc 3 1 vi2) := by
  refine ⟨rfl, ?_, rfl, _, rfl⟩
  constructor <;> first | decide | exact fun _ => contract_vi2 _ _ _ _

theorem witness_StepKeepsSequencerInvariant : (at' .enc .enc 2 1 vi2).SeqInv ∧
    ∃ t, step (at' .enc .enc 2 1 vi2) = .next t :=
  ⟨witness_SequencerControlFlow_enc.2.1, _, rfl⟩
theorem witness_StepKeepsMemoryCanonical : (at' .enc .enc 2 1 { vi2 with views := [vi2.mem] }).MemInv ∧
    ∃ t, step (at' .enc .enc 2 1 { vi2 with views := [vi2.mem] }) = .next t :=
  ⟨⟨by decide, by decide⟩, _, rfl⟩
/-- A DECRYPT before its verdict. -/
theorem witness_StepKeepsReleaseRule : (at' .dec1 .dec 2 1 vi2).SeqInv ∧
    (at' .dec1 .dec 2 1 vi2).ReleaseInv ∧ (at' .dec1 .dec 2 1 vi2).st.op = .dec ∧
    (at' .dec1 .dec 2 1 vi2).st.phase.beforeRelease = true ∧
    ∃ t, step (at' .dec1 .dec 2 1 vi2) = .next t :=
  ⟨witness_SequencerControlFlow_dec1.2.1, fun _ _ => nofun, rfl, rfl, _, rfl⟩
theorem witness_OnlyEncAndDec2WriteMemory : (at' .aad .enc 1 0 vi2).inputs = [] ∧
    (∃ t, step (at' .aad .enc 1 0 vi2) = .next t) ∧ (at' .aad .enc 1 0 vi2).st.phase ≠ .enc ∧
    (at' .aad .enc 1 0 vi2).st.phase ≠ .dec2 := ⟨rfl, ⟨_, rfl⟩, by decide, by decide⟩
/-- A host write while the engine is in FINAL, and the FINAL step itself. -/
theorem witness_RegistersStableWhileBusy :
    ((at' .final .enc 3 1 vi2).st.phase ≠ .idle ∧ (∃ t, step (at' .final .enc 3 1 vi2) = .next t) ∧
      ∀ rest, (at' .final .enc 3 1 vi2).inputs ≠ .reset :: rest ∧
        (at' .final .enc 3 1 vi2).inputs ≠ .resetCut :: rest) ∧
    ∃ t, step (withInputs [.access ⟨.wr, 0x50, 4, 1⟩] (at' .final .enc 3 1 vi2)) = .next t :=
  ⟨⟨by decide, ⟨_, rfl⟩, fun _ => ⟨nofun, nofun⟩⟩, _, rfl⟩
/-- Two engines that differ in nonce, tag, memory and key. -/
theorem witness_ControlIndependentOfData :
    let s := at' .enc .enc 1 1 vi2
    let t := { at' .enc .enc 1 1 vi2 with mem := [], key := 1, data := { vi2.data with nonce0 := 9, tag0 := 9 } }
    s.SameControl t ∧ s.st.phase ≠ .verify ∧ (∃ s', step s = .next s') ∧ ∃ t', step t = .next t' :=
  ⟨⟨⟨rfl, rfl⟩, rfl, rfl, rfl, rfl, rfl, rfl, rfl, rfl, rfl, rfl, rfl, rfl, rfl, rfl⟩, by decide,
    ⟨_, rfl⟩, _, rfl⟩

theorem busOk_vi2 (r : MemRequest) : vi2.busOk r = true := rfl
theorem witness_EncryptComputesCcm : vi2.st = Engine.idle ∧ vi2.inputs = [] ∧ vi2.ContractOk ∧
    (∀ j, j < aadBlocks vi2.alen → vi2.busOk (vi2.aadRequest j) = true) ∧
    (∀ i, 1 ≤ i → i ≤ msgBlocks vi2.mlen →
      vi2.busOk (vi2.readRequest i) = true ∧ vi2.busOk (vi2.writeRequest i) = true) ∧
    (∀ a, inBuffer vi2.inAddr vi2.mlen a = true → inBuffer vi2.outAddr vi2.mlen a = false) ∧
    ∃ t0, exec .encrypt vi2 = .next t0 := by
  refine ⟨rfl, rfl, contract_vi2 .idle .none 0 0, fun _ _ => busOk_vi2 _, fun _ _ _ => ⟨busOk_vi2 _, busOk_vi2 _⟩, ?_,
    _, rfl⟩
  have h1 : vi2.inAddr = 0x2000 := by decide
  have h2 : vi2.outAddr = 0x3000 := by decide
  have h3 : vi2.mlen = 18 := by decide
  intro a
  simp only [inBuffer, h1, h2, h3, decide_eq_true_eq, decide_eq_false_iff_not]
  bv_omega

/-- The in-place case of the overlap hypothesis. -/
theorem witness_EncryptComputesCcm_in_place :
    ({ vi2 with data := { vi2.data with outAddrLo := 0x2000 } } : State).outAddr =
      ({ vi2 with data := { vi2.data with outAddrLo := 0x2000 } } : State).inAddr := by decide

/-- An authentication-only DECRYPT whose supplied tag is `t`. -/
def tagged (t : Block) : State :=
  { lengths 13 0 0 with data := (lengths 13 0 0).data.withTag t }
/-- The tag the rules compute for `tagged`, whatever E is. -/
def itsTag : Block := (ccmOpen (Config.cipher 0) (lengths 13 0 0).nonce [] []).2
/-- Another tag. -/
def otherTag : Block := Vector.ofFn fun k : Fin 16 => itsTag[k] ^^^ 1
theorem tagReg_tagged (t : Block) : (tagged t).tagReg = t :=
  tagReg_of_withTag rfl

theorem witness_DecryptComputesCcm_accept : (tagged itsTag).st = Engine.idle ∧
    (tagged itsTag).inputs = [] ∧ (tagged itsTag).ContractOk ∧
    (∀ j, j < aadBlocks (tagged itsTag).alen →
      (tagged itsTag).busOk ((tagged itsTag).aadRequest j) = true) ∧
    (∀ i, 1 ≤ i → i ≤ msgBlocks (tagged itsTag).mlen →
      (tagged itsTag).busOk ((tagged itsTag).readRequest i) = true ∧
      (tagged itsTag).busOk ((tagged itsTag).writeRequest i) = true) ∧
    (tagged itsTag).outAddr = (tagged itsTag).inAddr ∧ (∃ t0, exec .decrypt (tagged itsTag) = .next t0) ∧
    ∃ P, ccmDec (Config.cipher (tagged itsTag).key) (tagged itsTag).nonce
      (Memory.readBytes (tagged itsTag).mem (tagged itsTag).aadAddr (tagged itsTag).alen)
      (Memory.readBytes (tagged itsTag).mem (tagged itsTag).inAddr (tagged itsTag).mlen)
      (tagged itsTag).tagReg = some P := by
  refine ⟨rfl, rfl, ⟨?_, ?_, ?_, ?_⟩, fun _ _ => rfl, fun _ _ _ => ⟨rfl, rfl⟩, rfl, ⟨_, rfl⟩, ?_⟩
  · show 7 ≤ (lengths 13 0 0).nonceLen; decide
  · show (lengths 13 0 0).nonceLen ≤ 13; decide
  · show (lengths 13 0 0).mlen < 2 ^ (8 * (lengths 13 0 0).lenSize); decide
  · show (lengths 13 0 0).alen < 2 ^ 32; decide
  · rw [tagReg_tagged]
    exact ⟨_, if_pos rfl⟩

theorem witness_DecryptComputesCcm_reject :
    ccmDec (Config.cipher (tagged otherTag).key) (tagged otherTag).nonce
      (Memory.readBytes (tagged otherTag).mem (tagged otherTag).aadAddr (tagged otherTag).alen)
      (Memory.readBytes (tagged otherTag).mem (tagged otherTag).inAddr (tagged otherTag).mlen)
      (tagged otherTag).tagReg = none := by
  rw [tagReg_tagged]
  refine if_neg fun h => ?_
  have h0 : itsTag[0] = itsTag[0] ^^^ (1 : Byte) :=
    (congrArg (fun b : Block => b[0]) (show itsTag = otherTag from h)).trans (by simp [otherTag])
  generalize itsTag[0] = b at h0
  revert b; decide

theorem witness_ContractViolationLeaksNothing : (lengths 13 0x10000 0).st = Engine.idle ∧
    (lengths 13 0x10000 0).inputs = [] ∧ ¬ (lengths 13 0x10000 0).ContractOk ∧
    ∃ t0, exec .decrypt (lengths 13 0x10000 0) = .next t0 :=
  ⟨rfl, rfl, fun h => absurd h.2.2.1 (by decide), _, rfl⟩
theorem witness_BusyCommandCompletes : (at' .dec1 .dec 2 1 vi2).SeqInv ∧
    (at' .dec1 .dec 2 1 vi2).st.phase ≠ .idle ∧ (at' .dec1 .dec 2 1 vi2).inputs = [] :=
  ⟨witness_SequencerControlFlow_dec1.2.1, by decide, rfl⟩
theorem witness_ByteStringsInMemory : (bytes (List.range 16)).length ≤ 16 ∧
    15 < (bytes (List.range 16)).length ∧
    inBuffer 0xFFFFFFFFFFFFFFF8 (bytes (List.range 16)).length 8 = false := by decide

end Sys2Proof.Tests
end

namespace Sys2Proof.Machine

/-! PROOFS. The family 10_state.md: register offsets (O5) and the sequencer's invariant (O44). -/

/-! ## Registers and offsets (10_state.md R22) -/

theorem Reg.offset_bound (r : Reg) : r.offset.toNat % 4 = 0 ∧ r.offset.toNat ≤ 0x54 := by
  cases r with
  | data d => cases d <;> decide
  | _ => decide

/-- No other offset finds a register: each branch of `Reg.ofOffset` names the offset it stands for. -/
theorem Reg.eq_offset_of_ofOffset {off : BitVec 8} {r : Reg} (h : Reg.ofOffset off = some r) :
    off = r.offset := by
  apply BitVec.eq_of_toNat_eq
  unfold Reg.ofOffset at h
  split at h <;> cases h <;> assumption

/-- Settles O5: a case per register one way, a case per branch of `Reg.ofOffset` the other way. -/
theorem registerOffsets : Obligations.RegisterOffsets :=
  ⟨fun r => ⟨Reg.ofOffset_offset r, Reg.offset_bound r⟩, fun _ _ => Reg.eq_offset_of_ofOffset⟩

/-! ## The sequencer's invariant (10_state.md R37, R38) -/

/-- A STATUS write only clears bits, so a DONE that is 0 stays 0. -/
theorem seqInv_statusWrite {s : State} (v : Word) (h : s.SeqInv) : (statusWrite v s).SeqInv := by
  have hkeep : s.st.phase ≠ .idle → (statusWrite v s).status.done = false := by
    intro hp
    simp [Status.clearBits, (h.no_result hp).1]
  exact { h with no_result := fun hp => ⟨hkeep hp, (h.no_result hp).2⟩ }

/-- A command starts in CHECK with fresh indices and a cleared result (40_commands.md R106). -/
theorem seqInv_startCommand {s : State} {op : Op} (hop : op ≠ .none) :
    (startCommand op s).SeqInv := by
  constructor <;> simp [hop, Phase.working, Phase.chunked]

/-- A host write keeps the invariant: a busy machine takes DROPPED and STATUS bits only, and an idle one
stays idle or starts a command. -/
theorem seqInv_hostWrite {s : State} (off : BitVec 8) (v : Word) (h : s.SeqInv) :
    (hostWrite off v s).SeqInv := by
  rcases hostWrite_cases off v s with ⟨_, e⟩ | e | ⟨hidle, hwrite⟩
  · rw [e]
    exact seqInv_congr (s := s) rfl rfl rfl rfl rfl h
  · rw [e]
    exact seqInv_statusWrite v h
  · have hst := h.wiped hidle
    rcases hwrite with e | e | ⟨op, hop, e⟩ | e | ⟨r, e⟩ <;> rw [e]
    · exact seqInv_idle hst
    · exact h
    · exact seqInv_startCommand hop
    · exact seqInv_idle hst
    · exact seqInv_idle hst

/-- Settles O44: by the kinds of step (`step_next`), each with its own lemma about the invariant. -/
theorem stepKeepsSequencerInvariant : Obligations.StepKeepsSequencerInvariant := by
  intro s t h hstep
  rcases step_next hstep with hsame | ⟨hbusy, l, rfl⟩ | ⟨l, off, v, rfl⟩ | ⟨_, hreset⟩
  · exact seqInv_congr hsame.ctrl (by rw [hsame.status]) (by rw [hsame.status]) hsame.data hsame.st h
  · exact seqInv_phaseStep (seqInv_congr (s := s) rfl rfl rfl rfl rfl h) hbusy
  · exact seqInv_hostWrite off v (seqInv_congr (s := s) rfl rfl rfl rfl rfl h)
  · exact seqInv_idle hreset.st

end Sys2Proof.Machine

namespace Sys2Proof.Machine

/-! PROOFS. The family 20_memory.md: the canonical form of memory (O46, O47), byte strings in memory (O58), the
bus errors (O30, O31), and the races of host loads and stores with the engine (O37, O59). -/

/-! ## The canonical form of memory (20_memory.md R60) -/

/-- An engine step writes memory in its canonical form and leaves the older memories alone. -/
theorem memInv_phaseStep {s : State} (h : s.MemInv) : (phaseStep s).MemInv :=
  ⟨phaseStep_memWf s h.1, by rw [(phaseStep_untouched s).views]; exact h.2⟩

theorem memInv_acquire {s : State} (h : s.MemInv) : s.acquire.MemInv :=
  ⟨h.1, List.forall_mem_nil _⟩

theorem memInv_acquireOnRead (off : BitVec 8) {s : State} (h : s.MemInv) :
    (acquireOnRead off s).MemInv := by
  rcases acquireOnRead_cases off s with e | e <;> rw [e]
  · exact memInv_acquire h
  · exact h

/-- Of all host writes only a command start touches what `MemInv` speaks of: it adds memory to the views. -/
theorem memInv_hostWrite (off : BitVec 8) (v : Word) {s : State} (h : s.MemInv) :
    (hostWrite off v s).MemInv := by
  rcases hostWrite_cases off v s with ⟨_, e⟩ | e | ⟨_, e | e | ⟨op, _, e⟩ | e | ⟨r, e⟩⟩ <;> rw [e]
  · exact h
  · exact h
  · exact h
  · exact h
  · exact ⟨h.1, List.forall_mem_cons.2 h⟩
  · exact h
  · exact h

theorem memInv_engineTurn {s t : State} (h : s.MemInv) (ht : engineTurn s = .next t) : t.MemInv := by
  rw [engineTurn_eq] at ht
  split_ifs at ht <;> cases ht
  · exact h
  · exact memInv_phaseStep (s := { s with steps := s.steps + 1 }) h

theorem memInv_accessTurn {a : HostAccess} {s t : State} (h : s.MemInv)
    (ht : accessTurn a s = .next t) : t.MemInv := by
  rcases accessTurn_next ht with rfl | ⟨off, v, rfl⟩
  · exact memInv_acquireOnRead a.offset h
  · exact memInv_hostWrite off v h

theorem memInv_pollTurn {r : Reg} {hi lo : Nat} {v : Word} {s t : State} (h : s.MemInv)
    (ht : pollTurn r hi lo v s = .next t) : t.MemInv := by
  have hread : (acquireOnRead r.offset s).MemInv := memInv_acquireOnRead r.offset h
  simp only [pollTurn, accessTurn_poll] at ht
  split_ifs at ht <;> cases ht <;> exact hread

/-- The step that a reset cuts is an engine step, and the reset itself leaves memory and the views alone. -/
theorem memInv_resetCutTurn {s t : State} (h : s.MemInv) (ht : resetCutTurn s = .next t) :
    t.MemInv := by
  obtain ⟨u, hu, e⟩ := resetCutTurn_eq s
  rw [e] at ht
  cases ht
  have hcut : u.MemInv := by
    rcases hu with rfl | rfl
    · exact h
    · exact memInv_phaseStep (s := { s with busErr := _, steps := _ }) h
  exact hcut

theorem memInv_storeTurn {a : Addr} {b : Byte} {s t : State} (h : s.MemInv)
    (ht : storeTurn a b s = .next t) : t.MemInv := by
  simp only [storeTurn] at ht
  split_ifs at ht <;> cases ht
  · exact memInv_raceStore a b h
  · exact memInv_plainStore a b h

/-- Every move keeps the canonical form, whoever makes it. -/
theorem memInv_inputTurn {x : Input} {s t : State} (h : s.MemInv) (ht : inputTurn x s = .next t) :
    t.MemInv := by
  cases x with
  | engine => exact memInv_engineTurn h ht
  | access a => exact memInv_accessTurn h ht
  | poll r hi lo v => exact memInv_pollTurn h ht
  | reset => cases ht; exact h
  | resetCut => exact memInv_resetCutTurn h ht
  | store a b => exact memInv_storeTurn h ht
  | load a =>
    obtain ⟨c, n, e, _⟩ := loadTurn_admits a s
    cases e.symm.trans ht
    exact h
  | sampleIrq =>
    simp only [inputTurn, sampleTurn] at ht
    split_ifs at ht <;> cases ht
    · exact memInv_acquire h
    · exact h
  | rekey k =>
    simp only [inputTurn, rekeyTurn] at ht
    split_ifs at ht
    cases ht
    exact h
  | answer errs => cases ht; exact h

/-- Settles O46: a step is the engine's turn or the turn of the first move listed, and each keeps `MemInv`. -/
theorem stepKeepsMemoryCanonical : Obligations.StepKeepsMemoryCanonical := by
  intro s t h hstep
  cases hi : s.inputs with
  | nil =>
    rw [step_nil hi] at hstep
    exact memInv_engineTurn h hstep
  | cons x rest =>
    rw [step_cons hi] at hstep
    exact memInv_inputTurn (s := { s with inputs := rest }) h hstep

/-- Settles O47: memory lists nothing after reset, and there is no older memory. -/
theorem resetMemoryCanonical : Obligations.ResetMemoryCanonical :=
  ⟨Memory.wf_nil, List.forall_mem_nil _⟩

/-! ## Byte strings (20_memory.md R62, R65, R67) -/

/-- Byte k of a written string, read off the string that reads back. -/
theorem Memory.byte_writeBytes_inside (m : Memory) (a : Addr) (w : List Byte)
    (hl : w.length ≤ 2 ^ 64) (k : Nat) (h : k < w.length) :
    Memory.byte (Memory.writeBytes m a w) (a + BitVec.ofNat 64 k) = w[k] := by
  rw [← Memory.getElem_readBytes _ a w.length k (by simpa using h)]
  simp only [Memory.readBytes_writeBytes m a w hl]

/-- Settles O58: the string reads back, and a byte outside it is none of the bytes written. -/
theorem byteStringsInMemory : Obligations.ByteStringsInMemory := by
  intro m a w hw
  have hl : w.length ≤ 2 ^ 64 := by omega
  refine ⟨Memory.byte_writeBytes_inside m a w hl, fun x hx => ?_,
    Memory.readBytes_writeBytes m a w hl⟩
  have hout : w.length ≤ (x - a).toNat := by simpa [inBuffer] using hx
  exact Memory.byte_writeBytes_outside hl hout

/-! ## Bus errors (20_memory.md R69, 60_exceptions.md R231) -/

/-- Settles O30: the equation of each reading step at a failed read. -/
theorem failedReadRaisesBusError : Obligations.FailedReadRaisesBusError := by
  intro s
  refine ⟨fun h => congrArg Host.Outcome.next (stepAad_readError _ h), fun h i hi => ?_⟩
  rcases hi with rfl | rfl | rfl
  · exact congrArg Host.Outcome.next (stepEnc_readError _ _ h)
  · exact congrArg Host.Outcome.next (stepDec1_readError _ h)
  · exact congrArg Host.Outcome.next (stepDec2_readError _ _ h)

/-- Settles O31: the equation of ENC and of DEC2 at a failed write gives the next state; its memory is that of
`wroteSome_mem`, its other fields are read off. -/
theorem failedWriteLandsAnySubset : Obligations.FailedWriteLandsAnySubset := by
  intro s i hi hread hwrite
  rcases hi with rfl | rfl
  · obtain ⟨houtside, hbyte⟩ := wroteSome_mem (Config.cipher s.key) Config.freeSubset s
      (encReady (Config.cipher s.key) s)
    exact ⟨_, congrArg Host.Outcome.next (stepEnc_writeError _ _ hread hwrite), rfl, rfl, rfl, rfl, rfl,
      rfl, rfl, rfl, rfl, rfl, rfl, fun _ => ⟨rfl, rfl, rfl⟩, nofun, rfl, rfl, rfl, rfl, rfl, rfl, rfl,
      rfl, rfl, houtside, hbyte⟩
  · obtain ⟨houtside, hbyte⟩ := wroteSome_mem (Config.cipher s.key) Config.freeSubset s
      (dec2Ready (Config.cipher s.key) s)
    exact ⟨_, congrArg Host.Outcome.next (stepDec2_writeError _ _ hread hwrite), rfl, rfl, rfl, rfl, rfl,
      rfl, rfl, rfl, rfl, rfl, rfl, nofun, fun _ => ⟨rfl, rfl, rfl⟩, rfl, rfl, rfl, rfl, rfl, rfl, rfl,
      rfl, rfl, houtside, hbyte⟩

/-! ## Races with the engine (20_memory.md R71, R72, R74) -/

/-- A racing store lands, or leaves the byte to the engine: the byte at its address and the moves to come. -/
theorem raceStore_byte (a : Addr) (b : Byte) (s : State) :
    Memory.byte (raceStore a b s).mem a = b ∧ (raceStore a b s).inputs = s.inputs ∨
      Memory.byte (raceStore a b s).mem a = Memory.byte s.mem a ∧
        (s.engineWrote a = true ∧ (raceStore a b s).inputs = s.inputs ∨
          s.engineWrote a = false ∧ (raceStore a b s).inputs = putOff (.store a b) s.inputs) := by
  rcases raceStore_cases a b s with e | ⟨hw, e⟩ | ⟨hw, e⟩ <;> rw [e]
  · exact .inl ⟨by rw [Memory.byte_write, if_pos rfl], rfl⟩
  · exact .inr ⟨rfl, .inl ⟨hw, rfl⟩⟩
  · exact .inr ⟨rfl, .inr ⟨hw, rfl⟩⟩

theorem raceStore_byte_of_ne {a x : Addr} (b : Byte) (s : State) (hx : x ≠ a) :
    Memory.byte (raceStore a b s).mem x = Memory.byte s.mem x := by
  rcases raceStore_cases a b s with e | ⟨_, e⟩ | ⟨_, e⟩ <;> rw [e]
  rw [Memory.byte_write, if_neg hx]

theorem storeTurn_output {a : Addr} {b : Byte} {s : State} (hb : s.busy = true)
    (haad : inBuffer s.aadAddr s.alen a = false) (hin : inBuffer s.inAddr s.mlen a = false)
    (hout : inBuffer s.outAddr s.mlen a = true) : storeTurn a b s = .next (raceStore a b s) := by
  rw [storeTurn, if_neg (by simp [haad, hin]), if_pos ⟨hb, hout⟩]

/-- Settles O59: such a store is `raceStore`, whose memory, moves and admitted bytes have a lemma each. -/
theorem outputStoreRaces : Obligations.OutputStoreRaces := by
  intro s rest a b hi hb haad hin hout
  let u : State := { s with inputs := rest }
  have hstep : step s = .next (raceStore a b u) := by
    rw [step_cons hi]
    exact storeTurn_output (s := u) hb haad hin hout
  exact ⟨_, _, _, hstep, raceStore_byte a b u, fun _ => raceStore_byte_of_ne b u,
    admits_raceStore a b u⟩

/-- In an idle machine both commands are a command start (40_commands.md R106, R107). -/
theorem exec_eq_startCommand {s : State} (hp : s.st.phase = .idle) {i : Instr}
    (hi : i = .encrypt ∨ i = .decrypt) : ∃ op, exec i s = .next (startCommand op s) := by
  rcases hi with rfl | rfl
  · exact ⟨.enc, congrArg Host.Outcome.next (hostWrite_idle .cmd 1 hp)⟩
  · exact ⟨.dec, congrArg Host.Outcome.next (hostWrite_idle .cmd 2 hp)⟩

/-- The engine's turn drops no byte that a load may return from an older memory. -/
theorem admits_engineTurn {s t : State} (ht : engineTurn s = .next t) {a : Addr} {v : Memory}
    (hv : v ∈ s.views) : t.Admits a (Memory.byte v a) := by
  rw [engineTurn_eq] at ht
  split_ifs at ht <;> cases ht
  · exact .inr ⟨v, hv, rfl⟩
  · exact admits_phaseStep { s with steps := s.steps + 1 } hv

/-- DONE = 1 with any RESULT but ILLEGAL_COMMAND is the DONE of a command (log 10). -/
theorem commandDone_of_done {s : State} (hd : s.status.done = true)
    (hr : s.status.result ≠ .illegalCommand) : s.commandDone = true := by
  simp [State.commandDone, hd, hr]

/-- A STATUS read that shows such a DONE is an acquire (20_memory.md R71). -/
theorem exec_rd_status_acquires {s : State} (h : s.commandDone = true) :
    exec (.rd 0x08) s = .next { s.acquire with rdata := hostRead 0x08 s } := by
  simp [exec, execRd, aligned, acquireOnRead, h]

/-- With no older memory left, a load of any address returns memory's byte. -/
theorem step_load_of_views {t : State} (h : t.views = []) (a : Addr) (rest : List Input) :
    ∃ u, step { t with inputs := .load a :: rest } = .next u ∧ u.hostByte = Memory.byte t.mem a :=
  ⟨_, loadTurn_settled (s := { t with inputs := rest }) (settled_of_views h a), rfl⟩

/-- Settles O37, a clause per lemma: loads, command starts, engine turns and the two acquires. -/
theorem hostLoadsRaceUntilAcquire : Obligations.HostLoadsRaceUntilAcquire := by
  intro s
  refine ⟨fun a rest hi => ?_, fun hp i hi => ?_, fun hi t ht a v hv => ?_, fun hd hr => ?_,
    fun hq hr rest hi => ?_⟩
  · rw [step_cons hi]
    exact loadTurn_admits a { s with inputs := rest }
  · obtain ⟨op, e⟩ := exec_eq_startCommand hp hi
    exact ⟨_, e, List.mem_cons_self, fun v => List.mem_cons_of_mem _⟩
  · rw [step_nil hi] at ht
    exact admits_engineTurn ht hv
  · exact ⟨_, exec_rd_status_acquires (commandDone_of_done hd hr), fun _ _ =>
      step_load_of_views rfl _ _⟩
  · have hdone : s.status.done = true := (Bool.and_eq_true_iff.1 hq).1
    have hsample : step s = .next ({ s with inputs := rest } : State).acquire := by
      rw [step_cons hi]
      exact congrArg Host.Outcome.next (if_pos ⟨hq, commandDone_of_done hdone hr⟩)
    exact ⟨_, hsample, fun _ _ => step_load_of_views rfl _ _⟩

end Sys2Proof.Machine

namespace Sys2Proof.Machine

/-! PROOFS. The family 30_encoding.md: the decoder and the encoder (O1, O2, O3, O4), the block formats (O6, O7,
O8), host accesses and idle turns (O18, O39, O40), and the pseudo-instructions (O42, O43). -/

/-! ## Decoding an access (30_encoding.md R80, R93) -/

theorem aligned_iff (off : BitVec 8) : aligned off = true ↔ off.toNat % 4 = 0 := by
  simp [aligned]

theorem aligned_eq_false_iff (off : BitVec 8) : aligned off = false ↔ off.toNat % 4 ≠ 0 := by
  simp [aligned]

theorem decode_subWord {a : HostAccess} (busy : Bool) (hn : a.bytes ≠ 4) :
    decode busy (.access a) = .reject .subWord :=
  if_pos hn

theorem decode_misaligned {a : HostAccess} (busy : Bool) (hn : a.bytes = 4)
    (ha : aligned a.offset = false) : decode busy (.access a) = .reject .misaligned := by
  simp [decode, decodeAccess, hn, ha]

theorem decode_rd {off : BitVec 8} (busy : Bool) (v : Word) (ha : aligned off = true) :
    decode busy (.access ⟨.rd, off, 4, v⟩) = .instr (.rd off) := by
  simp [decode, decodeAccess, ha]

/-- The order in which the rows of a write are tried (R93). -/
theorem decode_wr {off : BitVec 8} (busy : Bool) (v : Word) (ha : aligned off = true) :
    decode busy (.access ⟨.wr, off, 4, v⟩) =
      if off = 0x08 then .instr (.wrStatus v)
      else if busy then .instr (.wrBusy off v)
      else if off = 0x04 then .instr (decodeCmd v) else .instr (.wr off v) := by
  simp only [decode, decodeAccess, ha, ne_eq, not_true_eq_false, if_false, Bool.not_true,
    Bool.false_eq_true]

theorem decode_wr_status (busy : Bool) (v : Word) :
    decode busy (.access ⟨.wr, 0x08, 4, v⟩) = .instr (.wrStatus v) := by
  rw [decode_wr busy v rfl, if_pos rfl]

theorem decode_wr_busy {off : BitVec 8} (v : Word) (ha : aligned off = true) (h8 : off ≠ 0x08) :
    decode true (.access ⟨.wr, off, 4, v⟩) = .instr (.wrBusy off v) := by
  rw [decode_wr true v ha, if_neg h8, if_pos rfl]

theorem decode_wr_cmd (v : Word) :
    decode false (.access ⟨.wr, 0x04, 4, v⟩) = .instr (decodeCmd v) := by
  rw [decode_wr false v rfl, if_neg (by decide), if_neg Bool.false_ne_true, if_pos rfl]

theorem decode_wr_idle {off : BitVec 8} (v : Word) (ha : aligned off = true) (h4 : off ≠ 0x04)
    (h8 : off ≠ 0x08) : decode false (.access ⟨.wr, off, 4, v⟩) = .instr (.wr off v) := by
  rw [decode_wr false v ha, if_neg h8, if_neg Bool.false_ne_true, if_neg h4]

/-! ## What the rows ask of their operands (30_encoding.md R81, R93) -/

theorem wf_wr_iff (off : BitVec 8) (v : Word) :
    (Instr.wr off v).wf = true ↔ aligned off = true ∧ off ≠ 0x04 ∧ off ≠ 0x08 := by
  simp only [Instr.wf, Bool.and_eq_true, bne_iff_ne, and_assoc]

theorem wf_wrBusy_iff (off : BitVec 8) (v : Word) :
    (Instr.wrBusy off v).wf = true ↔ aligned off = true ∧ off ≠ 0x08 := by
  simp only [Instr.wf, Bool.and_eq_true, bne_iff_ne]

theorem wf_illegal_iff (code : Word) :
    (Instr.illegal code).wf = true ↔ code ≠ 0 ∧ code ≠ 1 ∧ code ≠ 2 := by
  simp only [Instr.wf, Bool.and_eq_true, bne_iff_ne, and_assoc]

/-- ILLEGAL is tried last, so it is what every code but 0, 1 and 2 decodes to (R81). -/
theorem decodeCmd_illegal {code : Word} (h0 : code ≠ 0) (h1 : code ≠ 1) (h2 : code ≠ 2) :
    decodeCmd code = .illegal code := by
  rw [decodeCmd, if_neg h0, if_neg h1, if_neg h2]

/-- A CMD value decodes to a well-formed command of an idle machine whose encoding is the write of that
value. -/
theorem decodeCmd_encodes (v : Word) :
    (decodeCmd v).wf = true ∧ (decodeCmd v).admitsBusy false = true ∧
      encode (decodeCmd v) = .access ⟨.wr, 0x04, 4, v⟩ := by
  by_cases h0 : v = 0
  · subst h0; exact ⟨rfl, rfl, rfl⟩
  by_cases h1 : v = 1
  · subst h1; exact ⟨rfl, rfl, rfl⟩
  by_cases h2 : v = 2
  · subst h2; exact ⟨rfl, rfl, rfl⟩
  rw [decodeCmd_illegal h0 h1 h2]
  exact ⟨(wf_illegal_iff v).2 ⟨h0, h1, h2⟩, rfl, rfl⟩

/-- Every whole, aligned access decodes to a well-formed instruction that matches BUSY and encodes back to
it; the data of a read is no part of the encoding. -/
theorem decode_access_encodes (busy : Bool) {a : HostAccess} (hn : a.bytes = 4)
    (ha : aligned a.offset = true) :
    ∃ i, decode busy (.access a) = .instr i ∧ i.wf = true ∧ i.admitsBusy busy = true ∧
      encode i = .access { a with data := if a.kind = .rd then 0 else a.data } := by
  obtain ⟨kind, off, n, v⟩ := a
  subst hn
  cases kind with
  | rd => exact ⟨_, decode_rd busy v ha, ha, rfl, rfl⟩
  | wr =>
    by_cases h8 : off = 0x08
    · subst h8
      exact ⟨_, decode_wr_status busy v, rfl, rfl, rfl⟩
    cases busy with
    | true => exact ⟨_, decode_wr_busy v ha h8, (wf_wrBusy_iff _ _).2 ⟨ha, h8⟩, rfl, rfl⟩
    | false =>
      by_cases h4 : off = 0x04
      · subst h4
        exact ⟨_, decode_wr_cmd v, decodeCmd_encodes v⟩
      · exact ⟨_, decode_wr_idle v ha h4 h8, (wf_wr_iff _ _).2 ⟨ha, h4, h8⟩, rfl, rfl⟩

/-- Every access: the two rejections, or an instruction that encodes it. -/
theorem decode_access_cases (busy : Bool) (a : HostAccess) :
    (a.bytes ≠ 4 ∧ decode busy (.access a) = .reject .subWord) ∨
    (a.bytes = 4 ∧ a.offset.toNat % 4 ≠ 0 ∧ decode busy (.access a) = .reject .misaligned) ∨
    (a.bytes = 4 ∧ a.offset.toNat % 4 = 0 ∧ ∃ i, decode busy (.access a) = .instr i ∧
      i.wf = true ∧ i.admitsBusy busy = true ∧
      encode i = .access { a with data := if a.kind = .rd then 0 else a.data }) := by
  by_cases hn : a.bytes = 4
  · cases ha : aligned a.offset with
    | false => exact .inr (.inl ⟨hn, (aligned_eq_false_iff _).1 ha, decode_misaligned busy hn ha⟩)
    | true => exact .inr (.inr ⟨hn, (aligned_iff _).1 ha, decode_access_encodes busy hn ha⟩)
  · exact .inl ⟨hn, decode_subWord busy hn⟩

/-! ## Decoding a phase code (30_encoding.md R83) -/

theorem decode_phase (busy : Bool) (c : BitVec 4) : decode busy (.phase c) = decodePhase c := rfl

theorem decodePhase_reserved :
    ∀ c : BitVec 4, 10 ≤ c.toNat → decodePhase c = .reject .reservedPhase := by
  decide

/-- Codes 1 to 9 are the phase steps, each encoded by its code. -/
theorem decodePhase_encodes {c : BitVec 4} (h1 : 1 ≤ c.toNat) (h9 : c.toNat ≤ 9) :
    ∃ i, decodePhase c = .instr i ∧ i.wf = true ∧ encode i = .phase c := by
  obtain ⟨n, hn, rfl⟩ : ∃ n, n < 2 ^ 4 ∧ c = BitVec.ofNat 4 n := ⟨c.toNat, c.isLt, by simp⟩
  rw [BitVec.toNat_ofNat, Nat.mod_eq_of_lt hn] at h1 h9
  interval_cases n <;> exact ⟨_, rfl, rfl, rfl⟩

/-- Every 4-bit code: IDLE, a reserved code, or the code of a phase step. -/
theorem decodePhase_cases (c : BitVec 4) :
    (c = 0 ∧ decodePhase c = .reject .idlePhase) ∨
    (10 ≤ c.toNat ∧ decodePhase c = .reject .reservedPhase) ∨
    (1 ≤ c.toNat ∧ c.toNat ≤ 9 ∧ ∃ i, decodePhase c = .instr i ∧ i.wf = true ∧
      encode i = .phase c) := by
  by_cases h10 : 10 ≤ c.toNat
  · exact .inr (.inl ⟨h10, decodePhase_reserved c h10⟩)
  by_cases h0 : c = 0
  · subst h0
    exact .inl ⟨rfl, rfl⟩
  have h1 : 1 ≤ c.toNat := by bv_omega
  have h9 : c.toNat ≤ 9 := by omega
  exact .inr (.inr ⟨h1, h9, decodePhase_encodes h1 h9⟩)

/-! ## The decoder and the encoder agree (30_encoding.md R80 to R93) -/

/-- Settles O1: a case per row of the table, each by the equation of the decoder for its encoding. -/
theorem decodeOfEncode : Obligations.DecodeOfEncode := by
  intro i busy hwf hbusy
  cases i with
  | rd off => exact decode_rd busy 0 hwf
  | wr off v =>
    obtain rfl : busy = false := by simpa [Instr.admitsBusy] using hbusy
    obtain ⟨ha, h4, h8⟩ := (wf_wr_iff off v).1 hwf
    exact decode_wr_idle v ha h4 h8
  | wrBusy off v =>
    obtain rfl : busy = true := hbusy
    obtain ⟨ha, h8⟩ := (wf_wrBusy_iff off v).1 hwf
    exact decode_wr_busy v ha h8
  | wrStatus v => exact decode_wr_status busy v
  | illegal code =>
    obtain rfl : busy = false := by simpa [Instr.admitsBusy] using hbusy
    obtain ⟨h0, h1, h2⟩ := (wf_illegal_iff code).1 hwf
    exact (decode_wr_cmd code).trans (congrArg _ (decodeCmd_illegal h0 h1 h2))
  | nop | encrypt | decrypt =>
    obtain rfl : busy = false := by simpa [Instr.admitsBusy] using hbusy
    exact decode_wr_cmd _
  | _ => rfl

/-- Settles O2, by the cases of an access and of a phase code. -/
theorem encodeOfDecode : Obligations.EncodeOfDecode := by
  refine ⟨fun busy a i h => ?_, fun busy c i h => ?_⟩
  · rcases decode_access_cases busy a with ⟨_, e⟩ | ⟨_, _, e⟩ | ⟨_, _, j, e, henc⟩ <;>
      cases e.symm.trans h
    exact henc
  · rw [decode_phase] at h
    rcases decodePhase_cases c with ⟨_, e⟩ | ⟨_, e⟩ | ⟨_, _, j, e, henc⟩ <;> cases e.symm.trans h
    exact henc

/-- Settles O3, by the same cases, which exclude each other. -/
theorem rejectedEncodings : Obligations.RejectedEncodings := by
  refine ⟨fun busy a => ?_, fun busy c => ?_⟩
  · rcases decode_access_cases busy a with ⟨hn, e⟩ | ⟨hn, ha, e⟩ | ⟨hn, ha, i, e, _⟩ <;> rw [e]
    · simp [hn]
    · simp [hn, ha]
    · simp [hn, ha]
  · rw [decode_phase]
    rcases decodePhase_cases c with ⟨h0, e⟩ | ⟨h10, e⟩ | ⟨h1, h9, i, e, _⟩ <;> rw [e]
    · simp [h0]
    · have h0 : c ≠ 0 := by bv_omega
      exact ⟨iff_of_false nofun h0, iff_of_true rfl h10, iff_of_false (by simp) (by omega)⟩
    · have h0 : c ≠ 0 := by bv_omega
      exact ⟨iff_of_false nofun h0, iff_of_false nofun (by omega), iff_of_true ⟨i, rfl⟩ ⟨h1, h9⟩⟩

/-- Settles O4: the equations of the decoder at the words written out. -/
theorem tableWordsDecode : Obligations.TableWordsDecode :=
  ⟨decode_rd _ _ rfl, decode_wr_idle _ rfl (by decide) (by decide), decode_wr_busy _ rfl (by decide),
    decode_wr_status _ _, rfl, rfl, rfl, rfl, rfl, rfl, rfl, rfl⟩

/-! ## Block formats (30_encoding.md R85 to R88) -/

/-- A block made of one byte, a nonce and the big-endian value that fills the rest: its bytes. -/
theorem block_bytes {B : Block} {f : Byte} {nonce : List Byte} {v : Nat}
    (hl : nonce.length ≤ 15) (hB : B = pad16 ([f] ++ nonce ++ be v (15 - nonce.length))) :
    B[0] = f ∧ (B.toList.drop 1).take nonce.length = nonce ∧
      B.toList.drop (1 + nonce.length) = be v (15 - nonce.length) := by
  have hlist : B.toList = [f] ++ nonce ++ be v (15 - nonce.length) := by
    rw [hB]
    exact toList_pad16 (by simp; omega)
  refine ⟨by simp [hB], by simp [hlist], ?_⟩
  rw [hlist]
  exact List.drop_left' (by simp; omega)

/-- Settles O6: the bytes of such a block, with the flags byte and mlen. -/
theorem b0BlockBytes : Obligations.B0BlockBytes := by
  intro nonce adata mlen h7 h13 hm
  obtain ⟨hflags, hnonce, hrest⟩ := block_bytes (B := b0Block nonce adata mlen) (by omega) rfl
  refine ⟨?_, hnonce, by rw [hrest, value_be _ _ hm]⟩
  have hadata : adata.toNat ≤ 1 := Bool.toNat_le adata
  rw [hflags, BitVec.toNat_ofNat]
  omega

/-- The bytes of Ctr_i (30_encoding.md R86). -/
theorem ctrBlock_bytes {nonce : List Byte} {i : Nat} (h13 : nonce.length ≤ 13)
    (hi : i < 2 ^ (8 * (15 - nonce.length))) :
    (ctrBlock nonce i)[0].toNat = 15 - nonce.length - 1 ∧
      ((ctrBlock nonce i).toList.drop 1).take nonce.length = nonce ∧
      ((ctrBlock nonce i).toList.drop (1 + nonce.length)).foldl
        (fun n b => 256 * n + b.toNat) 0 = i := by
  obtain ⟨hlen, hnonce, hrest⟩ := block_bytes (B := ctrBlock nonce i) (by omega) rfl
  refine ⟨?_, hnonce, by rw [hrest, value_be _ _ hi]⟩
  rw [hlen, BitVec.toNat_ofNat]
  omega

/-- Settles O7: a counter is read off its block, so equal blocks have equal counters. -/
theorem ctrBlockBytes : Obligations.CtrBlockBytes := by
  intro nonce _ h13
  refine ⟨fun i => ctrBlock_bytes h13, fun i j hi hj hij => ?_⟩
  obtain ⟨_, _, hvi⟩ := ctrBlock_bytes h13 hi
  obtain ⟨_, _, hvj⟩ := ctrBlock_bytes h13 hj
  rw [← hvi, ← hvj, hij]

theorem aadPrefix_short {alen : Nat} (h : alen < 0xFF00) : aadPrefix alen = be alen 2 :=
  if_pos h

theorem aadPrefix_long {alen : Nat} (h : 0xFF00 ≤ alen) :
    aadPrefix alen = [0xFF, 0xFE] ++ be alen 4 :=
  if_neg (Nat.not_lt.2 h)

theorem prefixLen_short {alen : Nat} (h0 : 0 < alen) (h : alen < 0xFF00) : prefixLen alen = 2 := by
  simp [prefixLen, h, Nat.ne_of_gt h0]

theorem prefixLen_long {alen : Nat} (h : 0xFF00 ≤ alen) : prefixLen alen = 6 := by
  rw [prefixLen, if_neg (by omega), if_neg (by omega)]

/-- Settles O8: one form below 0xFF00 and the other from there on; FF FE reads as 0xFFFE. -/
theorem aadPrefixForms : Obligations.AadPrefixForms := by
  intro alen h0 h32
  rcases Nat.lt_or_ge alen 0xFF00 with h | h
  · have hvalue := value_be 2 alen (by omega)
    have htake : (be alen 2).take 2 = be alen 2 := List.take_of_length_le (by simp)
    rw [aadPrefix_short h, prefixLen_short h0 h, htake, hvalue]
    exact ⟨length_be _ _, fun _ => ⟨rfl, rfl⟩, fun h' => absurd h (Nat.not_lt.2 h'), Iff.rfl⟩
  · have hvalue := value_be 4 alen (by omega)
    rw [aadPrefix_long h, prefixLen_long h]
    exact ⟨by simp, fun h' => absurd h' (Nat.not_lt.2 h), fun _ => ⟨rfl, rfl, hvalue⟩,
      iff_of_false (Nat.not_lt.2 h) (show ¬ 0xFFFE < 0xFF00 by decide)⟩

/-! ## Host accesses and the idle engine (30_encoding.md R80, R83, R93) -/

theorem step_access {s : State} {a : HostAccess} {rest : List Input}
    (h : s.inputs = .access a :: rest) : step s = accessTurn a { s with inputs := rest } :=
  step_cons h

theorem accessTurn_of_decode {s : State} {a : HostAccess} {i : Instr}
    (h : decode s.busy (.access a) = .instr i) : accessTurn a s = exec i s := by
  simp only [accessTurn, h]

theorem accessTurn_subWord {s : State} {a : HostAccess} (hn : a.bytes ≠ 4) :
    accessTurn a s = .refused .subWordAccess := by
  simp only [accessTurn, decode_subWord _ hn]

theorem accessTurn_misaligned {s : State} {a : HostAccess} (hn : a.bytes = 4)
    (ha : aligned a.offset = false) : accessTurn a s = .refused .misalignedAccess := by
  simp only [accessTurn, decode_misaligned _ hn ha]

/-- The three access rows that carry an offset refuse a misaligned one. -/
theorem exec_misaligned {off : BitVec 8} (v : Word) (s : State) (ha : aligned off = false) :
    exec (.rd off) s = .refused .misalignedAccess ∧
      exec (.wr off v) s = .refused .misalignedAccess ∧
      exec (.wrBusy off v) s = .refused .misalignedAccess := by
  have hno : ¬ aligned off = true := by simp [ha]
  exact ⟨if_neg hno, if_neg hno, if_neg hno⟩

/-- Settles O18: the two refusals of an access, and those of the rows with an offset. -/
theorem accessesOutsideRefused : Obligations.AccessesOutsideRefused := by
  intro a s rest hi
  rw [step_access hi]
  refine ⟨accessTurn_subWord, fun hn hoff => ?_⟩
  have ha : aligned a.offset = false := (aligned_eq_false_iff _).2 hoff
  exact ⟨accessTurn_misaligned hn ha, exec_misaligned a.data s ha⟩

/-- Settles O39: BUSY does not depend on the moves listed. -/
theorem stepRunsAccess : Obligations.StepRunsAccess := by
  intro s a rest i hi hd
  rw [step_access hi]
  exact accessTurn_of_decode hd

theorem engineTurn_idle {s : State} (hp : s.st.phase = .idle) : engineTurn s = .next s := by
  rw [engineTurn_eq, if_pos hp]

/-- Settles O40: the engine's turn in IDLE changes nothing. -/
theorem idleEngineTakesNoStep : Obligations.IdleEngineTakesNoStep := by
  intro s hp
  refine ⟨fun hi => (step_nil hi).trans (engineTurn_idle hp), fun rest hi => ?_⟩
  rw [step_cons hi]
  exact engineTurn_idle (s := { s with inputs := rest }) hp

/-! ## Polling STATUS.DONE (30_encoding.md R90) -/

theorem hostRead_status (s : State) : hostRead Reg.status.offset s = s.statusWord := rfl

theorem hostRead_data (r : DataReg) (s : State) : hostRead (Reg.data r).offset s = s.data.get r := by
  simp only [hostRead, Reg.ofOffset_offset]

theorem fieldOf_bit (k : Nat) (w : Word) :
    fieldOf k k w = (BitVec.ofBool (w.getLsbD k)).setWidth 32 := by
  ext i hi
  by_cases h : i = 0
  · subst h
    simp [fieldOf]
  · simp [fieldOf, h]

/-- DONE is bit 1 of STATUS (10_state.md R26). -/
theorem statusWord_done (s : State) : s.statusWord.getLsbD 1 = s.status.done := by
  simp [State.statusWord]

theorem fieldOf_statusWord_done (s : State) :
    fieldOf 1 1 s.statusWord = 1 ↔ s.status.done = true := by
  rw [fieldOf_bit, statusWord_done]
  cases s.status.done <;> decide

/-- A read touches neither the engine nor STATUS, nor the moves to come. -/
theorem acquireOnRead_frame (off : BitVec 8) (s : State) :
    (acquireOnRead off s).st = s.st ∧ (acquireOnRead off s).status = s.status ∧
      (acquireOnRead off s).inputs = s.inputs := by
  rcases acquireOnRead_cases off s with e | e <;> rw [e] <;> exact ⟨rfl, rfl, rfl⟩

/-- One read of a poll of DONE: it ends the poll, or puts an engine move and the poll back. -/
theorem pollTurn_done (s : State) :
    ∃ t, pollTurn .status 1 1 1 s = .next t ∧ t.st = s.st ∧ t.status = s.status ∧
      t.inputs = if s.status.done then s.inputs else .engine :: .poll .status 1 1 1 :: s.inputs := by
  obtain ⟨hst, hstatus, hinputs⟩ := acquireOnRead_frame Reg.status.offset s
  simp only [pollTurn, accessTurn_poll, hostRead_status, fieldOf_statusWord_done]
  split_ifs
  · exact ⟨_, rfl, hst, hstatus, hinputs⟩
  · exact ⟨_, rfl, hst, hstatus, by rw [hinputs]⟩

/-- Settles O43: `wait` is that poll. -/
theorem waitPollsDone : Obligations.WaitPollsDone := by
  intro s rest hi
  have hi' : s.inputs = .poll .status 1 1 1 :: rest := hi
  obtain ⟨t, hstep, hst, hstatus, hinputs⟩ := pollTurn_done { s with inputs := rest }
  rw [step_cons hi']
  refine ⟨fun hd => ⟨t, hstep, ?_, hst, hstatus⟩, fun hd => ⟨t, hstep, ?_, hst, hstatus⟩⟩
  · simpa [hd] using hinputs
  · simpa [hd, hi'] using hinputs

/-! ## The other pseudo-instructions (30_encoding.md R91) -/

/-- The move that `wr NAME, v` makes, for a data register. -/
def writeMove (w : DataReg × Word) : Input := .access (HostLine.wr (.data w.1) w.2).encode

/-- The move that `rd NAME` makes, for a data register. -/
def readMove (r : DataReg) : Input := .access (HostLine.rd (.data r)).encode

/-- The data registers after writes in the order listed. -/
def DataRegs.setAll (d : DataRegs) (ws : List (DataReg × Word)) : DataRegs :=
  ws.foldl (fun d w => d.set w.1 w.2) d

/-- Writes of data registers, listed to an idle machine, are made in order. -/
theorem run_writes (ws : List (DataReg × Word)) : ∀ s : State, s.st.phase = .idle →
    Host.Core.run core ws.length { s with inputs := ws.map writeMove } =
      .next { s with inputs := [], data := s.data.setAll ws } := by
  induction ws with
  | nil => exact fun s _ => rfl
  | cons w ws ih =>
    intro s hp
    have hstep := step_writeData { s with inputs := (w :: ws).map writeMove } w.1 w.2
      (ws.map writeMove) rfl hp
    rw [List.length_cons, run_succ hstep]
    exact ih { s with data := s.data.set w.1 w.2 } hp

/-- A read of a data register: the word goes to the host and the move is off the list. -/
theorem step_readData (s : State) (r : DataReg) (rest : List Input)
    (hi : s.inputs = readMove r :: rest) :
    step s = .next { s with inputs := rest, rdata := s.data.get r } := by
  have hoff : (Reg.data r).offset ≠ 0x08 := by cases r <;> decide
  rw [step_read s (.data r) rest hi, hostRead_data, acquireOnRead, if_neg (fun h => hoff h.1)]

/-- After k + 1 of the reads listed, the host holds the word of register k of the list. -/
theorem run_reads (k : Nat) : ∀ (rs : List DataReg) (hk : k < rs.length) (s : State),
    Host.Core.run core (k + 1) { s with inputs := rs.map readMove } =
      .next { s with inputs := (rs.drop (k + 1)).map readMove, rdata := s.data.get rs[k] } := by
  induction k with
  | zero =>
    rintro (_ | ⟨r, rs⟩) hk s
    · cases hk
    · exact run_succ (step_readData _ r (rs.map readMove) rfl) 0
  | succ k ih =>
    rintro (_ | ⟨r, rs⟩) hk s
    · cases hk
    · rw [run_succ (step_readData _ r (rs.map readMove) rfl)]
      exact ih rs (Nat.lt_of_succ_lt_succ hk) { s with rdata := s.data.get r }

/-- Writing both halves of a 64-bit value to a pair leaves the value there (10_state.md R29 to R33). -/
theorem hiLo_halves (v : BitVec 64) : hiLo (v.extractLsb' 32 32) (v.extractLsb' 0 32) = v := by
  refine BitVec.eq_of_getLsbD_eq fun i hi => ?_
  simp only [hiLo, BitVec.getLsbD_cast, BitVec.getLsbD_append, BitVec.getLsbD_extractLsb']
  split_ifs with h
  · simp [h]
  · simp [show i - 32 < 32 by omega, show 32 + (i - 32) = i by omega]

theorem lo_ne_hi (x : Pair) : x.lo ≠ x.hi := by
  cases x <;> decide

theorem run_wr64 (s : State) (hp : s.st.phase = .idle) (x : Pair) (v : BitVec 64) : ∃ t,
    Host.Core.run core 2 { s with inputs := pseudoInputs (.wr64 x v) } = .next t ∧
      hiLo (t.data.get x.hi) (t.data.get x.lo) = v ∧
      ∀ r, r ≠ x.hi → r ≠ x.lo → t.data.get r = s.data.get r := by
  refine ⟨_, run_writes [(x.lo, v.extractLsb' 0 32), (x.hi, v.extractLsb' 32 32)] s hp, ?_, ?_⟩
  · simp [DataRegs.setAll, DataRegs.get_set, lo_ne_hi x, hiLo_halves]
  · intro r hhi hlo
    simp [DataRegs.setAll, DataRegs.get_set, hhi, hlo]

/-- Four registers that hold a packed string hold its bytes in order (10_state.md R25, R28). -/
theorem wordByte_of_packed {bs : List Byte} {W : Nat → Word} (hW : ∀ k, k < 4 → W k = packedWord bs k)
    (j : Nat) (hj : j < 16) : wordByte (W (j / 4)) (j % 4) = bs.getD j 0 := by
  rw [hW _ (by omega), wordByte_packedWord bs _ _ (Nat.mod_lt _ (by decide)), Nat.div_add_mod]

theorem run_wrnonce (s : State) (hp : s.st.phase = .idle) (bs : List Byte) : ∃ t,
    Host.Core.run core 4 { s with inputs := pseudoInputs (.wrnonce bs) } = .next t ∧
      ∀ j, j < 16 → t.nonceByte j = bs.getD j 0 := by
  refine ⟨_, run_writes [(.nonce0, packedWord bs 0), (.nonce1, packedWord bs 1),
    (.nonce2, packedWord bs 2), (.nonce3, packedWord bs 3)] s hp, wordByte_of_packed fun k hk => ?_⟩
  interval_cases k <;> rfl

theorem run_wrtag (s : State) (hp : s.st.phase = .idle) (bs : List Byte) : ∃ t,
    Host.Core.run core 4 { s with inputs := pseudoInputs (.wrtag bs) } = .next t ∧
      ∀ j, j < 16 → t.tagByte j = bs.getD j 0 := by
  refine ⟨_, run_writes [(.tag0, packedWord bs 0), (.tag1, packedWord bs 1),
    (.tag2, packedWord bs 2), (.tag3, packedWord bs 3)] s hp, wordByte_of_packed fun k hk => ?_⟩
  interval_cases k <;> rfl

/-- Byte 4k + j of the tag is byte j of TAG k (10_state.md R28). -/
theorem tagByte_word (s : State) {k j : Nat} (hj : j < 4) :
    s.tagByte (4 * k + j) = wordByte (s.tagWord k) j := by
  rw [State.tagByte, show (4 * k + j) / 4 = k by omega, show (4 * k + j) % 4 = j by omega]

theorem run_rdtag (s : State) {k : Nat} (hk : k < 4) : ∃ t,
    Host.Core.run core (k + 1) { s with inputs := pseudoInputs .rdtag } = .next t ∧
      t.data = s.data ∧ ∀ j, j < 4 → wordByte t.rdata j = s.tagByte (4 * k + j) := by
  refine ⟨_, run_reads k [.tag0, .tag1, .tag2, .tag3] hk s, rfl, fun j hj => ?_⟩
  rw [tagByte_word s hj]
  interval_cases k <;> rfl

/-- A host write of a register by its name, in any state. -/
theorem step_write (s : State) (r : Reg) (v : Word) (rest : List Input)
    (hi : s.inputs = .access (HostLine.wr r v).encode :: rest) :
    step s = .next (hostWrite r.offset v { s with inputs := rest }) := by
  rw [step_access hi]
  rcases accessTurn_cases (HostLine.wr r v).encode { s with inputs := rest } with
    ⟨hn, _⟩ | ⟨_, ha, _⟩ | ⟨_, _, hk, _⟩ | ⟨_, _, _, e⟩
  · exact absurd rfl hn
  · exact absurd ((aligned_offset r).symm.trans ha) (by decide)
  · cases hk
  · exact e

/-- One write of a register by its name, alone on the list. -/
theorem run_write (s : State) (r : Reg) (v : Word) :
    Host.Core.run core 1 { s with inputs := lineInputs (.wr r v) } =
      .next (hostWrite r.offset v { s with inputs := [] }) :=
  run_succ (step_write _ r v [] rfl) 0

/-- 6, the word of `ack`, has bits 1 and 2 set (40_commands.md R103). -/
theorem clearBits_ack (t : Status) : t.clearBits 6 = ⟨false, false, t.result⟩ := by
  simp [Status.clearBits]

/-- Settles O42: the runs of each pseudo-instruction. -/
theorem pseudoInstructionsExpand : Obligations.PseudoInstructionsExpand := by
  intro s hp
  refine ⟨run_wr64 s hp, fun bs _ => run_wrnonce s hp bs, fun bs _ => run_wrtag s hp bs, ?_,
    ⟨rfl, fun k => run_rdtag s⟩, run_write s .cmd 1, run_write s .cmd 2⟩
  refine ⟨_, run_write s .status 6, ?_⟩
  rw [hostWrite_idle (s := { s with inputs := [] }) .status 6 hp]
  exact clearBits_ack s.status

end Sys2Proof.Machine

namespace Sys2Proof.Machine

/-! PROOFS. The family 40_commands.md: host accesses and commands (O9 to O17), the engine's turn and placed
words (O38, O41), what stays as it is while BUSY (O50, O60), the sequencer (O51), completion (O57), the round
trip (O55) and whole commands (O53, O54). -/

/-! ## The words of CTRL and STATUS as numbers (10_state.md R23, R26) -/

/-- Fields that do not overlap add up. -/
theorem shiftLeft_or_eq_add {k b : Nat} (a : Nat) (h : b < 2 ^ k) : a <<< k ||| b = 2 ^ k * a + b := by
  rw [← Nat.shiftLeft_add_eq_or_of_lt h, Nat.shiftLeft_eq, Nat.mul_comm]

/-- A field of few bits, placed in a word. -/
theorem toNat_field {n : Nat} (x : BitVec n) (k : Nat) (h : n + k ≤ 32) :
    (x.setWidth 32 <<< k).toNat = x.toNat <<< k := by
  have hx : x.toNat * 2 ^ k < 2 ^ 32 :=
    calc x.toNat * 2 ^ k < 2 ^ n * 2 ^ k := Nat.mul_lt_mul_of_pos_right x.isLt (by positivity)
      _ = 2 ^ (n + k) := (pow_add 2 n k).symm
      _ ≤ 2 ^ 32 := Nat.pow_le_pow_right (by decide) h
  have hx0 : x.toNat < 2 ^ 32 := Nat.lt_of_le_of_lt (Nat.le_mul_of_pos_right _ (by positivity)) hx
  rw [BitVec.toNat_shiftLeft, BitVec.toNat_setWidth, Nat.mod_eq_of_lt hx0, Nat.shiftLeft_eq,
    Nat.mod_eq_of_lt hx]

theorem toNat_ctrlWord (s : State) :
    s.ctrlWord.toNat = 256 * s.ctrl.ie.toNat + s.ctrl.nonceLen.toNat := by
  have hn : s.ctrl.nonceLen.toNat < 2 ^ 8 := by have := s.ctrl.nonceLen.isLt; omega
  have hlow := toNat_field s.ctrl.nonceLen 0 (by decide)
  rw [BitVec.shiftLeft_zero, Nat.shiftLeft_zero] at hlow
  rw [State.ctrlWord, BitVec.toNat_or, toNat_field _ 8 (by decide), hlow, BitVec.toNat_ofBool,
    shiftLeft_or_eq_add _ hn]
  rfl

theorem toNat_statusWord (s : State) :
    s.statusWord.toNat = 256 * s.st.phase.code.toNat + 16 * s.status.result.code.toNat +
      4 * s.status.dropped.toNat + 2 * s.status.done.toNat + s.busy.toNat := by
  have hr := s.status.result.code.isLt
  have hdr := Bool.toNat_le s.status.dropped
  have hdo := Bool.toNat_le s.status.done
  have hb := Bool.toNat_le s.busy
  have hlow := toNat_field (BitVec.ofBool s.busy) 0 (by decide)
  rw [BitVec.shiftLeft_zero, Nat.shiftLeft_zero] at hlow
  simp only [State.statusWord, BitVec.toNat_or]
  rw [toNat_field _ 8 (by decide), toNat_field _ 4 (by decide), toNat_field _ 2 (by decide),
    toNat_field _ 1 (by decide), hlow]
  simp only [BitVec.toNat_ofBool, Nat.lor_assoc]
  rw [shiftLeft_or_eq_add (k := 1) _ (by omega), shiftLeft_or_eq_add (k := 2) _ (by omega),
    shiftLeft_or_eq_add (k := 4) _ (by omega), shiftLeft_or_eq_add (k := 8) _ (by omega)]
  omega

theorem toNat_busy (s : State) : s.busy.toNat = if s.st.phase = .idle then 0 else 1 := by
  split_ifs with h
  · rw [(not_busy_iff s).2 h, Bool.toNat_false]
  · rw [(busy_iff s).2 h, Bool.toNat_true]

/-- Bit k of a word as a number. -/
theorem getLsbD_eq_false_iff (v : Word) (k : Nat) :
    v.getLsbD k = false ↔ v.toNat / 2 ^ k % 2 = 0 := by
  rw [← BitVec.testBit_toNat, ← Nat.toNat_testBit]
  cases v.toNat.testBit k <;> decide

/-! ## Reserved offsets (10_state.md R35) -/

theorem Reg.ofOffset_reserved {off : BitVec 8} (h : off = 0x0C ∨ 0x58 ≤ off.toNat) :
    Reg.ofOffset off = none := by
  cases hr : Reg.ofOffset off with
  | none => rfl
  | some r =>
    have he := Reg.eq_offset_of_ofOffset hr
    have hbound := (Reg.offset_bound r).2
    rcases h with rfl | h
    · cases hr
    · rw [← he] at hbound
      omega

/-! ## The accesses as instructions (40_commands.md R100 to R104) -/

theorem exec_rd {off : BitVec 8} (s : State) (ha : aligned off = true) :
    exec (.rd off) s = .next { acquireOnRead off s with rdata := hostRead off s } :=
  if_pos ha

theorem exec_wr {off : BitVec 8} (v : Word) (s : State) (ha : aligned off = true) :
    exec (.wr off v) s = .next (hostWrite off v s) :=
  if_pos ha

theorem exec_wrBusy {off : BitVec 8} (v : Word) (s : State) (ha : aligned off = true) :
    exec (.wrBusy off v) s = .next (hostWrite off v s) :=
  if_pos ha

/-- What a read that answers leaves as it was: everything but the views and the word read. -/
theorem acquireOnRead_eq (off : BitVec 8) (s : State) :
    ∃ vs, acquireOnRead off s = { s with views := vs } := by
  rcases acquireOnRead_cases off s with e | e
  · exact ⟨[], e⟩
  · exact ⟨s.views, e⟩

/-- Settles O9: the word by the register the offset finds; the frame because a read only acquires. -/
theorem readReturnsRegister : Obligations.ReadReturnsRegister := by
  intro off s hal
  obtain ⟨vs, hacq⟩ := acquireOnRead_eq off s
  have hexec := exec_rd s ((aligned_iff off).2 hal)
  rw [hacq] at hexec
  refine ⟨_, hexec, ?_, ?_, ?_, ?_, ?_, rfl, rfl, rfl, rfl, rfl, rfl, rfl, rfl, rfl, rfl, rfl, rfl,
    fun _ => rfl⟩
  · rintro rfl
    exact toNat_ctrlWord s
  · rintro rfl
    rfl
  · rintro rfl
    exact (toNat_statusWord s).trans (by rw [toNat_busy])
  · rintro r rfl
    exact hostRead_data r s
  · intro h
    show hostRead off s = 0
    simp only [hostRead, Reg.ofOffset_reserved h]

/-- Settles O10: the register file is a store by name. -/
theorem writeStoresDataRegister : Obligations.WriteStoresDataRegister := by
  intro r v s hp
  rw [← show (Reg.data r).offset = r.offset from rfl, exec_wr v s (aligned_offset _),
    hostWrite_idle (.data r) v hp]
  refine ⟨s.data.set r v, rfl, ?_, fun r' hne => ?_⟩
  · rw [DataRegs.get_set, if_pos rfl]
  · rw [DataRegs.get_set, if_neg hne]

theorem ctrlOfWord_nonceLen (v : Word) : (ctrlOfWord v).nonceLen.toNat = v.toNat % 16 := by
  simp [ctrlOfWord]

theorem ctrlOfWord_ie (v : Word) : (ctrlOfWord v).ie.toNat = v.toNat / 256 % 2 := by
  rw [ctrlOfWord, ← BitVec.testBit_toNat, Nat.toNat_testBit]

theorem hostWrite_reserved {off : BitVec 8} {s : State} (v : Word) (hp : s.st.phase = .idle)
    (h : off = 0x0C ∨ 0x58 ≤ off.toNat) : hostWrite off v s = s := by
  have hb : s.busy = false := (not_busy_iff s).2 hp
  simp only [hostWrite, hb, Bool.false_eq_true, false_and, if_false, Reg.ofOffset_reserved h]

/-- Settles O11: CTRL is written by its name, and no register answers to a reserved offset. -/
theorem writeCtrlAndReserved : Obligations.WriteCtrlAndReserved := by
  intro v s hp
  have hctrl : exec (.wr 0x00 v) s = .next { s with ctrl := ctrlOfWord v } :=
    (exec_wr v s rfl).trans (congrArg Host.Outcome.next (hostWrite_idle .ctrl v hp))
  refine ⟨⟨_, hctrl, ctrlOfWord_nonceLen v, ctrlOfWord_ie v⟩, fun off hal hoff => ?_⟩
  rw [exec_wr v s ((aligned_iff off).2 hal), hostWrite_reserved v hp hoff]

/-- Settles O12: all six are the host write of a busy machine at an offset other than STATUS. -/
theorem busyWriteIsDropped : Obligations.BusyWriteIsDropped := by
  intro off v s hp hal hoff
  have ha := (aligned_iff off).2 hal
  have hcmd (code : Word) : Host.Outcome.next (φ := Fault) (ρ := Refusal) (hostWrite 0x04 code s) =
      .next (droppedWrite s) := by rw [hostWrite_busy code hp (by decide)]
  refine ⟨?_, ?_, hcmd 0, hcmd 1, hcmd 2, hcmd v⟩
  · rw [exec_wrBusy v s ha, hostWrite_busy v hp hoff]
    rfl
  · rw [exec_wr v s ha, hostWrite_busy v hp hoff]
    rfl

/-- Settles O13: both rows are `statusWrite`, whose bits are read as numbers. -/
theorem statusWriteClears : Obligations.StatusWriteClears := by
  intro v s
  have hwr : exec (.wr 0x08 v) s = .next (statusWrite v s) := by
    rw [exec_wr v s rfl, hostWrite_status]
  refine ⟨s.status.clearBits v, rfl, hwr, rfl, ?_, ?_⟩
  · have hbit := getLsbD_eq_false_iff v 1
    simpa [Status.clearBits] using fun _ => hbit
  · have hbit := getLsbD_eq_false_iff v 2
    simpa [Status.clearBits] using fun _ => hbit

/-! ## The commands (40_commands.md R104 to R108) -/

/-- Settles O14: NOP is the write of 0 to CMD. -/
theorem nopHasNoEffect : Obligations.NopHasNoEffect := fun _ =>
  ⟨fun hp => congrArg Host.Outcome.next (hostWrite_idle .cmd 0 hp),
    fun hp => congrArg Host.Outcome.next (hostWrite_busy 0 hp (by decide))⟩

theorem exec_encrypt_idle {s : State} (hp : s.st.phase = .idle) :
    exec .encrypt s = .next (startCommand .enc s) :=
  congrArg Host.Outcome.next (hostWrite_idle .cmd 1 hp)

theorem exec_decrypt_idle {s : State} (hp : s.st.phase = .idle) :
    exec .decrypt s = .next (startCommand .dec s) :=
  congrArg Host.Outcome.next (hostWrite_idle .cmd 2 hp)

/-- Settles O15: both commands are `startCommand`. -/
theorem commandStart : Obligations.CommandStart := fun _ hp =>
  ⟨exec_encrypt_idle hp, exec_decrypt_idle hp⟩

theorem cmdWrite_illegal {code : Word} (s : State) (h0 : code ≠ 0) (h1 : code ≠ 1) (h2 : code ≠ 2) :
    cmdWrite code s = illegalCommand s := by
  rw [cmdWrite, if_neg h0, if_neg h1, if_neg h2]

/-- Settles O16: the last branch of CmdWrite. -/
theorem illegalCommandCompletes : Obligations.IllegalCommandCompletes := by
  intro code s hp h0 h1 h2
  have hwrite : exec (.illegal code) s = .next (cmdWrite code s) :=
    congrArg Host.Outcome.next (hostWrite_idle .cmd code hp)
  rw [hwrite, cmdWrite_illegal s h0 h1 h2]
  rfl

/-- Settles O17: WR to CMD and the command are one host write, and the access decodes to the command. -/
theorem cmdWriteRunsCommand : Obligations.CmdWriteRunsCommand := by
  intro v s hp
  refine ⟨(exec_wr v s rfl).trans (exec_decodeCmd v s).symm, ?_⟩
  rw [step_access rfl]
  refine accessTurn_of_decode (s := s) ?_
  rw [(not_busy_iff s).2 hp]
  exact decode_wr_cmd v

/-! ## The engine's turn and placed words (40_commands.md R109) -/

theorem engineTurn_of_decode {s : State} {i : Instr}
    (h : decode s.busy (.phase s.st.phase.code) = .instr i) :
    engineTurn s = exec i { s with steps := s.steps + 1 } := by
  simp only [engineTurn, h]

/-- Settles O38: the engine's turn runs what the phase code decodes to, listed or not. -/
theorem stepRunsPhase : Obligations.StepRunsPhase := by
  intro s i hd
  refine ⟨fun hi => (step_nil hi).trans (engineTurn_of_decode hd), fun rest hi => ?_⟩
  rw [step_cons hi]
  exact engineTurn_of_decode (s := { s with inputs := rest }) hd

/-- A row that does not match BUSY matches the other value of it. -/
theorem admitsBusy_not {i : Instr} {b : Bool} (h : i.admitsBusy b = false) :
    i.admitsBusy (!b) = true := by
  cases i with
  | wr _ _ | nop | encrypt | decrypt | illegal _ =>
    obtain rfl : b = true := by simpa [Instr.admitsBusy] using h
    rfl
  | wrBusy _ _ =>
    obtain rfl : b = false := h
    rfl
  | _ => cases h

/-- Codes up to 9 are the codes of phases (30_encoding.md R83). -/
theorem Phase.ofCode_of_le {c : BitVec 4} (h : c.toNat ≤ 9) :
    ∃ p, Phase.ofCode c = some p ∧ p.code = c := by
  obtain ⟨n, hn, rfl⟩ : ∃ n, n < 2 ^ 4 ∧ c = BitVec.ofNat 4 n := ⟨c.toNat, c.isLt, by simp⟩
  rw [BitVec.toNat_ofNat, Nat.mod_eq_of_lt hn] at h
  interval_cases n <;> exact ⟨_, rfl, rfl⟩

/-- Every well-formed instruction is what its own encoding decodes to, at some value of BUSY. -/
theorem exists_decode_encode {i : Instr} (hwf : i.wf = true) :
    ∃ b, decode b (encode i) = .instr i := by
  cases hb : i.admitsBusy true with
  | true => exact ⟨true, decodeOfEncode i true hwf hb⟩
  | false => exact ⟨false, decodeOfEncode i false hwf (admitsBusy_not hb)⟩

/-- What `place` changes of the state it is given: the engine state, so that BUSY is the value that the row
of the instruction needs, and the list of moves. -/
theorem place_access {i : Instr} {a : HostAccess} (s : State) (h : encode i = .access a) :
    ∃ e, s.place i = { s with st := e, inputs := .access a :: s.inputs } ∧
      i.admitsBusy ({ s with st := e } : State).busy = true := by
  simp only [State.place, h]
  cases hb : s.busy with
  | true =>
    cases ha : i.admitsBusy true with
    | true => exact ⟨s.st, rfl, (congrArg i.admitsBusy hb).trans ha⟩
    | false => exact ⟨_, rfl, admitsBusy_not ha⟩
  | false =>
    cases ha : i.admitsBusy false with
    | true => exact ⟨s.st, rfl, (congrArg i.admitsBusy hb).trans ha⟩
    | false => exact ⟨_, rfl, admitsBusy_not ha⟩

/-- A placed instruction is what the very next step runs (log 8). -/
theorem step_place {i : Instr} (s : State) (hwf : i.wf = true) :
    ∃ e n, step (s.place i) = exec i { s with st := e, steps := n } := by
  obtain ⟨b, hdec⟩ := exists_decode_encode hwf
  cases henc : encode i with
  | access a =>
    obtain ⟨e, hplace, hbusy⟩ := place_access s henc
    refine ⟨e, s.steps, ?_⟩
    rw [hplace, step_access rfl]
    refine accessTurn_of_decode (s := { s with st := e }) ?_
    rw [← henc]
    exact decodeOfEncode i _ hwf hbusy
  | phase c =>
    rw [henc, decode_phase] at hdec
    have hc : c.toNat ≤ 9 := by
      rcases decodePhase_cases c with ⟨_, e⟩ | ⟨_, e⟩ | ⟨_, h9, _⟩
      · cases e.symm.trans hdec
      · cases e.symm.trans hdec
      · exact h9
    obtain ⟨p, hp, rfl⟩ := Phase.ofCode_of_le hc
    have hplace : s.place i = { s.placeAt p with inputs := .engine :: s.inputs } := by
      simp only [State.place, henc, hp]
    rw [hplace, step_cons rfl]
    exact ⟨_, _, engineTurn_of_decode (s := s.placeAt p) hdec⟩

/-- The table gives well-formed instructions only: each is what the decoder gives for some encoding. -/
theorem wf_of_decodeTableWord {nbits w : Nat} {i : Instr} (h : decodeTableWord nbits w = some i) :
    i.wf = true := by
  unfold decodeTableWord at h
  split at h
  · cases h
    exact (decodeCmd_encodes _).1
  split at h
  · split at h
    · next j hphase =>
      cases h
      split at hphase
      · exact (encodeOfDecode.2 true _ _ hphase).1
      · cases hphase
    · split at h
      · next hwr =>
        cases h
        exact (encodeOfDecode.1 true _ _ hwr).1
      · cases h
  · cases h

/-- Settles O41: the word's instruction is placed, and a placed instruction runs next. -/
theorem placedWordRunsNext : Obligations.PlacedWordRunsNext := by
  intro s nbits w i h
  obtain ⟨e, n, hstep⟩ := step_place s (wf_of_decodeTableWord h)
  have hword : s.withFetchWord nbits w = s.place i := by simp only [State.withFetchWord, h]
  exact ⟨_, (congrArg step hword).trans hstep, rfl, rfl, rfl, rfl, rfl, rfl, rfl⟩

/-! ## What stays as it is while BUSY (40_commands.md R102, R109) -/

/-- While BUSY a host write changes DONE and DROPPED at most. -/
theorem hostWrite_of_busy {s : State} (off : BitVec 8) (v : Word) (hp : s.st.phase ≠ .idle) :
    hostWrite off v s = droppedWrite s ∨ hostWrite off v s = statusWrite v s := by
  rcases hostWrite_cases off v s with ⟨_, e⟩ | e | ⟨hidle, _⟩
  · exact .inl e
  · exact .inr e
  · exact absurd hidle hp

/-- Settles O50: by the kinds of step (`step_next`); of those of a busy machine only an engine step can
change a data register, and that is FINAL of an ENCRYPT. -/
theorem registersStableWhileBusy : Obligations.RegistersStableWhileBusy := by
  intro s t hp hstep hreset
  have hsame {u : State} (hc : u.ctrl = s.ctrl) (hd : u.data = s.data) : u.ctrl = s.ctrl ∧
      (∀ r, r ≠ .tag0 → r ≠ .tag1 → r ≠ .tag2 → r ≠ .tag3 → u.data.get r = s.data.get r) ∧
      (u.data ≠ s.data → s.st.phase = .final ∧ s.st.op = .enc) :=
    ⟨hc, fun r _ _ _ _ => by rw [hd], fun hne => absurd hd hne⟩
  rcases step_next hstep with hcore | ⟨_, l, rfl⟩ | ⟨l, off, v, rfl⟩ | ⟨⟨l, hl⟩, _⟩
  · exact hsame hcore.ctrl hcore.data
  · have hctrl := (phaseStep_untouched { s with inputs := l, steps := s.steps + 1 }).ctrl
    rcases phaseStep_data { s with inputs := l, steps := s.steps + 1 } with e | ⟨hfinal, henc, x, e⟩
    · exact hsame hctrl e
    · refine ⟨hctrl, fun r h0 h1 h2 h3 => ?_, fun _ => ⟨hfinal, henc⟩⟩
      rw [e, withTag_get _ _ _ ⟨h0, h1, h2, h3⟩]
  · rcases hostWrite_of_busy (s := { s with inputs := l }) off v hp with e | e <;> rw [e] <;>
      exact hsame rfl rfl
  · rcases hl with hl | hl
    · exact absurd hl (hreset l).1
    · exact absurd hl (hreset l).2

/-- `t` has the command of `s` as it was: the engine state, what the engine reads, what it has put on its
ports, and the result. -/
structure CommandKept (s t : State) : Prop where
  st : t.st = s.st
  ctrl : t.ctrl = s.ctrl
  data : t.data = s.data
  key : t.key = s.key
  busErr : t.busErr = s.busErr
  requests : t.requests = s.requests
  calls : t.calls = s.calls
  result : t.status.result = s.status.result
  operands : ∀ a, inBuffer s.aadAddr s.alen a = true ∨ inBuffer s.inAddr s.mlen a = true →
    Memory.byte t.mem a = Memory.byte s.mem a

theorem commandKept_read (off : BitVec 8) (w : Word) (l : List Input) (s : State) :
    CommandKept s { acquireOnRead off s with rdata := w, inputs := l } := by
  obtain ⟨vs, e⟩ := acquireOnRead_eq off s
  rw [e]
  exact ⟨rfl, rfl, rfl, rfl, rfl, rfl, rfl, rfl, fun _ _ => rfl⟩

theorem commandKept_hostWrite {s : State} (off : BitVec 8) (v : Word) (hp : s.st.phase ≠ .idle) :
    CommandKept s (hostWrite off v s) := by
  rcases hostWrite_of_busy off v hp with e | e <;> rw [e] <;>
    exact ⟨rfl, rfl, rfl, rfl, rfl, rfl, rfl, rfl, fun _ _ => rfl⟩

theorem commandKept_accessTurn {a : HostAccess} {s t : State} (hp : s.st.phase ≠ .idle)
    (ht : accessTurn a s = .next t) : CommandKept s t := by
  rcases accessTurn_next ht with rfl | ⟨off, v, rfl⟩
  · exact commandKept_read a.offset _ _ s
  · exact commandKept_hostWrite off v hp

theorem commandKept_pollTurn {r : Reg} {hi lo : Nat} {v : Word} {s t : State}
    (ht : pollTurn r hi lo v s = .next t) : CommandKept s t := by
  simp only [pollTurn, accessTurn_poll] at ht
  split_ifs at ht <;> cases ht <;> exact commandKept_read r.offset _ _ s

/-- A store that is made while BUSY is to no AAD or input byte (70_reset_and_hazards.md R265). -/
theorem commandKept_storeTurn {a : Addr} {b : Byte} {s t : State} (hb : s.busy = true)
    (ht : storeTurn a b s = .next t) : CommandKept s t := by
  simp only [storeTurn, hb, true_and] at ht
  by_cases hoperand : inBuffer s.aadAddr s.alen a = true ∨ inBuffer s.inAddr s.mlen a = true
  · rw [if_pos hoperand] at ht
    cases ht
  rw [if_neg hoperand] at ht
  have hne (x : Addr) (hx : inBuffer s.aadAddr s.alen x = true ∨ inBuffer s.inAddr s.mlen x = true) :
      x ≠ a := fun e => hoperand (e ▸ hx)
  split_ifs at ht <;> cases ht
  · exact ⟨rfl, rfl, rfl, rfl, rfl, rfl, rfl, rfl,
      fun x hx => raceStore_byte_of_ne b s (hne x hx)⟩
  · exact ⟨rfl, rfl, rfl, rfl, rfl, rfl, rfl, rfl, fun x hx => by
      rw [plainStore_mem, Memory.byte_write, if_neg (hne x hx)]⟩

/-- Every move but an engine step, a reset and a change of the bus responses. -/
theorem commandKept_inputTurn {x : Input} {s t : State} (hb : s.busy = true) (hengine : x ≠ .engine)
    (hreset : x ≠ .reset) (hcut : x ≠ .resetCut) (hanswer : ∀ errs, x ≠ .answer errs)
    (ht : inputTurn x s = .next t) : CommandKept s t := by
  have hp : s.st.phase ≠ .idle := (busy_iff s).1 hb
  cases x with
  | engine => exact absurd rfl hengine
  | access a => exact commandKept_accessTurn hp ht
  | poll r hi lo v => exact commandKept_pollTurn ht
  | reset => exact absurd rfl hreset
  | resetCut => exact absurd rfl hcut
  | store a b => exact commandKept_storeTurn hb ht
  | load a =>
    obtain ⟨c, n, e, _⟩ := loadTurn_admits a s
    cases e.symm.trans ht
    exact ⟨rfl, rfl, rfl, rfl, rfl, rfl, rfl, rfl, fun _ _ => rfl⟩
  | sampleIrq =>
    simp only [inputTurn, sampleTurn] at ht
    split_ifs at ht <;> cases ht <;> exact ⟨rfl, rfl, rfl, rfl, rfl, rfl, rfl, rfl, fun _ _ => rfl⟩
  | rekey k => simp [inputTurn, rekeyTurn, hb] at ht
  | answer errs => exact absurd rfl (hanswer errs)

/-- Settles O60: the step is the turn of the move listed, which keeps the command. -/
theorem otherAgentsLeaveCommandAlone : Obligations.OtherAgentsLeaveCommandAlone := by
  intro s t x rest hb hi hengine hreset hcut hanswer hstep
  rw [step_cons hi] at hstep
  obtain ⟨hst, hctrl, hdata, hkey, hbus, hreq, hcalls, hresult, hoperands⟩ :=
    commandKept_inputTurn (s := { s with inputs := rest }) hb hengine hreset hcut hanswer hstep
  exact ⟨hst, hctrl, hdata, hkey, hbus, hreq, hcalls, hresult, hoperands⟩

/-! ## The table of the sequencer, a lemma per phase (40_commands.md R110) -/

/-- The counter and the phase after a chunk: the loop goes on while chunks are left. -/
theorem nextChunk_next {i : BitVec 64} {last : State → State} {p : Phase} {u : State}
    (hi : i.toNat ≤ msgBlocks u.mlen)
    (hlast : ∀ v, (last v).st.phase = p ∧ (last v).st.ctr = v.st.ctr) :
    (nextChunk i last u).st.ctr.toNat = i.toNat + 1 ∧
      (nextChunk i last u).st.phase = if i.toNat + 1 ≤ msgBlocks u.mlen then u.st.phase else p := by
  have hlt : i.toNat < 2 ^ 64 - 1 := by
    have := msgBlocks_mlen_le u
    omega
  by_cases hn : i.toNat = msgBlocks u.mlen
  · obtain ⟨hphase, hctr⟩ := hlast { u with st := { u.st with ctr := i + 1 } }
    rw [nextChunk_last hlt hn, hphase, hctr, if_neg (by omega)]
    exact ⟨succ_toNat hlt, rfl⟩
  · rw [nextChunk_more hlt hn, if_pos (by omega)]
    exact ⟨succ_toNat hlt, rfl⟩

theorem payloadEntry_phase (s : State) : (payloadEntry s).st.phase = entryPhase s s.st.op := by
  rw [payloadEntry_eq]
  rfl

theorem phaseStep_check_phase {s : State} (hp : s.st.phase = .check) :
    (s.ContractOk → (phaseStep s).st.phase = .b0) ∧
      (¬ s.ContractOk → (phaseStep s).st.phase = .wipe) := by
  simp only [phaseStep, hp]
  exact ⟨fun hk => by rw [stepCheck_pass hk]; rfl, fun hk => by rw [stepCheck_fail hk]; rfl⟩

theorem phaseStep_b0_phase {s : State} (hp : s.st.phase = .b0) :
    (phaseStep s).st.phase = if 0 < s.alen then .aad else entryPhase s s.st.op := by
  simp only [phaseStep, hp, stepB0]
  split_ifs
  · rfl
  · exact payloadEntry_phase _

/-- An AAD step that reads its block: the index moves on, to the next block or to the payload. -/
theorem phaseStep_aad_ok {s : State} (hp : s.st.phase = .aad) (ha : s.alen < 2 ^ 32)
    (hj : s.st.aj.toNat < aadBlocks s.alen)
    (hok : ¬ s.busOk (s.aadRequest s.st.aj.toNat) = false) :
    (phaseStep s).st.aj.toNat = s.st.aj.toNat + 1 ∧
      (phaseStep s).st.phase =
        if s.st.aj.toNat + 1 < aadBlocks s.alen then .aad else entryPhase s s.st.op := by
  have hsucc : (s.st.aj + 1).toNat = s.st.aj.toNat + 1 := by
    have := aadBlocks_le ha
    exact succ_toNat (by omega)
  simp only [phaseStep, hp]
  rw [stepAad_ok _ (Bool.eq_true_of_not_eq_false hok), hsucc]
  by_cases hlast : s.st.aj.toNat + 1 = aadBlocks s.alen
  · rw [if_pos hlast, if_neg (Nat.not_lt.2 hlast.ge)]
    exact ⟨by rw [payloadEntry_eq]; exact hsucc, payloadEntry_phase (aadAbsorbed _ s)⟩
  · rw [if_neg hlast, if_pos (Nat.lt_of_le_of_ne hj hlast)]
    exact ⟨hsucc, hp⟩

theorem phaseStep_aad_error {s : State} (hp : s.st.phase = .aad)
    (hread : s.busOk (s.aadRequest s.st.aj.toNat) = false) : (phaseStep s).st.phase = .wipe := by
  simp only [phaseStep, hp]
  rw [stepAad_readError _ hread]
  rfl

/-- A chunk step whose requests are answered ok: the counter moves on, and after the last chunk the phase is
the one that follows the loop. -/
theorem phaseStep_enc_ok {s : State} (hp : s.st.phase = .enc)
    (hi : s.st.ctr.toNat ≤ msgBlocks s.mlen)
    (hok : ¬ (s.busOk (s.readRequest s.st.ctr.toNat) = false ∨
      s.busOk (s.writeRequest s.st.ctr.toNat) = false)) :
    (phaseStep s).st.ctr.toNat = s.st.ctr.toNat + 1 ∧
      (phaseStep s).st.phase = if s.st.ctr.toNat + 1 ≤ msgBlocks s.mlen then .enc else .final := by
  obtain ⟨hread, hwrite⟩ := not_or.1 hok
  simp only [phaseStep, hp]
  rw [stepEnc_ok _ _ (Bool.eq_true_of_not_eq_false hread) (Bool.eq_true_of_not_eq_false hwrite), ← hp]
  exact nextChunk_next (u := wrote _ s (encReady _ s)) hi fun _ => ⟨rfl, rfl⟩

theorem phaseStep_enc_error {s : State} (hp : s.st.phase = .enc)
    (herr : s.busOk (s.readRequest s.st.ctr.toNat) = false ∨
      s.busOk (s.writeRequest s.st.ctr.toNat) = false) : (phaseStep s).st.phase = .wipe := by
  simp only [phaseStep, hp]
  cases hread : s.busOk (s.readRequest s.st.ctr.toNat) with
  | false => rw [stepEnc_readError _ _ hread]; rfl
  | true =>
    have hwrite := herr.resolve_left (by simp [hread])
    rw [stepEnc_writeError _ _ hread hwrite]
    rfl

theorem phaseStep_dec1_ok {s : State} (hp : s.st.phase = .dec1)
    (hi : s.st.ctr.toNat ≤ msgBlocks s.mlen)
    (hok : ¬ s.busOk (s.readRequest s.st.ctr.toNat) = false) :
    (phaseStep s).st.ctr.toNat = s.st.ctr.toNat + 1 ∧
      (phaseStep s).st.phase = if s.st.ctr.toNat + 1 ≤ msgBlocks s.mlen then .dec1 else .final := by
  simp only [phaseStep, hp]
  rw [stepDec1_ok _ (Bool.eq_true_of_not_eq_false hok), ← hp]
  exact nextChunk_next (u := dec1Ready _ s) hi fun _ => ⟨rfl, rfl⟩

theorem phaseStep_dec1_error {s : State} (hp : s.st.phase = .dec1)
    (hread : s.busOk (s.readRequest s.st.ctr.toNat) = false) : (phaseStep s).st.phase = .wipe := by
  simp only [phaseStep, hp]
  rw [stepDec1_readError _ hread]
  rfl

theorem phaseStep_dec2_ok {s : State} (hp : s.st.phase = .dec2)
    (hi : s.st.ctr.toNat ≤ msgBlocks s.mlen)
    (hok : ¬ (s.busOk (s.readRequest s.st.ctr.toNat) = false ∨
      s.busOk (s.writeRequest s.st.ctr.toNat) = false)) :
    (phaseStep s).st.ctr.toNat = s.st.ctr.toNat + 1 ∧
      (phaseStep s).st.phase = if s.st.ctr.toNat + 1 ≤ msgBlocks s.mlen then .dec2 else .wipe := by
  obtain ⟨hread, hwrite⟩ := not_or.1 hok
  simp only [phaseStep, hp]
  rw [stepDec2_ok _ _ (Bool.eq_true_of_not_eq_false hread) (Bool.eq_true_of_not_eq_false hwrite), ← hp]
  exact nextChunk_next (u := wrote _ s (dec2Ready _ s)) hi fun _ => ⟨rfl, rfl⟩

theorem phaseStep_dec2_error {s : State} (hp : s.st.phase = .dec2)
    (herr : s.busOk (s.readRequest s.st.ctr.toNat) = false ∨
      s.busOk (s.writeRequest s.st.ctr.toNat) = false) : (phaseStep s).st.phase = .wipe := by
  simp only [phaseStep, hp]
  cases hread : s.busOk (s.readRequest s.st.ctr.toNat) with
  | false => rw [stepDec2_readError _ _ hread]; rfl
  | true =>
    have hwrite := herr.resolve_left (by simp [hread])
    rw [stepDec2_writeError _ _ hread hwrite]
    rfl

theorem phaseStep_final_phase {s : State} (hp : s.st.phase = .final) :
    (phaseStep s).st.phase = if s.st.op = .enc then .wipe else .verify := by
  simp only [phaseStep, hp, stepFinal]
  split_ifs <;> rfl

theorem phaseStep_verify_phase {s : State} (hp : s.st.phase = .verify) :
    (phaseStep s).st.phase =
      if s.st.cand = s.tagReg ∧ 0 < msgBlocks s.mlen then .dec2 else .wipe := by
  simp only [phaseStep, hp]
  by_cases htag : s.st.cand = s.tagReg
  · rw [stepVerify_match htag, accept]
    by_cases hn : msgBlocks s.mlen = 0
    · rw [if_pos hn, if_neg (by omega)]
    · rw [if_neg hn, if_pos ⟨htag, by omega⟩]
      rfl
  · rw [stepVerify_differ htag, if_neg (fun h => htag h.1)]
    rfl

theorem phaseStep_wipe {s : State} (hp : s.st.phase = .wipe) : phaseStep s = complete s := by
  simp only [phaseStep, hp]

theorem phaseStep_wipe_phase {s : State} (hp : s.st.phase = .wipe) :
    (phaseStep s).st.phase = .idle := by
  rw [phaseStep_wipe hp]
  rfl

/-- A row of the table, from its two cases: the error response, and the ok one with the index moved on. -/
theorem row_of_cases {err : Prop} [Decidable err] (more : Nat → Prop) [DecidablePred more]
    {p loop out : Phase} {k n : Nat} (herror : err → p = .wipe)
    (hok : ¬ err → k = n ∧ p = if more n then loop else out) :
    p = if err then .wipe else if more k then loop else out := by
  by_cases h : err
  · rw [if_pos h, herror h]
  · obtain ⟨rfl, hp⟩ := hok h
    rw [if_neg h, hp]

/-! The four loops of the table. The invariant bounds their indices. -/

theorem State.SeqInv.ctr_le_msgBlocks {s : State} (h : s.SeqInv) {p : Phase} (hp : s.st.phase = p)
    (hch : p.chunked = true) : s.st.ctr.toNat ≤ msgBlocks s.mlen :=
  (h.chunk_index (hp ▸ hch)).2

theorem State.SeqInv.alen_lt {s : State} (h : s.SeqInv) (hp : s.st.phase = .aad) : s.alen < 2 ^ 32 := by
  obtain ⟨-, -, -, halen⟩ := h.contract (by rw [hp]; rfl)
  exact halen

theorem phaseStep_aad_phase {s : State} (h : s.SeqInv) (hp : s.st.phase = .aad) :
    (phaseStep s).st.phase = if s.busOk (s.aadRequest s.st.aj.toNat) = false then .wipe
      else if (phaseStep s).st.aj.toNat < aadBlocks s.alen then .aad else entryPhase s s.st.op :=
  row_of_cases (· < aadBlocks s.alen) (phaseStep_aad_error hp)
    (phaseStep_aad_ok hp (h.alen_lt hp) (h.aad_index hp).2)

theorem phaseStep_enc_phase {s : State} (h : s.SeqInv) (hp : s.st.phase = .enc) :
    (phaseStep s).st.phase = if s.busOk (s.readRequest s.st.ctr.toNat) = false ∨
        s.busOk (s.writeRequest s.st.ctr.toNat) = false then .wipe
      else if (phaseStep s).st.ctr.toNat ≤ msgBlocks s.mlen then .enc else .final :=
  row_of_cases (· ≤ msgBlocks s.mlen) (phaseStep_enc_error hp)
    (phaseStep_enc_ok hp (h.ctr_le_msgBlocks hp rfl))

theorem phaseStep_dec1_phase {s : State} (h : s.SeqInv) (hp : s.st.phase = .dec1) :
    (phaseStep s).st.phase = if s.busOk (s.readRequest s.st.ctr.toNat) = false then .wipe
      else if (phaseStep s).st.ctr.toNat ≤ msgBlocks s.mlen then .dec1 else .final :=
  row_of_cases (· ≤ msgBlocks s.mlen) (phaseStep_dec1_error hp)
    (phaseStep_dec1_ok hp (h.ctr_le_msgBlocks hp rfl))

theorem phaseStep_dec2_phase {s : State} (h : s.SeqInv) (hp : s.st.phase = .dec2) :
    (phaseStep s).st.phase = if s.busOk (s.readRequest s.st.ctr.toNat) = false ∨
        s.busOk (s.writeRequest s.st.ctr.toNat) = false then .wipe
      else if (phaseStep s).st.ctr.toNat ≤ msgBlocks s.mlen then .dec2 else .wipe :=
  row_of_cases (· ≤ msgBlocks s.mlen) (phaseStep_dec2_error hp)
    (phaseStep_dec2_ok hp (h.ctr_le_msgBlocks hp rfl))

/-- The engine's turn with no move listed, in a busy machine. -/
theorem step_busy {s t : State} (hi : s.inputs = []) (hp : s.st.phase ≠ .idle)
    (h : step s = .next t) : t = phaseStep { s with steps := s.steps + 1 } := by
  rw [step_nil hi, engineTurn_eq, if_neg hp] at h
  cases h
  rfl

/-- The count of steps is no part of the invariant. -/
theorem seqInv_counted {s : State} (h : s.SeqInv) (n : Nat) : ({ s with steps := n } : State).SeqInv :=
  seqInv_congr (s := s) rfl rfl rfl rfl rfl h

/-- Settles O51: IDLE stays as it is, and the rows of the other phases are the lemmas above. -/
theorem sequencerControlFlow : Obligations.SequencerControlFlow := by
  intro s t hinv hi hstep entry
  let u : State := { s with steps := s.steps + 1 }
  have hu : u.SeqInv := seqInv_counted hinv (s.steps + 1)
  by_cases hidle : s.st.phase = .idle
  · rw [step_nil hi, engineTurn_idle hidle] at hstep
    cases hstep
    simp [hidle]
  obtain rfl := step_busy hi hidle hstep
  exact ⟨fun hp => absurd hp hidle, phaseStep_check_phase (s := u), phaseStep_b0_phase (s := u),
    phaseStep_aad_phase hu, phaseStep_enc_phase hu, phaseStep_dec1_phase hu,
    phaseStep_final_phase (s := u), phaseStep_verify_phase (s := u), phaseStep_dec2_phase hu,
    phaseStep_wipe_phase (s := u)⟩

/-! ## Completion (40_commands.md R109, 70_reset_and_hazards.md R270) -/

/-- An upper bound on the engine steps that the running command still takes. -/
def stepsLeft (s : State) : Nat :=
  let n := msgBlocks s.mlen
  match s.st.phase with
  | .idle => 0
  | .check => 5 + aadBlocks s.alen + 2 * n
  | .b0 => 4 + aadBlocks s.alen + 2 * n
  | .aad => 3 + (aadBlocks s.alen - s.st.aj.toNat) + 2 * n
  | .enc => 3 + (n + 1 - s.st.ctr.toNat) + n
  | .dec1 => 3 + (n + 1 - s.st.ctr.toNat) + n
  | .final => 3 + n
  | .verify => 2 + n
  | .dec2 => 1 + (n + 1 - s.st.ctr.toNat)
  | .wipe => 1

theorem stepsLeft_le (s : State) :
    stepsLeft s ≤ 5 + aadBlocks s.alen + 2 * msgBlocks s.mlen := by
  rw [stepsLeft]
  cases s.st.phase <;> dsimp only <;> omega

/-- The chunk counter of a state that the rules can reach is at least 1 in the chunk phases, so that a step to
one of them has at most nblk chunks left. -/
theorem chunksLeft_le {t : State} (h : t.SeqInv) (hch : t.st.phase.chunked = true) :
    msgBlocks t.mlen + 1 - t.st.ctr.toNat ≤ msgBlocks t.mlen := by
  have := (h.chunk_index hch).1
  omega

/-- At the payload at most 3 + 2 * nblk steps are left. -/
theorem stepsLeft_entry {t : State} {op : Op} (h : t.SeqInv) (hp : t.st.phase = entryPhase t op) :
    stepsLeft t ≤ 3 + 2 * msgBlocks t.mlen := by
  rw [entryPhase] at hp
  split_ifs at hp
  · simp only [stepsLeft, hp]
    omega
  · have hleft := chunksLeft_le h (by rw [hp]; rfl)
    simp only [stepsLeft, hp]
    omega
  · have hleft := chunksLeft_le h (by rw [hp]; rfl)
    simp only [stepsLeft, hp]
    omega

theorem stepsLeft_wipe {t : State} (hp : t.st.phase = .wipe) : stepsLeft t = 1 := by
  simp only [stepsLeft, hp]

/-- No step but WIPE ends the operation (40_commands.md R110). -/
theorem phaseStep_stays_busy {s : State} (h : s.SeqInv) (hp : s.st.phase ≠ .idle)
    (hw : s.st.phase ≠ .wipe) : (phaseStep s).st.phase ≠ .idle := by
  obtain ⟨-, hop⟩ := phaseStep_status s hw
  have hbusy := mt h.op_none.1 hp
  rw [← hop] at hbusy
  exact mt (seqInv_phaseStep h hp).op_none.2 hbusy

theorem one_lt_stepsLeft {s : State} (h : s.SeqInv) (hp : s.st.phase ≠ .idle)
    (hw : s.st.phase ≠ .wipe) : 1 < stepsLeft s := by
  rw [stepsLeft]
  cases hph : s.st.phase with
  | idle => exact absurd hph hp
  | wipe => exact absurd hph hw
  | dec2 =>
    have := h.ctr_le_msgBlocks hph rfl
    dsimp only
    omega
  | _ => dsimp only; omega

/-- Every step of a busy engine but WIPE leaves fewer steps: a step to WIPE leaves one, and the others are a
case per phase, each by its row of the table. -/
theorem stepsLeft_phaseStep {s : State} (h : s.SeqInv) (hp : s.st.phase ≠ .idle)
    (hw : s.st.phase ≠ .wipe) : stepsLeft (phaseStep s) < stepsLeft s := by
  by_cases hwipe : (phaseStep s).st.phase = .wipe
  · rw [stepsLeft_wipe hwipe]
    exact one_lt_stepsLeft h hp hw
  have ht := seqInv_phaseStep h hp
  obtain ⟨-, hmlen, halen, -⟩ := phaseStep_operands s
  have hentry (hrow : (phaseStep s).st.phase = entryPhase s s.st.op) :
      stepsLeft (phaseStep s) ≤ 3 + 2 * msgBlocks s.mlen := by
    rw [← hmlen]
    refine stepsLeft_entry ht (op := s.st.op) ?_
    rw [hrow, entryPhase, entryPhase, hmlen]
  have hctr {p : Phase} (hph : s.st.phase = p) (hch : p.chunked = true) :=
    h.ctr_le_msgBlocks hph hch
  cases hph : s.st.phase with
  | idle => exact absurd hph hp
  | check =>
    obtain ⟨hpass, hfail⟩ := phaseStep_check_phase hph
    have hk : s.ContractOk := by_contra fun hk => hwipe (hfail hk)
    simp only [stepsLeft, hph, hpass hk, hmlen, halen]
    omega
  | b0 =>
    have hrow := phaseStep_b0_phase hph
    split_ifs at hrow
    · simp only [stepsLeft, hph, hrow, hmlen, halen]
      omega
    · refine (hentry hrow).trans_lt ?_
      simp only [stepsLeft, hph]
      omega
  | aad =>
    obtain ⟨_, hlt⟩ := h.aad_index hph
    obtain ⟨hj, hrow⟩ := phaseStep_aad_ok hph (h.alen_lt hph) hlt
      (mt (phaseStep_aad_error hph) hwipe)
    split_ifs at hrow
    · simp only [stepsLeft, hph, hrow, hmlen, halen, hj]
      omega
    · refine (hentry hrow).trans_lt ?_
      simp only [stepsLeft, hph]
      omega
  | enc =>
    have hle := hctr hph rfl
    obtain ⟨hnext, hrow⟩ := phaseStep_enc_ok hph hle (mt (phaseStep_enc_error hph) hwipe)
    split_ifs at hrow <;> simp only [stepsLeft, hph, hrow, hmlen, hnext] <;> omega
  | dec1 =>
    have hle := hctr hph rfl
    obtain ⟨hnext, hrow⟩ := phaseStep_dec1_ok hph hle (mt (phaseStep_dec1_error hph) hwipe)
    split_ifs at hrow <;> simp only [stepsLeft, hph, hrow, hmlen, hnext] <;> omega
  | final =>
    have hrow := phaseStep_final_phase hph
    split_ifs at hrow
    · exact absurd hrow hwipe
    · simp only [stepsLeft, hph, hrow, hmlen]
      omega
  | verify =>
    have hrow := phaseStep_verify_phase hph
    split_ifs at hrow
    · have hleft := chunksLeft_le ht (by rw [hrow]; rfl)
      rw [hmlen] at hleft
      simp only [stepsLeft, hph, hrow, hmlen]
      omega
    · exact absurd hrow hwipe
  | dec2 =>
    have hle := hctr hph rfl
    obtain ⟨hnext, hrow⟩ := phaseStep_dec2_ok hph hle (mt (phaseStep_dec2_error hph) hwipe)
    split_ifs at hrow
    · simp only [stepsLeft, hph, hrow, hmlen, hnext]
      omega
    · exact absurd hrow hwipe
  | wipe => exact absurd hph hw

/-- A busy engine that runs alone completes within the steps left: induction on their number. -/
theorem run_completes (n : Nat) : ∀ s : State, s.SeqInv → s.st.phase ≠ .idle → s.inputs = [] →
    stepsLeft s ≤ n + 1 → ∃ k t, k ≤ n + 1 ∧ Host.Core.run core k s = .next t ∧
      t.st = Engine.idle ∧ t.status.done = true := by
  induction n with
  | zero =>
    intro s h hp hi hn
    have hw : s.st.phase = .wipe := by_contra fun hw =>
      absurd (one_lt_stepsLeft h hp hw) (Nat.not_lt.2 hn)
    exact ⟨1, _, le_rfl, run_wipe s hi hw, rfl, rfl⟩
  | succ n ih =>
    intro s h hp hi hn
    by_cases hw : s.st.phase = .wipe
    · exact ⟨1, _, by omega, run_wipe s hi hw, rfl, rfl⟩
    have hu := seqInv_counted h (s.steps + 1)
    have hless : stepsLeft (phaseStep { s with steps := s.steps + 1 }) < stepsLeft s :=
      stepsLeft_phaseStep hu hp hw
    obtain ⟨k, t, hk, hrun, hdone⟩ := ih _ (seqInv_phaseStep hu hp) (phaseStep_stays_busy hu hp hw)
      ((phaseStep_untouched _).inputs.trans hi) (by omega)
    exact ⟨k + 1, t, by omega, (run_engine_succ hi hp k).trans hrun, hdone⟩

/-- Settles O57: no phase has more steps left than CHECK. -/
theorem busyCommandCompletes : Obligations.BusyCommandCompletes := by
  intro s h hp hi
  have hle := stepsLeft_le s
  obtain ⟨k, t, hk, hrun, hst, hdone⟩ :=
    run_completes (4 + aadBlocks s.alen + 2 * msgBlocks s.mlen) s h hp hi (by omega)
  exact ⟨k, t, by omega, hrun, hst, hdone⟩

/-! ## The reference functions (40_commands.md R111 to R113) -/

theorem ccmEnc_eq (E : Block → Block) (nonce A P : List Byte) :
    ccmEnc E nonce A P = (masked E nonce P, xorBlock (E (ctrBlock nonce 0))
      ((List.range (msgBlocks P.length)).foldl (fun mac j => macStep E mac (piece P j))
        (ccmAadMac E nonce A P.length))) := rfl

theorem ccmOpen_eq (E : Block → Block) (nonce A C : List Byte) :
    ccmOpen E nonce A C = (masked E nonce C, xorBlock (E (ctrBlock nonce 0))
      ((List.range (msgBlocks C.length)).foldl
        (fun mac j => macStep E mac (xorBytes (piece C j) (E (ctrBlock nonce (j + 1)))))
        (ccmAadMac E nonce A C.length))) := rfl

/-- Each piece of a masked message, masked again, is the piece of the message. -/
theorem piece_masked_twice (E : Block → Block) (nonce X : List Byte) {j : Nat}
    (hj : j < msgBlocks X.length) :
    xorBytes (piece (masked E nonce X) j) (E (ctrBlock nonce (j + 1))) = piece X j := by
  rw [piece_masked E nonce X hj]
  exact xorBytes_xorBytes _ (by rw [length_piece]; exact chunkLen_le _ _)

theorem masked_masked (E : Block → Block) (nonce X : List Byte) :
    masked E nonce (masked E nonce X) = X := by
  have hpieces : masked E nonce (masked E nonce X) =
      (List.range (msgBlocks X.length)).flatMap (piece X) := by
    rw [masked, length_masked]
    exact List.flatMap_congr fun j hj => piece_masked_twice E nonce X (List.mem_range.1 hj)
  rw [hpieces]
  exact piece_flatten _ _ (by simp only [msgBlocks]; omega)

/-- CCM_Dec recovers the plaintext of CCM_Enc and computes the same tag: its MAC is over the pieces that
CCM_Enc absorbed. -/
theorem ccmOpen_masked (E : Block → Block) (nonce A P : List Byte) :
    ccmOpen E nonce A (masked E nonce P) = (P, (ccmEnc E nonce A P).2) := by
  have hmac (m : Block) : (List.range (msgBlocks P.length)).foldl (fun mac j => macStep E mac
        (xorBytes (piece (masked E nonce P) j) (E (ctrBlock nonce (j + 1))))) m =
      (List.range (msgBlocks P.length)).foldl (fun mac j => macStep E mac (piece P j)) m :=
    List.foldl_ext _ _ _ fun mac j hj => by rw [piece_masked_twice E nonce P (List.mem_range.1 hj)]
  rw [ccmOpen_eq, masked_masked, length_masked, hmac, ccmEnc_eq]

/-- Settles O55: the tags are equal and the recovered message is the plaintext. -/
theorem ccmRoundTrip : Obligations.CcmRoundTrip := by
  intro E nonce A P
  have hopen : ccmOpen E nonce A (ccmEnc E nonce A P).1 = (P, (ccmEnc E nonce A P).2) :=
    ccmOpen_masked E nonce A P
  rw [ccmDec, hopen, if_pos rfl]

/-! ## FINAL and VERIFY of a whole command (44_tag_finalizer.md R190, 45_decrypt.md R203) -/

theorem stepFinal_enc {s : State} (E : Block → Block) (hop : s.st.op = .enc) :
    stepFinal E s = { s with
      data := s.data.withTag (xorBlock (E (ctrBlock s.nonce 0)) s.st.mac)
      st := { s.st with
        s0 := E (ctrBlock s.nonce 0), cand := xorBlock (E (ctrBlock s.nonce 0)) s.st.mac
        pend := .ok, phase := .wipe }
      calls := ctrBlock s.nonce 0 :: s.calls } := by
  simp only [stepFinal, if_pos hop]

theorem stepFinal_dec {s : State} (E : Block → Block) (hop : s.st.op = .dec) :
    stepFinal E s = { s with
      st := { s.st with
        s0 := E (ctrBlock s.nonce 0), cand := xorBlock (E (ctrBlock s.nonce 0)) s.st.mac
        phase := .verify }
      calls := ctrBlock s.nonce 0 :: s.calls } := by
  simp only [stepFinal, if_neg (show s.st.op ≠ .enc by rw [hop]; decide)]
  rfl

theorem accept_empty {s : State} (hn : msgBlocks s.mlen = 0) :
    accept s = { s with st := { s.st with ctr := 1, pend := .ok, phase := .wipe } } := by
  simp only [accept, hn, if_true]

theorem accept_nonempty {s : State} (hn : msgBlocks s.mlen ≠ 0) :
    accept s = { s with st := { s.st with ctr := 1, phase := .dec2 } } := by
  simp only [accept, if_neg hn]
  rfl

/-- One engine step of a command under way. -/
theorem Reached.run_one {s u : State} {op : Op} {ph : Phase} {ctr nc : Nat} {mac : Block}
    {reqs : List MemRequest} (h : Reached s op ph ctr mac u reqs nc) (hne : ph ≠ .idle) :
    Host.Core.run core 1 u = .next (phaseStep { u with steps := u.steps + 1 }) :=
  run_engine_succ h.same.inputs (by rw [h.phase]; exact hne) 0

/-- The tag of a command whose MAC is `mac` (44_tag_finalizer.md R190). -/
def commandTag (s : State) (mac : Block) : Block :=
  xorBlock (Config.cipher s.key (ctrBlock s.nonce 0)) mac

/-- FINAL and WIPE of an ENCRYPT. -/
theorem run_finalEnc {s u : State} {ctr nc : Nat} {mac : Block} {reqs : List MemRequest}
    (h : Reached s .enc .final ctr mac u reqs nc) :
    ∃ t, Host.Core.run core 2 u = .next t ∧ t.st = Engine.idle ∧ t.status.done = true ∧
      t.status.result = .ok ∧ t.tagReg = commandTag s mac ∧ t.mem = u.mem ∧
      t.calls.length = nc + 1 ∧ t.requests.reverse = reqs := by
  let v : State := { u with steps := u.steps + 1 }
  have hfinal : phaseStep v = stepFinal (Config.cipher v.key) v := by
    simp only [phaseStep, show v.st.phase = .final from h.phase]
  rw [stepFinal_enc (s := v) _ h.op] at hfinal
  have hone := h.run_one (by decide)
  rw [hfinal] at hone
  obtain ⟨-, -, hnonce, -⟩ := h.same.derived
  refine ⟨_, (run_add hone 1).trans (run_wipe _ h.same.inputs rfl), rfl, rfl, rfl, ?_, rfl, ?_, h.req⟩
  · refine (tagReg_of_withTag rfl).trans ?_
    show xorBlock (Config.cipher u.key (ctrBlock u.nonce 0)) u.st.mac = _
    rw [h.same.key, hnonce, h.mac, commandTag]
  · exact congrArg (· + 1) h.calls

/-- FINAL of a DECRYPT: the candidate tag. -/
theorem run_finalDec {s u : State} {ctr nc : Nat} {mac : Block} {reqs : List MemRequest}
    (h : Reached s .dec .final ctr mac u reqs nc) :
    ∃ t, Host.Core.run core 1 u = .next t ∧ t.st.cand = commandTag s mac ∧ t.mem = u.mem ∧
      Reached s .dec .verify ctr mac t reqs (nc + 1) := by
  let v : State := { u with steps := u.steps + 1 }
  have hfinal : phaseStep v = stepFinal (Config.cipher v.key) v := by
    simp only [phaseStep, show v.st.phase = .final from h.phase]
  rw [stepFinal_dec (s := v) _ h.op] at hfinal
  have hone := h.run_one (by decide)
  rw [hfinal] at hone
  obtain ⟨-, -, hnonce, -⟩ := h.same.derived
  obtain ⟨⟨hctrl, hdata, hkey, hbus, hin⟩, hop, -, hctr, hpend, hmac, hreq, hcalls⟩ := h
  refine ⟨_, hone, ?_, rfl, ⟨hctrl, hdata, hkey, hbus, hin⟩, hop, rfl, hctr, hpend, hmac, hreq,
    congrArg (· + 1) hcalls⟩
  show xorBlock (Config.cipher u.key (ctrBlock u.nonce 0)) u.st.mac = _
  rw [hkey, hnonce, hmac, commandTag]

/-- VERIFY on a match (45_decrypt.md R204): to DEC2, or to WIPE when there is nothing to release. -/
theorem run_accept {s u : State} {ctr nc : Nat} {mac : Block} {reqs : List MemRequest}
    (h : Reached s .dec .verify ctr mac u reqs nc) (htag : u.st.cand = s.tagReg) :
    ∃ t, Host.Core.run core 1 u = .next t ∧ t.mem = u.mem ∧
      Reached s .dec (if msgBlocks s.mlen = 0 then .wipe else .dec2) 1 mac t reqs nc := by
  let v : State := { u with steps := u.steps + 1 }
  obtain ⟨hmlen, -, -, -, -, -, hreg, -⟩ := h.same.derived
  have hverify : phaseStep v = accept v := by
    simp only [phaseStep, show v.st.phase = .verify from h.phase]
    exact stepVerify_match (htag.trans hreg.symm)
  have hone := h.run_one (by decide)
  rw [hverify] at hone
  obtain ⟨⟨hctrl, hdata, hkey, hbus, hin⟩, hop, -, -, hpend, hmac, hreq, hcalls⟩ := h
  by_cases hn : msgBlocks s.mlen = 0
  · rw [accept_empty (s := v) (hmlen.symm ▸ hn)] at hone
    rw [if_pos hn]
    exact ⟨_, hone, rfl, ⟨hctrl, hdata, hkey, hbus, hin⟩, hop, rfl, rfl, rfl, hmac, hreq, hcalls⟩
  · rw [accept_nonempty (s := v) (hmlen.symm ▸ hn)] at hone
    rw [if_neg hn]
    exact ⟨_, hone, rfl, ⟨hctrl, hdata, hkey, hbus, hin⟩, hop, rfl, rfl, hpend, hmac, hreq, hcalls⟩

/-- VERIFY and WIPE when the tags differ (45_decrypt.md R205). -/
theorem run_reject {s u : State} {ctr nc : Nat} {mac : Block} {reqs : List MemRequest}
    (h : Reached s .dec .verify ctr mac u reqs nc) (htag : u.st.cand ≠ s.tagReg) :
    ∃ t, Host.Core.run core 2 u = .next t ∧ t.st = Engine.idle ∧ t.status.done = true ∧
      t.status.result = .authenticationFailure ∧ t.data = s.data ∧ t.mem = u.mem ∧
      t.calls.length = nc ∧ t.requests.reverse = reqs := by
  let v : State := { u with steps := u.steps + 1 }
  obtain ⟨-, -, -, -, -, -, hreg, -⟩ := h.same.derived
  have hverify : phaseStep v = raise .authenticationFailure v := by
    simp only [phaseStep, show v.st.phase = .verify from h.phase]
    exact stepVerify_differ (s := v) (fun e => htag (e.trans hreg))
  have hone := h.run_one (by decide)
  rw [hverify] at hone
  exact ⟨_, (run_add hone 1).trans (run_wipe _ h.same.inputs rfl), rfl, rfl, rfl, h.same.data, rfl,
    h.calls, h.req⟩

/-- The release of a whole message: the DEC2 loop, which an empty message has not, and WIPE
(45_decrypt.md R206). -/
theorem run_release {s u : State} {nc : Nat} {mac : Block} {reqs : List MemRequest}
    (hq : ∀ i, 1 ≤ i → i ≤ msgBlocks s.mlen →
      s.busOk (s.readRequest i) = true ∧ s.busOk (s.writeRequest i) = true)
    (hov : s.outAddr = s.inAddr ∨
      ∀ a, inBuffer s.inAddr s.mlen a = true → inBuffer s.outAddr s.mlen a = false)
    (hm : u.mem = s.mem)
    (h : Reached s .dec (if msgBlocks s.mlen = 0 then .wipe else .dec2) 1 mac u reqs nc) :
    ∃ t, Host.Core.run core (msgBlocks s.mlen + 1) u = .next t ∧ t.st = Engine.idle ∧
      t.status.done = true ∧ t.status.result = .ok ∧ t.data = s.data ∧
      Memory.Written s (masked (Config.cipher s.key) s.nonce
        (Memory.readBytes s.mem s.inAddr s.mlen)) (msgBlocks s.mlen) t.mem ∧
      t.calls.length = nc + msgBlocks s.mlen ∧
      t.requests.reverse = reqs ++ (List.range (msgBlocks s.mlen)).flatMap
        fun i => [s.readRequest (i + 1), s.writeRequest (i + 1)] := by
  obtain ⟨v, hv, hmem, hat⟩ : ∃ v, Host.Core.run core (msgBlocks s.mlen) u = .next v ∧
      Memory.Written s (masked (Config.cipher s.key) s.nonce
        (Memory.readBytes s.mem s.inAddr s.mlen)) (msgBlocks s.mlen) v.mem ∧
      Reached s .dec .wipe (msgBlocks s.mlen + 1) mac v (reqs ++ (List.range (msgBlocks s.mlen)).flatMap
        fun i => [s.readRequest (i + 1), s.writeRequest (i + 1)]) (nc + msgBlocks s.mlen) := by
    by_cases hn : msgBlocks s.mlen = 0
    · rw [if_pos hn] at h
      rw [hn]
      exact ⟨u, rfl, written_zero _ hm, by simpa using h⟩
    · rw [if_neg hn] at h
      have hloop := run_dec2Loop (k := 0) (Nat.pos_of_ne_zero hn) hov hq rfl hm h _ le_rfl
      rwa [Nat.zero_add, if_pos rfl] at hloop
  exact ⟨_, (run_add hv 1).trans (run_wipe v hat.same.inputs hat.phase), rfl, rfl, hat.pend,
    hat.same.data, hmem, hat.calls, hat.req⟩

/-! ## Whole commands (40_commands.md R111, R112) -/

/-- Settles O53: CHECK, B0 and the AAD, then the ENC loop, then FINAL and WIPE. -/
theorem encryptComputesCcm : Obligations.EncryptComputesCcm := by
  intro s t0 hidle hin hk haad hq hov hstart A P R
  have hp : s.st.phase = .idle := by rw [hidle]; rfl
  cases (exec_encrypt_idle hp).symm.trans hstart
  have hPlen : P.length = s.mlen := Memory.length_readBytes _ _ _
  have hR : R = (masked (Config.cipher s.key) s.nonce P, commandTag s
      ((List.range (msgBlocks s.mlen)).foldl (fun mac j => macStep (Config.cipher s.key) mac (piece P j))
        (macAfterAad s (aadBlocks s.alen)))) := by
    rw [macAfterAad_all, ← hPlen]
    exact ccmEnc_eq _ _ _ _
  obtain ⟨t1, hrun1, hmem1, hat1⟩ := run_toPayload s .enc hin hk haad
  obtain ⟨t2, hrun2, hmem2, hat2⟩ := run_encLoop hov hq hrun1 hmem1 hat1 _ le_rfl
  rw [if_pos rfl] at hat2
  obtain ⟨t, hrun, hst, hdone, hresult, htag, hmem, hcalls, hreq⟩ := run_finalEnc hat2
  obtain ⟨hout, hframe⟩ := written_all hmem2 (by rw [length_masked, hPlen])
  refine ⟨t, ?_, hst, hdone, hresult, ?_, ?_, ?_, ?_, hreq⟩
  · rw [show 4 + aadBlocks s.alen + msgBlocks s.mlen = 2 + aadBlocks s.alen + msgBlocks s.mlen + 2 by
      omega, run_add hrun2, hrun]
  · rw [htag, hR]
  · rw [hmem, hR, hout]
  · rw [hmem]
    exact hframe
  · rw [hcalls]
    omega

/-- Settles O54: CHECK, B0 and the AAD, the DEC1 loop and FINAL give the candidate tag of CCM_Dec; then
VERIFY releases the message or rejects it. -/
theorem decryptComputesCcm : Obligations.DecryptComputesCcm := by
  intro s t0 hidle hin hk haad hq hov hstart A C
  have hp : s.st.phase = .idle := by rw [hidle]; rfl
  cases (exec_decrypt_idle hp).symm.trans hstart
  have hClen : C.length = s.mlen := Memory.length_readBytes _ _ _
  have hopen : ccmOpen (Config.cipher s.key) s.nonce A C = (masked (Config.cipher s.key) s.nonce C,
      commandTag s ((List.range (msgBlocks s.mlen)).foldl
        (fun mac j => macStep (Config.cipher s.key) mac
          (xorBytes (piece C j) (Config.cipher s.key (ctrBlock s.nonce (j + 1)))))
        (macAfterAad s (aadBlocks s.alen)))) := by
    rw [macAfterAad_all, ← hClen]
    exact ccmOpen_eq _ _ _ _
  obtain ⟨t1, hrun1, hmem1, hat1⟩ := run_toPayload s .dec hin hk haad
  obtain ⟨t2, hrun2, hmem2, hat2⟩ :=
    run_dec1Loop (fun i h1 h2 => (hq i h1 h2).1) hrun1 hmem1 hat1 _ le_rfl
  rw [if_pos rfl] at hat2
  obtain ⟨t3, hrun3, hcand, hmem3, hat3⟩ := run_finalDec hat2
  have htoVerify := run_add hrun2 1
  rw [hrun3] at htoVerify
  have hdec : ccmDec (Config.cipher s.key) s.nonce A C s.tagReg =
      if t3.st.cand = s.tagReg then some (masked (Config.cipher s.key) s.nonce C) else none := by
    rw [ccmDec, hopen, hcand]
  refine ⟨fun P hP => ?_, fun hnone => ?_⟩
  · rw [hdec] at hP
    split_ifs at hP with hmatch
    cases hP
    obtain ⟨t4, hrun4, hmem4, hat4⟩ := run_accept hat3 hmatch
    obtain ⟨t, hrun, hst, hdone, hresult, hdata, hmem, hcalls, hreq⟩ :=
      run_release hq hov (hmem4.trans (hmem3.trans hmem2)) hat4
    obtain ⟨hout, hframe⟩ := written_all hmem (by rw [length_masked, hClen])
    refine ⟨t, ?_, hst, hdone, hresult, hdata, hout, hframe, ?_, hreq⟩
    · rw [show 5 + aadBlocks s.alen + 2 * msgBlocks s.mlen =
        2 + aadBlocks s.alen + msgBlocks s.mlen + 1 + 1 + (msgBlocks s.mlen + 1) by omega,
        run_add ((run_add htoVerify 1).trans hrun4), hrun]
    · rw [hcalls]
      omega
  · rw [hdec] at hnone
    split_ifs at hnone with hmatch
    obtain ⟨t, hrun, hst, hdone, hresult, hdata, hmem, hcalls, hreq⟩ := run_reject hat3 hmatch
    refine ⟨t, ?_, hst, hdone, hresult, hdata, hmem.trans (hmem3.trans hmem2), ?_, hreq⟩
    · rw [show 5 + aadBlocks s.alen + msgBlocks s.mlen =
        2 + aadBlocks s.alen + msgBlocks s.mlen + 1 + 2 by omega, run_add htoVerify, hrun]
    · rw [hcalls]
      omega

end Sys2Proof.Machine

namespace Sys2Proof.Machine

/-! PROOFS. The family 41_nonce_formatter.md: CHECK (O19) and the B0 step (O20). -/

/-! ## CHECK (41_nonce_formatter.md R131, 60_exceptions.md R232) -/

theorem exec_check (s : State) : exec .check s = .next (stepCheck s) := rfl

/-- When the contract fails, CHECK raises the code of the first test that fails. -/
theorem exec_check_of_checkCode {s : State} {c : Result} (hk : ¬ s.ContractOk) (hc : checkCode s = c) :
    exec .check s = .next { s with st := { s.st with pend := c, phase := .wipe } } := by
  subst hc
  rw [exec_check, stepCheck_fail hk]
  rfl

/-- Settles O19: one clause for each test of the contract, and the last for a contract that holds. -/
theorem checkTestsContract : Obligations.CheckTestsContract := by
  intro s
  refine ⟨fun hlen => ?nonceLength, fun h7 h13 => ?_⟩
  case nonceLength =>
    refine exec_check_of_checkCode ?_ (if_pos hlen)
    rintro ⟨h7, h13, -, -⟩
    omega
  have hlen : ¬ (s.nonceLen < 7 ∨ 13 < s.nonceLen) := by omega
  refine ⟨fun hm => ?messageSize, fun hm => ⟨fun ha => ?aadSize, fun ha => ?pass⟩⟩
  case messageSize =>
    refine exec_check_of_checkCode ?_ ((if_neg hlen).trans (if_pos hm))
    rintro ⟨-, -, hlt, -⟩
    exact hlt.not_ge hm
  case aadSize =>
    refine exec_check_of_checkCode ?_ ((if_neg hlen).trans (if_neg hm.not_ge))
    rintro ⟨-, -, -, hlt⟩
    exact hlt.not_ge ha
  case pass =>
    rw [exec_check, stepCheck_pass ⟨h7, h13, hm, ha⟩]
    rfl

/-! ## B0 (41_nonce_formatter.md R135, 40_commands.md R110) -/

theorem exec_b0 (s : State) : exec .b0 s = .next (stepB0 (Config.cipher s.key) s) := rfl

/-- Settles O20: with AAD the engine goes on to its first block, without AAD to PayloadEntry. -/
theorem b0StartsMac : Obligations.B0StartsMac := by
  intro s
  rw [exec_b0, stepB0]
  by_cases ha : 0 < s.alen
  · simp only [if_pos ha]
  · simp only [if_neg ha, payloadEntry_eq]
    rfl

end Sys2Proof.Machine

namespace Sys2Proof.Machine

/-! PROOFS. The family 42_mac_aad.md: the AAD step (O21) and the AAD requests (O22). -/

/-! ## The AAD step (42_mac_aad.md R153 to R155) -/

theorem exec_aad (s : State) : exec .aad s = .next (stepAad (Config.cipher s.key) s) := rfl

/-- Settles O21: the block absorbed is `aadInput_eq_piece`; the last block alone goes on to PayloadEntry. -/
theorem aadStepAbsorbsBlock : Obligations.AadStepAbsorbsBlock := by
  intro s hp ha hj hok x
  have hx : aadInput s.alen s.st.aj.toNat (Memory.readBytes s.mem
      (s.aadRequest s.st.aj.toNat).addr (s.aadRequest s.st.aj.toNat).n) = x := aadInput_eq_piece s _ hj
  have hsucc : (s.st.aj + 1).toNat = s.st.aj.toNat + 1 := by
    have := aadBlocks_le ha
    exact succ_toNat (by omega)
  rw [exec_aad, stepAad_ok _ hok, hsucc]
  by_cases hlast : s.st.aj.toNat + 1 = aadBlocks s.alen
  · rw [if_pos hlast, if_neg (Nat.not_lt.2 hlast.ge), payloadEntry_eq, aadAbsorbed, hx]
    rfl
  · rw [if_neg hlast, if_pos (Nat.lt_of_le_of_ne hj hlast), aadAbsorbed, hx, ← hp]
    rfl

/-! ## The AAD requests (42_mac_aad.md R154) -/

/-- How many AAD bytes the first `n` blocks of the stream hold. -/
def aadCovered (alen n : Nat) : Nat := min (16 * n) (prefixLen alen + alen) - prefixLen alen

theorem aadCovered_zero (a : Nat) : aadCovered a 0 = 0 := by simp [aadCovered]

/-- AadRead(j) starts at the first AAD byte that the blocks before it leave. -/
theorem aadFirst_sub_prefixLen {a j : Nat} (h : j < aadBlocks a) :
    aadFirst a j - prefixLen a = aadCovered a j := by
  have := aadSpan_pos h
  simp only [aadFirst, aadEnd, aadCovered] at *
  omega

theorem aadCovered_succ {a j : Nat} (h : j < aadBlocks a) :
    aadCovered a (j + 1) = aadCovered a j + (aadEnd a j - aadFirst a j) := by
  have := aadSpan_pos h
  simp only [aadFirst, aadEnd, aadCovered] at *
  omega

theorem aadCovered_aadBlocks (a : Nat) : aadCovered a (aadBlocks a) = a := by
  simp only [aadCovered, aadBlocks]
  split_ifs <;> omega

/-- The addresses that one AAD request reads, in order. -/
def MemRequest.addresses (r : MemRequest) : List Addr :=
  (List.range r.n).map fun k => r.addr + BitVec.ofNat 64 k

/-- AadRead(j) reads on from where the requests before it end. -/
theorem addresses_aadRequest (s : State) {j : Nat} (h : j < aadBlocks s.alen) :
    (s.aadRequest j).addresses = (List.range (aadEnd s.alen j - aadFirst s.alen j)).map
      fun k => s.aadAddr + BitVec.ofNat 64 (aadCovered s.alen j + k) := by
  simp only [MemRequest.addresses, State.aadRequest, aadFirst_sub_prefixLen h, BitVec.ofNat_add,
    BitVec.add_assoc]

/-- The first `n` AAD requests read the AAD bytes of the first `n` blocks, in order. -/
theorem addresses_aadRequests (s : State) (n : Nat) (hn : n ≤ aadBlocks s.alen) :
    ((List.range n).flatMap fun j => (s.aadRequest j).addresses) =
      (List.range (aadCovered s.alen n)).map fun k => s.aadAddr + BitVec.ofNat 64 k := by
  induction n with
  | zero => simp [aadCovered_zero]
  | succ n ih =>
    rw [List.range_succ, List.flatMap_append, ih (by omega), List.flatMap_singleton,
      addresses_aadRequest s hn, aadCovered_succ hn, List.range_add, List.map_append, List.map_map]
    rfl

/-- Settles O22: each request has 1 to 16 bytes, and the requests of all blocks cover the AAD. -/
theorem aadRequestsCoverAad : Obligations.AadRequestsCoverAad := by
  intro s _
  refine ⟨fun j hj => ⟨Nat.sub_pos_of_lt (aadSpan_pos hj), aadSpan_le _ _⟩, ?_⟩
  have hall := addresses_aadRequests s _ le_rfl
  rwa [aadCovered_aadBlocks] at hall

end Sys2Proof.Machine

namespace Sys2Proof.Machine

/-! PROOFS. The family 43_payload_encrypt.md: the ENC step (O23). -/

/-! ## The ENC step (43_payload_encrypt.md R171) -/

/-- A chunk loop that ends in a phase: the counter goes up, and the last chunk alone changes the phase. -/
theorem nextChunk_toPhase {i : BitVec 64} (p : Phase) {u : State} (hi : i.toNat ≤ msgBlocks u.mlen) :
    nextChunk i (State.toPhase p) u = { u with st := { u.st with
      ctr := i + 1
      phase := if i.toNat = msgBlocks u.mlen then p else u.st.phase } } := by
  have hlt : i.toNat < 2 ^ 64 - 1 := by
    have := msgBlocks_mlen_le u
    omega
  by_cases hn : i.toNat = msgBlocks u.mlen
  · rw [nextChunk_last hlt hn, if_pos hn]
    rfl
  · rw [nextChunk_more hlt hn, if_neg hn]

theorem exec_enc (s : State) :
    exec .enc s = .next (stepEnc (Config.cipher s.key) Config.freeSubset s) := rfl

/-- Settles O23: the next state is `stepEnc_ok`, and its memory that of `wrote_mem`. -/
theorem encStepEncryptsChunk : Obligations.EncStepEncryptsChunk := by
  intro s hp _ hi hread hwrite i n p ks
  obtain ⟨hinside, houtside⟩ := wrote_mem (Config.cipher s.key) s (encReady (Config.cipher s.key) s)
  refine ⟨_, ?_, hinside, houtside⟩
  rw [exec_enc, stepEnc_ok _ _ hread hwrite,
    nextChunk_toPhase .final (u := wrote _ s (encReady _ s)) hi, ← hp]
  rfl

end Sys2Proof.Machine

namespace Sys2Proof.Machine

/-! PROOFS. The family 44_tag_finalizer.md: the FINAL step of an ENCRYPT (O26) and of a DECRYPT (O27). -/

/-! ## The FINAL step (44_tag_finalizer.md R190) -/

theorem exec_final (s : State) : exec .final s = .next (stepFinal (Config.cipher s.key) s) := rfl

/-- Byte `k` of the tag registers after a tag is written to them (10_state.md R28). -/
theorem tagByte_withTag (s : State) (d : DataRegs) (t : Block) {k : Nat} (hk : k < 16) :
    ({ s with data := d.withTag t } : State).tagByte k = t[k] := by
  have hreg : ({ s with data := d.withTag t } : State).tagReg = t := tagReg_of_withTag rfl
  rw [← getElem_tagReg _ k hk]
  simp only [hreg]

/-- Settles O26: the next state is `stepFinal_enc`; the tag registers hold S0 XOR mac (`tagByte_withTag`) and
the others what they held (`withTag_get`). -/
theorem finalWritesEncryptTag : Obligations.FinalWritesEncryptTag := by
  intro s hop c s0
  refine ⟨s.data.withTag (xorBlock s0 s.st.mac), ?_, fun k hk => ?_, fun r h0 h1 h2 h3 => ?_⟩
  · rw [exec_final, stepFinal_enc _ hop]
  · rw [tagByte_withTag s _ _ hk, getElem_xorBlock]
  · exact withTag_get _ _ r ⟨h0, h1, h2, h3⟩

/-- Settles O27: the branch of `stepFinal` that goes to VERIFY keeps the registers. -/
theorem finalKeepsDecryptTag : Obligations.FinalKeepsDecryptTag := by
  intro s hop
  rw [exec_final, stepFinal, if_neg hop]
  rfl

end Sys2Proof.Machine

namespace Sys2Proof.Machine

/-! PROOFS. The family 45_decrypt.md: the DEC1, DEC2 and VERIFY steps (O24, O25, O28), where the engine writes
memory (O49), and release only after authentication (O48). -/

/-! ## Release only after authentication (45_decrypt.md R207) -/

/-- The rule speaks of the engine state and the record of requests only. -/
theorem releaseInv_congr {s t : State} (hst : t.st = s.st) (hreq : t.requests = s.requests)
    (h : s.ReleaseInv) : t.ReleaseInv := by
  simpa only [State.ReleaseInv, hst, hreq] using h

theorem releaseInv_idle {t : State} (h : t.st = Engine.idle) : t.ReleaseInv := by
  simp [State.ReleaseInv, h, Engine.idle]

/-- A command start empties the record, and no other host write touches it or the engine state. -/
theorem releaseInv_hostWrite {s : State} (off : BitVec 8) (v : Word) (h : s.ReleaseInv) :
    (hostWrite off v s).ReleaseInv := by
  have hkept {u : State} (hst : u.st = s.st) (hreq : u.requests = s.requests) : u.ReleaseInv :=
    releaseInv_congr hst hreq h
  rcases hostWrite_cases off v s with ⟨_, e⟩ | e | ⟨_, e | e | ⟨op, _, e⟩ | e | ⟨r, e⟩⟩ <;> rw [e]
  · exact hkept rfl rfl
  · exact hkept rfl rfl
  · exact hkept rfl rfl
  · exact hkept rfl rfl
  · exact fun _ _ => List.forall_mem_nil _
  · exact hkept rfl rfl
  · exact hkept rfl rfl

/-- DEC2 goes on, or ends with a result that the rule leaves out: OK or BUS_ERROR (45_decrypt.md R206). -/
theorem phaseStep_dec2_ends {s : State} (hp : s.st.phase = .dec2) :
    (phaseStep s).st.phase = .dec2 ∨ (phaseStep s).st.phase = .wipe ∧
      ((phaseStep s).st.pend = .ok ∨ (phaseStep s).st.pend = .busError) := by
  simp only [phaseStep, hp]
  cases hread : s.busOk (s.readRequest s.st.ctr.toNat) with
  | false =>
    rw [stepDec2_readError _ _ hread]
    exact .inr ⟨rfl, .inr rfl⟩
  | true =>
    cases hwrite : s.busOk (s.writeRequest s.st.ctr.toNat) with
    | false =>
      rw [stepDec2_writeError _ _ hread hwrite]
      exact .inr ⟨rfl, .inr rfl⟩
    | true =>
      rw [stepDec2_ok _ _ hread hwrite]
      rcases nextChunk_cases s.st.ctr (raise .ok) (wrote _ s (dec2Ready _ s)) with e | e <;> rw [e]
      · exact .inl hp
      · exact .inr ⟨rfl, .inl rfl⟩

/-- A DECRYPT that has not been accepted, in a state that the rule constrains: the premise of
`State.ReleaseInv`. -/
def State.Unaccepted (s : State) : Prop :=
  s.st.op = .dec ∧ (s.st.phase.beforeRelease = true ∨
    (s.st.phase = .wipe ∧ s.st.pend ≠ .ok ∧ s.st.pend ≠ .busError))

theorem releaseInv_iff (s : State) :
    s.ReleaseInv ↔ (s.Unaccepted → ∀ r ∈ s.requests, r.kind = .rd) := by
  simp only [State.ReleaseInv, State.Unaccepted, and_imp]

/-- A DECRYPT that an engine step leaves unaccepted was before its verdict already: ENC is of no DECRYPT, DEC2
ends in no constrained result, and WIPE ends the operation. -/
theorem beforeRelease_of_phaseStep {s : State} (h : s.SeqInv) (hbusy : s.st.phase ≠ .idle)
    (hu : (phaseStep s).Unaccepted) : s.st.op = .dec ∧ s.st.phase.beforeRelease = true := by
  obtain ⟨hop, hphase⟩ := hu
  have hwipe : s.st.phase ≠ .wipe := by
    intro hp
    rw [phaseStep_wipe hp] at hop
    cases hop
  rw [(phaseStep_status s hwipe).2] at hop
  refine ⟨hop, ?_⟩
  cases hp : s.st.phase
  case idle => exact absurd hp hbusy
  case wipe => exact absurd hp hwipe
  case enc => cases hop.symm.trans (h.enc_op hp)
  case dec2 =>
    rcases phaseStep_dec2_ends hp with e | ⟨e, hpend⟩ <;> rw [e] at hphase
    · simp [Phase.beforeRelease] at hphase
    · rcases hpend with hpend | hpend <;> simp [Phase.beforeRelease, hpend] at hphase
  all_goals rfl

theorem NoWrite.reads {s t : State} (h : NoWrite s t) (hs : ∀ r ∈ s.requests, r.kind = .rd) :
    ∀ r ∈ t.requests, r.kind = .rd := by
  obtain ⟨-, e | ⟨r, hr, e⟩⟩ := h <;> rw [e]
  · exact hs
  · exact List.forall_mem_cons.2 ⟨hr, hs⟩

/-- An engine step that leaves a DECRYPT unaccepted is of a phase that makes no write request. -/
theorem releaseInv_phaseStep {s : State} (hseq : s.SeqInv) (hbusy : s.st.phase ≠ .idle)
    (h : s.ReleaseInv) : (phaseStep s).ReleaseInv := by
  rw [releaseInv_iff]
  intro hu
  obtain ⟨hop, hbefore⟩ := beforeRelease_of_phaseStep hseq hbusy hu
  have hwrites : s.st.phase ≠ .enc ∧ s.st.phase ≠ .dec2 := by
    constructor <;> (intro hp; rw [hp] at hbefore; cases hbefore)
  exact (phaseStep_noWrite s hwrites.1 hwrites.2).reads (h hop (.inl hbefore))

/-- Settles O48: by the kinds of step (`step_next`), each with its own lemma about the rule. -/
theorem stepKeepsReleaseRule : Obligations.StepKeepsReleaseRule := by
  refine ⟨fun s t hseq h hstep => ?_, releaseInv_idle rfl⟩
  rcases step_next hstep with hsame | ⟨hbusy, l, rfl⟩ | ⟨l, off, v, rfl⟩ | ⟨_, hreset⟩
  · exact releaseInv_congr hsame.st hsame.requests h
  · exact releaseInv_phaseStep (seqInv_congr (s := s) rfl rfl rfl rfl rfl hseq) hbusy
      (releaseInv_congr (s := s) rfl rfl h)
  · exact releaseInv_hostWrite off v (releaseInv_congr (s := s) rfl rfl h)
  · exact releaseInv_idle hreset.st

/-- What `NoWrite` says, with the new requests as a list. -/
theorem NoWrite.newRequests {s t : State} (h : NoWrite s t) :
    t.mem = s.mem ∧ ∃ new : List MemRequest, t.requests = new ++ s.requests ∧ new.length ≤ 1 ∧
      ∀ r ∈ new, r.kind = .rd := by
  obtain ⟨hmem, e | ⟨r, hr, e⟩⟩ := h
  · exact ⟨hmem, [], e, Nat.zero_le 1, List.forall_mem_nil _⟩
  · exact ⟨hmem, [r], e, le_rfl, List.forall_mem_singleton.2 hr⟩

/-- Settles O49: the step is the engine's turn, and `phaseStep_noWrite` says which phases write. -/
theorem onlyEncAndDec2WriteMemory : Obligations.OnlyEncAndDec2WriteMemory := by
  intro s t hi hstep henc hdec2
  rw [step_nil hi, engineTurn_eq] at hstep
  split_ifs at hstep <;> cases hstep
  · exact NoWrite.newRequests ⟨rfl, .inl rfl⟩
  · exact (phaseStep_noWrite { s with steps := s.steps + 1 } henc hdec2).newRequests

/-! ## The chunk steps of a DECRYPT (45_decrypt.md R201, R202, R206) -/

theorem exec_dec1 (s : State) : exec .dec1 s = .next (stepDec1 (Config.cipher s.key) s) := rfl

theorem exec_dec2 (s : State) :
    exec .dec2 s = .next (stepDec2 (Config.cipher s.key) Config.freeSubset s) := rfl

/-- Settles O24: the next state is `stepDec1_ok`, its counter and phase those of `nextChunk_toPhase`. -/
theorem dec1StepAbsorbsPlaintext : Obligations.Dec1StepAbsorbsPlaintext := by
  intro s hp _ hi hread i c ks
  rw [exec_dec1, stepDec1_ok _ hread, nextChunk_toPhase .final (u := dec1Ready _ s) hi, ← hp]
  rfl

/-- A chunk loop that ends the command: the counter goes up, and the last chunk alone raises the result. -/
theorem nextChunk_raise {i : BitVec 64} (code : Result) {u : State} (hi : i.toNat ≤ msgBlocks u.mlen) :
    nextChunk i (raise code) u = { u with st := { u.st with
      ctr := i + 1
      pend := if i.toNat = msgBlocks u.mlen then code else u.st.pend
      phase := if i.toNat = msgBlocks u.mlen then .wipe else u.st.phase } } := by
  have hlt : i.toNat < 2 ^ 64 - 1 := by
    have := msgBlocks_mlen_le u
    omega
  by_cases hn : i.toNat = msgBlocks u.mlen
  · rw [nextChunk_last hlt hn, if_pos hn, if_pos hn]
    rfl
  · rw [nextChunk_more hlt hn, if_neg hn, if_neg hn]

/-- Settles O25: the next state is `stepDec2_ok`, and its memory that of `wrote_mem`. -/
theorem dec2StepReleasesChunk : Obligations.Dec2StepReleasesChunk := by
  intro s hp _ hi hread hwrite i n c ks
  obtain ⟨hinside, houtside⟩ := wrote_mem (Config.cipher s.key) s (dec2Ready (Config.cipher s.key) s)
  refine ⟨_, ?_, hinside, houtside⟩
  rw [exec_dec2, stepDec2_ok _ _ hread hwrite,
    nextChunk_raise .ok (u := wrote _ s (dec2Ready _ s)) hi, ← hp]
  rfl

/-! ## VERIFY (45_decrypt.md R203 to R205) -/

theorem exec_verify (s : State) : exec .verify s = .next (stepVerify s) := rfl

/-- Settles O28: equal bytes are an equal tag, for which VERIFY accepts; one byte apart, the tags differ. -/
theorem verifyComparesTag : Obligations.VerifyComparesTag := by
  intro s
  rw [exec_verify]
  refine ⟨fun hbytes => ?accept, fun ⟨k, hk, hne⟩ => ?reject⟩
  case accept =>
    have htag : s.st.cand = s.tagReg :=
      Vector.ext fun k hk => (hbytes k hk).trans (getElem_tagReg s k hk).symm
    rw [stepVerify_match htag]
    exact ⟨fun hn => by rw [accept_empty hn], fun hn => by rw [accept_nonempty hn]⟩
  case reject =>
    have htag : s.st.cand ≠ s.tagReg := fun e => hne (by simp only [e, getElem_tagReg])
    rw [stepVerify_differ htag]
    rfl

end Sys2Proof.Machine

namespace Sys2Proof.Machine

/-! PROOFS. The family 60_exceptions.md: a contract violation (O56), the WIPE step (O29) and the interrupt output
(O35). -/

/-! ## A contract violation (60_exceptions.md R230, R232, R241) -/

/-- A state of CHECK whose contract fails: the engine raises the code and completes, in two steps. -/
theorem run_check_fail {s : State} (hi : s.inputs = []) (hp : s.st.phase = .check) (hk : ¬ s.ContractOk) :
    Host.Core.run core 2 s =
      .next { complete (raise (checkCode s) s) with steps := s.steps + 2 } := by
  let u : State := { s with steps := s.steps + 1 }
  have hcheck : phaseStep u = raise (checkCode s) u := by
    rw [phaseStep, show u.st.phase = .check from hp]
    exact stepCheck_fail (s := u) hk
  rw [run_engine_succ hi (by rw [hp]; decide), hcheck]
  exact run_wipe _ hi rfl

/-- Settles O56: the command starts in CHECK with an empty record of the ports, and CHECK and WIPE make no
request and no cipher call. -/
theorem contractViolationLeaksNothing : Obligations.ContractViolationLeaksNothing := by
  intro s t0 i hi hidle hin hk hexec
  have hphase : s.st.phase = .idle := by rw [hidle]; rfl
  obtain ⟨op, hstart⟩ := exec_eq_startCommand hphase hi
  obtain rfl : startCommand op s = t0 := Host.Outcome.next.inj (hstart.symm.trans hexec)
  exact ⟨_, run_check_fail (s := startCommand op s) hin rfl hk, rfl, rfl, rfl, rfl, rfl, rfl, rfl, rfl⟩

/-! ## WIPE (60_exceptions.md R233) -/

theorem exec_wipe (s : State) : exec .wipe s = .next (complete s) := rfl

/-- Settles O29: WIPE is `complete`, which leaves the idle engine. -/
theorem wipeCompletes : Obligations.WipeCompletes := exec_wipe

/-! ## The interrupt output (60_exceptions.md R235, R236) -/

theorem irq_of_done {t : State} (h : t.status.done = true) : t.irq = t.ctrl.ie := by
  rw [State.irq, h, Bool.true_and]

theorem irq_of_not_done {t : State} (h : t.status.done = false) : t.irq = false := by
  rw [State.irq, h, Bool.false_and]

theorem statusWrite_ack_done (s : State) : (statusWrite 2 s).status.done = false := by
  simp [Status.clearBits]

/-- Settles O35: each event leaves DONE as a lemma above says, and irq is DONE AND IE. -/
theorem irqFollowsDoneAndIe : Obligations.IrqFollowsDoneAndIe := by
  intro s
  refine ⟨⟨_, exec_wipe s, irq_of_done rfl⟩,
    ⟨statusWrite 2 s, rfl, irq_of_not_done (statusWrite_ack_done s), rfl⟩,
    fun hp => ⟨?illegal, ?encrypt, ?decrypt, fun v => ?ctrl⟩⟩
  case illegal =>
    exact ⟨_, illegalCommandCompletes 3 s hp (by decide) (by decide) (by decide), irq_of_done rfl⟩
  case encrypt => exact ⟨_, exec_encrypt_idle hp, irq_of_not_done rfl⟩
  case decrypt => exact ⟨_, exec_decrypt_idle hp, irq_of_not_done rfl⟩
  case ctrl =>
    exact ⟨_, (exec_wr v s rfl).trans (congrArg Host.Outcome.next (hostWrite_idle .ctrl v hp)), rfl⟩

end Sys2Proof.Machine

namespace Sys2Proof.Machine

/-! PROOFS. The family 70_reset_and_hazards.md: control does not depend on data (O52), reset (O32, O33, O34, O45)
and the moves forbidden while BUSY (O36). -/

/-! ## The two steps that write a chunk (43_payload_encrypt.md R171, 45_decrypt.md R206) -/

/-- A step that writes a chunk: a failed read, a failed write, or a whole chunk. `ready` is the state after the
read and the cipher calls, and `last` ends the loop. -/
def chunkWrite (E : Block → Block) (free : Nat → BitVec 16) (ready : State) (last : State → State)
    (s : State) : State :=
  if s.busOk (s.readRequest s.st.ctr.toNat) = false then
    raise .busError (s.logRequest (s.readRequest s.st.ctr.toNat))
  else if s.busOk (s.writeRequest s.st.ctr.toNat) = false then raise .busError (wroteSome E free s ready)
  else nextChunk s.st.ctr last (wrote E s ready)

theorem stepEnc_eq (E : Block → Block) (free : Nat → BitVec 16) (s : State) :
    stepEnc E free s = chunkWrite E free (encReady E s) (State.toPhase .final) s := by
  rw [chunkWrite]
  split_ifs with hread hwrite
  · exact stepEnc_readError E free hread
  · exact stepEnc_writeError E free (Bool.eq_true_of_not_eq_false hread) hwrite
  · exact stepEnc_ok E free (Bool.eq_true_of_not_eq_false hread) (Bool.eq_true_of_not_eq_false hwrite)

theorem stepDec2_eq (E : Block → Block) (free : Nat → BitVec 16) (s : State) :
    stepDec2 E free s = chunkWrite E free (dec2Ready E s) (raise .ok) s := by
  rw [chunkWrite]
  split_ifs with hread hwrite
  · exact stepDec2_readError E free hread
  · exact stepDec2_writeError E free (Bool.eq_true_of_not_eq_false hread) hwrite
  · exact stepDec2_ok E free (Bool.eq_true_of_not_eq_false hread) (Bool.eq_true_of_not_eq_false hwrite)

/-! ## Control does not depend on data (70_reset_and_hazards.md R271, 43_payload_encrypt.md R174)

Each operation of an engine step keeps the agreement of two engines, whatever the cipher, the blocks and the bytes
on either side. -/

theorem sameControl_raise {s t : State} (code : Result) (h : s.SameControl t) :
    (raise code s).SameControl (raise code t) :=
  { h with phase := rfl, pend := rfl }

theorem sameControl_toPhase {s t : State} (p : Phase) (h : s.SameControl t) :
    (s.toPhase p).SameControl (t.toPhase p) :=
  { h with phase := rfl }

theorem sameControl_logRequest {s t : State} {r q : MemRequest} (hr : r = q) (h : s.SameControl t) :
    (s.logRequest r).SameControl (t.logRequest q) :=
  { h with requests := congrArg₂ List.cons hr h.requests }

theorem sameControl_absorb {s t : State} (E F : Block → Block) (x y : Block) (h : s.SameControl t) :
    (absorb E x s).SameControl (absorb F y t) :=
  { h with calls := congrArg Nat.succ h.calls }

theorem sameControl_keystream {s t : State} (E F : Block → Block) (i j : Nat) (h : s.SameControl t) :
    (keystream E i s).SameControl (keystream F j t) :=
  { h with calls := congrArg Nat.succ h.calls }

theorem sameControl_complete {s t : State} (h : s.SameControl t) :
    (complete s).SameControl (complete t) :=
  { h with op := rfl, phase := rfl, ctr := rfl, aj := rfl, pend := rfl }

theorem sameControl_payloadEntry {s t : State} (h : s.SameControl t) :
    (payloadEntry s).SameControl (payloadEntry t) := by
  simp only [payloadEntry, h.mlen, h.op]
  split_ifs <;> exact sameControl_toPhase _ h

theorem sameControl_nextChunk {s t : State} {i j : BitVec 64} {last : State → State} (hij : i = j)
    (hlast : ∀ u v : State, u.SameControl v → (last u).SameControl (last v)) (h : s.SameControl t) :
    (nextChunk i last s).SameControl (nextChunk j last t) := by
  subst hij
  have hmoved : ({ s with st := { s.st with ctr := i + 1 } } : State).SameControl
      { t with st := { t.st with ctr := i + 1 } } := { h with ctr := rfl }
  simp only [nextChunk, h.mlen]
  split_ifs
  · exact hlast _ _ hmoved
  · exact hmoved

/-! The requests of a step, and whether they are answered ok, are part of the agreement. -/

theorem busOk_of_sameControl {s t : State} {r q : MemRequest} (h : s.SameControl t) (hr : r = q) :
    t.busOk q = s.busOk r := by
  rw [hr, State.busOk, State.busOk, h.busErr]

theorem aadRequest_of_sameControl {s t : State} (h : s.SameControl t) :
    s.aadRequest s.st.aj.toNat = t.aadRequest t.st.aj.toNat := by
  simp only [State.aadRequest, h.alen, h.aadAddr, h.aj]

theorem readRequest_of_sameControl {s t : State} (h : s.SameControl t) :
    s.readRequest s.st.ctr.toNat = t.readRequest t.st.ctr.toNat := by
  simp only [State.readRequest, h.mlen, h.inAddr, h.ctr]

theorem writeRequest_of_sameControl {s t : State} (h : s.SameControl t) :
    s.writeRequest s.st.ctr.toNat = t.writeRequest t.st.ctr.toNat := by
  simp only [State.writeRequest, h.mlen, h.outAddr, h.ctr]

theorem sameControl_readError {s t : State} (h : s.SameControl t) :
    (raise .busError (s.logRequest (s.readRequest s.st.ctr.toNat))).SameControl
      (raise .busError (t.logRequest (t.readRequest t.st.ctr.toNat))) :=
  sameControl_raise _ (sameControl_logRequest (readRequest_of_sameControl h) h)

theorem sameControl_encReady {s t : State} (E F : Block → Block) (h : s.SameControl t) :
    (encReady E s).SameControl (encReady F t) :=
  sameControl_keystream _ _ _ _ (sameControl_absorb _ _ _ _
    (sameControl_logRequest (readRequest_of_sameControl h) h))

theorem sameControl_dec2Ready {s t : State} (E F : Block → Block) (h : s.SameControl t) :
    (dec2Ready E s).SameControl (dec2Ready F t) :=
  sameControl_keystream _ _ _ _ (sameControl_logRequest (readRequest_of_sameControl h) h)

theorem sameControl_wrote {s t u v : State} (E F : Block → Block) (h : s.SameControl t)
    (huv : u.SameControl v) : (wrote E s u).SameControl (wrote F t v) :=
  { sameControl_logRequest (writeRequest_of_sameControl h) huv with }

theorem sameControl_wroteSome {s t u v : State} (E F : Block → Block) (free : Nat → BitVec 16)
    (h : s.SameControl t) (huv : u.SameControl v) :
    (wroteSome E free s u).SameControl (wroteSome F free t v) :=
  { sameControl_logRequest (writeRequest_of_sameControl h) huv with }

/-! The steps of the phases. -/

theorem sameControl_stepCheck {s t : State} (h : s.SameControl t) :
    (stepCheck s).SameControl (stepCheck t) := by
  rw [stepCheck, stepCheck, State.lenSize, State.lenSize, h.nonceLen, h.mlen, h.alen]
  split_ifs
  · exact sameControl_raise _ h
  · exact sameControl_raise _ h
  · exact sameControl_raise _ h
  · exact sameControl_toPhase _ h

theorem sameControl_stepB0 {s t : State} (E F : Block → Block) (h : s.SameControl t) :
    (stepB0 E s).SameControl (stepB0 F t) := by
  simp only [stepB0, h.alen]
  split_ifs
  · exact { h with phase := rfl, aj := rfl, calls := congrArg Nat.succ h.calls }
  · exact sameControl_payloadEntry { h with calls := congrArg Nat.succ h.calls }

theorem sameControl_aadAbsorbed {s t : State} (E F : Block → Block) (h : s.SameControl t) :
    (aadAbsorbed E s).SameControl (aadAbsorbed F t) :=
  { sameControl_absorb E F _ _ (sameControl_logRequest (aadRequest_of_sameControl h) h) with
    aj := congrArg (· + 1) h.aj }

theorem sameControl_stepAad {s t : State} (E F : Block → Block) (h : s.SameControl t) :
    (stepAad E s).SameControl (stepAad F t) := by
  have hreq := aadRequest_of_sameControl h
  have hok := busOk_of_sameControl h hreq
  cases hread : s.busOk (s.aadRequest s.st.aj.toNat) with
  | false =>
    rw [stepAad_readError _ hread, stepAad_readError _ (hok.trans hread)]
    exact sameControl_raise _ (sameControl_logRequest hreq h)
  | true =>
    have habs := sameControl_aadAbsorbed E F h
    rw [stepAad_ok _ hread, stepAad_ok _ (hok.trans hread), h.aj, h.alen]
    split_ifs
    · exact sameControl_payloadEntry habs
    · exact habs

theorem sameControl_chunkWrite {s t u v : State} (E F : Block → Block) (free : Nat → BitVec 16)
    {last : State → State} (hlast : ∀ x y : State, x.SameControl y → (last x).SameControl (last y))
    (huv : u.SameControl v) (h : s.SameControl t) :
    (chunkWrite E free u last s).SameControl (chunkWrite F free v last t) := by
  simp only [chunkWrite, busOk_of_sameControl h (readRequest_of_sameControl h),
    busOk_of_sameControl h (writeRequest_of_sameControl h)]
  split_ifs
  · exact sameControl_readError h
  · exact sameControl_raise _ (sameControl_wroteSome E F free h huv)
  · exact sameControl_nextChunk h.ctr hlast (sameControl_wrote E F h huv)

theorem sameControl_stepEnc {s t : State} (E F : Block → Block) (free : Nat → BitVec 16)
    (h : s.SameControl t) : (stepEnc E free s).SameControl (stepEnc F free t) := by
  rw [stepEnc_eq, stepEnc_eq]
  exact sameControl_chunkWrite E F free (fun _ _ => sameControl_toPhase _) (sameControl_encReady E F h) h

theorem sameControl_stepDec2 {s t : State} (E F : Block → Block) (free : Nat → BitVec 16)
    (h : s.SameControl t) : (stepDec2 E free s).SameControl (stepDec2 F free t) := by
  rw [stepDec2_eq, stepDec2_eq]
  exact sameControl_chunkWrite E F free (fun _ _ => sameControl_raise _) (sameControl_dec2Ready E F h) h

theorem sameControl_stepDec1 {s t : State} (E F : Block → Block) (h : s.SameControl t) :
    (stepDec1 E s).SameControl (stepDec1 F t) := by
  have hok := busOk_of_sameControl h (readRequest_of_sameControl h)
  cases hread : s.busOk (s.readRequest s.st.ctr.toNat) with
  | false =>
    rw [stepDec1_readError _ hread, stepDec1_readError _ (hok.trans hread)]
    exact sameControl_readError h
  | true =>
    rw [stepDec1_ok _ hread, stepDec1_ok _ (hok.trans hread)]
    exact sameControl_nextChunk h.ctr (fun _ _ => sameControl_toPhase _)
      (sameControl_absorb E F _ _ (sameControl_dec2Ready E F h))

theorem sameControl_stepFinal {s t : State} (E F : Block → Block) (h : s.SameControl t) :
    (stepFinal E s).SameControl (stepFinal F t) := by
  have hcalls : s.calls.length + 1 = t.calls.length + 1 := congrArg Nat.succ h.calls
  simp only [stepFinal, h.op]
  split_ifs
  · exact { h with op := rfl, phase := rfl, pend := rfl, calls := hcalls }
  · exact { h with op := rfl, phase := rfl, calls := hcalls }

theorem sameControl_accept {s t : State} (h : s.SameControl t) : (accept s).SameControl (accept t) := by
  simp only [accept, h.mlen]
  split_ifs
  · exact { h with ctr := rfl, phase := rfl, pend := rfl }
  · exact { h with ctr := rfl, phase := rfl }

/-- VERIFY is the one step whose control depends on data, through the verdict alone. -/
theorem sameControl_stepVerify {s t : State} (hverdict : s.st.cand = s.tagReg ↔ t.st.cand = t.tagReg)
    (h : s.SameControl t) : (stepVerify s).SameControl (stepVerify t) := by
  by_cases htag : s.st.cand = s.tagReg
  · rw [stepVerify_match htag, stepVerify_match (hverdict.1 htag)]
    exact sameControl_accept h
  · rw [stepVerify_differ htag, stepVerify_differ (mt hverdict.2 htag)]
    exact sameControl_raise _ h

/-- The engine's step of any phase, in VERIFY for engines that agree on the verdict. -/
theorem sameControl_phaseStep {s t : State} (h : s.SameControl t)
    (hverdict : s.st.phase = .verify → (s.st.cand = s.tagReg ↔ t.st.cand = t.tagReg)) :
    (phaseStep s).SameControl (phaseStep t) := by
  simp only [phaseStep, ← h.phase]
  cases hp : s.st.phase with
  | idle => exact h
  | check => exact sameControl_stepCheck h
  | b0 => exact sameControl_stepB0 _ _ h
  | aad => exact sameControl_stepAad _ _ h
  | enc => exact sameControl_stepEnc _ _ _ h
  | dec1 => exact sameControl_stepDec1 _ _ h
  | final => exact sameControl_stepFinal _ _ h
  | verify => exact sameControl_stepVerify (hverdict hp) h
  | dec2 => exact sameControl_stepDec2 _ _ _ h
  | wipe => exact sameControl_complete h

/-- Settles O52: both engines are idle and stay as they are, or both take the step of the same phase. -/
theorem controlIndependentOfData : Obligations.ControlIndependentOfData := by
  intro s t s' t' h hverdict hs ht
  obtain ⟨hsi, hti⟩ := h.alone
  by_cases hidle : s.st.phase = .idle
  · rw [step_nil hsi, engineTurn_idle hidle] at hs
    rw [step_nil hti, engineTurn_idle (h.phase.symm.trans hidle)] at ht
    cases hs
    cases ht
    exact h
  · obtain rfl := step_busy hsi hidle hs
    obtain rfl := step_busy hti (h.phase ▸ hidle) ht
    exact sameControl_phaseStep { h with } hverdict

/-! ## Reset (70_reset_and_hazards.md R260 to R262) -/

/-- Settles O32: the move is `resetStep`, under which every offset reads 0. -/
theorem resetZeroesEverything : Obligations.ResetZeroesEverything := by
  intro s rest hi
  exact ⟨resetStep { s with inputs := rest }, step_cons hi, fun off => hostRead_resetStep off _, rfl, rfl,
    fun _ => rfl, rfl, rfl⟩

/-- Settles O33: a reset leaves `State.reset` as it is, so what holds after a reset holds of it. -/
theorem resetState : Obligations.ResetState :=
  ⟨fun off => hostRead_resetStep off State.reset, rfl, rfl, rfl⟩

/-- Settles O45: after reset the engine is idle. -/
theorem resetHasSequencerInvariant : Obligations.ResetHasSequencerInvariant := seqInv_idle rfl

/-- The memory `m` is that of `s`, but for bytes of the current write request that may have landed: the
conclusion of `wroteSome_mem`, as a property of memories. -/
def MayHaveLanded (s : State) (m : Memory) : Prop :=
  (∀ a, inBuffer (chunkAddr s.outAddr s.st.ctr.toNat) (chunkLen s.mlen s.st.ctr.toNat) a = false →
    Memory.byte m a = Memory.byte s.mem a) ∧
  ∀ a, Memory.byte m a = Memory.byte s.mem a ∨
    Memory.byte m a = (chunkOut (Config.cipher s.key) s).getD
      (a - chunkAddr s.outAddr s.st.ctr.toNat).toNat (Memory.byte s.mem a)

theorem mayHaveLanded_of_eq {s : State} {m : Memory} (h : m = s.mem) : MayHaveLanded s m := by
  subst h
  exact ⟨fun _ _ => rfl, fun _ => .inl rfl⟩

/-- A chunk step whose write request would fail writes nothing, or any subset of the request's bytes
(20_memory.md R69). -/
theorem chunkWrite_cut {s ready : State} {last : State → State}
    (hcut : s.busOk (cutRequest s) = false) :
    MayHaveLanded s (chunkWrite (Config.cipher s.key) Config.freeSubset ready last s).mem := by
  rw [chunkWrite]
  split_ifs with hread hwrite
  · exact mayHaveLanded_of_eq rfl
  · exact wroteSome_mem _ _ s ready
  · exact absurd hcut hwrite

theorem phaseStep_cut {s : State} (hcut : s.busOk (cutRequest s) = false) :
    MayHaveLanded s (phaseStep s).mem := by
  by_cases henc : s.st.phase = .enc
  · simp only [phaseStep, henc, stepEnc_eq]
    exact chunkWrite_cut hcut
  by_cases hdec2 : s.st.phase = .dec2
  · simp only [phaseStep, hdec2, stepDec2_eq]
    exact chunkWrite_cut hcut
  · exact mayHaveLanded_of_eq (phaseStep_noWrite s henc hdec2).1

theorem busOk_listed (r : MemRequest) (n : Nat) (s : State) :
    ({ s with busErr := r :: s.busErr, steps := n } : State).busOk r = false := by
  simp [State.busOk]

/-- What a reset that cuts the engine's step leaves: the registers and the engine of a reset, over the key and the
memory of the step it cut. -/
theorem resetCutTurn_next (s : State) :
    ∃ v, resetCutTurn s = .next { resetStep v with busErr := s.busErr, steps := s.steps } ∧
      v.key = s.key ∧ (s.st.phase ≠ .enc → s.st.phase ≠ .dec2 → v.mem = s.mem) ∧
      MayHaveLanded s v.mem := by
  obtain ⟨v, hv, e⟩ := resetCutTurn_eq s
  refine ⟨v, e, ?_⟩
  rcases hv with rfl | rfl
  · exact ⟨rfl, fun _ _ => rfl, mayHaveLanded_of_eq rfl⟩
  · let u : State := { s with busErr := cutRequest s :: s.busErr, steps := s.steps + 1 }
    have hcut : u.busOk (cutRequest u) = false := busOk_listed (cutRequest s) (s.steps + 1) s
    exact ⟨(phaseStep_untouched u).key, fun henc hdec2 => (phaseStep_noWrite u henc hdec2).1,
      phaseStep_cut hcut⟩

/-- Settles O34: the step is `resetCutTurn`, whose registers are those of a reset. -/
theorem resetCutsWrite : Obligations.ResetCutsWrite := by
  intro s rest hi k n w
  obtain ⟨v, hturn, hkey, hkept, houtside, hbyte⟩ := resetCutTurn_next { s with inputs := rest }
  exact ⟨_, (step_cons hi).trans hturn,
    fun off => hostRead_resetStep off { v with busErr := s.busErr, steps := s.steps }, rfl, hkey, rfl,
    fun henc hdec2 a => congrArg (Memory.byte · a) (hkept henc hdec2), houtside, hbyte⟩

/-! ## Moves forbidden while BUSY (70_reset_and_hazards.md R264, R265) -/

theorem storeTurn_input {a : Addr} {s : State} (b : Byte) (hb : s.busy = true)
    (hin : inBuffer s.aadAddr s.alen a = true ∨ inBuffer s.inAddr s.mlen a = true) :
    storeTurn a b s = .fault .inputRace := if_pos ⟨hb, hin⟩

theorem storeTurn_plain {a : Addr} {s : State} (b : Byte)
    (h : s.busy = false ∨ (inBuffer s.aadAddr s.alen a = false ∧ inBuffer s.inAddr s.mlen a = false ∧
      inBuffer s.outAddr s.mlen a = false)) : storeTurn a b s = .next (plainStore a b s) := by
  rcases h with hb | ⟨haad, hin, hout⟩
  · simp [storeTurn, hb]
  · simp [storeTurn, haad, hin, hout]

theorem rekeyTurn_busy {s : State} (k : Nat) (hb : s.busy = true) :
    rekeyTurn k s = .fault .keyChange := if_pos hb

theorem rekeyTurn_idle {s : State} (k : Nat) (hb : s.busy = false) :
    rekeyTurn k s = .next { s with key := k } := by simp [rekeyTurn, hb]

/-- Settles O36: the store and the key load are `storeTurn` and `rekeyTurn`, a lemma above for each case; a store
that is made is `plainStore`, whose byte and admitted bytes have a lemma each. -/
theorem forbiddenMovesStop : Obligations.ForbiddenMovesStop := by
  intro s rest
  let u : State := { s with inputs := rest }
  refine ⟨fun a b hi => ⟨fun hb hin => ?forbidden, fun hfree => ?made⟩,
    fun k hi => ⟨fun hb => ?busy, fun hb => ?idle⟩⟩
  case forbidden => exact (step_cons hi).trans (storeTurn_input (s := u) b hb hin)
  case made =>
    exact ⟨_, _, (step_cons hi).trans (storeTurn_plain (s := u) b hfree),
      fun x => ⟨Memory.byte_write s.mem a x b, admits_plainStore a b u x⟩⟩
  case busy => exact (step_cons hi).trans (rekeyTurn_busy (s := u) k hb)
  case idle => exact (step_cons hi).trans (rekeyTurn_idle (s := u) k hb)

end Sys2Proof.Machine
